-- ==== Sys2Proof/Word.lean ====
section
/-! DEFINITION. The word types of the HML block (20_memory.md R43, R44: the host moves 32-bit words; the input
buffer is bytes). -/

namespace Sys2Proof

/-- A byte of the input, BWT and OUT memories. -/
abbrev Byte := BitVec 8

/-- A 32-bit word: a command, a host register access, ERRINFO. -/
abbrev Word := BitVec 32

end Sys2Proof
end

