-- ==== Sys2Proof/Config.lean ====
section
/-! DEFINITION. The constants of 00_scope.md R5, the suggested capacity of R6, the names of the memories of
10_state.md R19, and the free values the spec leaves open (93_implementation_defined.md U1). -/

namespace Sys2Proof

/-- The memories of 10_state.md R19; the per-group ones carry their group number. -/
inductive MemName where
  | used
  | len (g : Nat)
  | sel
  | fav
  | tmin (g : Nat)
  | tmax (g : Nat)
  | first (g : Nat)
  | start (g : Nat)
  | sym (g : Nat)
  | base
  | bwt
  | lf
  | out
  deriving DecidableEq, Repr

namespace Config

/-- WINDOW (R5): width of the Huffman lookahead window and largest n of peek and consume. -/
def window : Nat := 24
/-- LEN_MIN (R5). -/
def lenMin : Nat := 1
/-- LEN_MAX (R5). -/
def lenMax : Nat := 20
/-- SYMUSED_MIN (R5). -/
def symusedMin : Nat := 2
/-- SYMUSED_MAX (R5): also the number of elements of LEN[g] and SYM[g] (R19). -/
def symusedMax : Nat := 258
/-- NFAV_MAX (R5): also the number of elements of USED, FAV and BASE (R19). -/
def nfavMax : Nat := 256
/-- NGROUPS_MIN (R5). -/
def ngroupsMin : Nat := 2
/-- NGROUPS_MAX (R5). -/
def ngroupsMax : Nat := 6
/-- NSEL_MAX (R5): the largest selector count. -/
def nselMax : Nat := 32767
/-- The number of elements of SEL (R19: elements 0..32767). -/
def selSize : Nat := 32768
/-- CHUNK (R5): Huffman symbols decoded per selector. -/
def chunk : Nat := 50
/-- NBUCKET (R5). -/
def nbucket : Nat := 256

/-- The suggested default of BWT_CAP (R6). DESIGN CHOICE (log entry 5): only `State.reset` uses it; every meaning
reads the capacity from `State.bwtCap`. -/
def suggestedBwtCap : Nat := 900000

/-- FREE VALUE (R26, U1; log entry 2): what element `i` of memory `m` holds after the `draw`-th power-on reset until
something writes it. No body: no proof can see its value. -/
opaque powerOnElem (w draw : Nat) (m : MemName) (i : Nat) : BitVec w

/-- FREE VALUE (R47; log entry 4): byte `i` of the host's own memory behind a lent input buffer, where the host's list
of bytes does not reach. `rest` names one such content. No body. -/
opaque hostMemory (rest i : Nat) : Byte

end Config

end Sys2Proof
end

