-- ==== Sys2Proof/Syntax.lean ====
section
/-! DEFINITION. The 17 commands of 30_encoding.md R63, one constructor per row of the opcode table. An operand is the
field of the word as it stands (R61); `WellFormed.lean` says which values are legal. -/

namespace Sys2Proof

/-- A command. Format N carries the bit count n = arg[4:0], format G the group g = arg[2:0] (R61). -/
inductive Instr where
  | nop
  | start
  | blkend
  | bseek
  | bpeek (n : BitVec 5)
  | bcons (n : BitVec 5)
  | hbuild (g : BitVec 3)
  | hlook (g : BitVec 3)
  | hdec (g : BitVec 3)
  | minit
  | msym
  | mstep
  | mblock
  | lcount
  | lmap
  | lwalk
  | linv
  deriving DecidableEq, Repr

/-- The three command formats (R61). -/
inductive Format where
  | z
  | n
  | g
  deriving DecidableEq, Repr

/-- The format of a command is fixed by its opcode (R61, R63). -/
def Instr.format : Instr → Format
  | .nop => .z
  | .start => .z
  | .blkend => .z
  | .bseek => .z
  | .bpeek _ => .n
  | .bcons _ => .n
  | .hbuild _ => .g
  | .hlook _ => .g
  | .hdec _ => .g
  | .minit => .z
  | .msym => .z
  | .mstep => .z
  | .mblock => .z
  | .lcount => .z
  | .lmap => .z
  | .lwalk => .z
  | .linv => .z

/-- The opcode byte of a command (R63, column op). -/
def Instr.op : Instr → BitVec 8
  | .nop => 0x00
  | .start => 0x01
  | .blkend => 0x02
  | .bseek => 0x10
  | .bpeek _ => 0x11
  | .bcons _ => 0x12
  | .hbuild _ => 0x20
  | .hlook _ => 0x21
  | .hdec _ => 0x22
  | .minit => 0x30
  | .msym => 0x31
  | .mstep => 0x32
  | .mblock => 0x33
  | .lcount => 0x40
  | .lmap => 0x41
  | .lwalk => 0x42
  | .linv => 0x43

end Sys2Proof
end

