-- ==== Sys2Proof/WellFormed.lean ====
section
/-! DEFINITION. Which operand values are legal (30_encoding.md R61, R64). -/

namespace Sys2Proof

/-- Format N: 1 <= n <= 24 (R61). -/
def bitCountLegal (n : BitVec 5) : Bool := decide (1 ≤ n.toNat) && decide (n.toNat ≤ Config.window)

/-- Format G: 0 <= g <= 5 (R61). -/
def groupLegal (g : BitVec 3) : Bool := decide (g.toNat < Config.ngroupsMax)

/-- A command whose operand is in the legal range of its format. -/
def Instr.wf : Instr → Bool
  | .nop => true
  | .start => true
  | .blkend => true
  | .bseek => true
  | .bpeek n => bitCountLegal n
  | .bcons n => bitCountLegal n
  | .hbuild g => groupLegal g
  | .hlook g => groupLegal g
  | .hdec g => groupLegal g
  | .minit => true
  | .msym => true
  | .mstep => true
  | .mblock => true
  | .lcount => true
  | .lmap => true
  | .lwalk => true
  | .linv => true

end Sys2Proof
end

