-- ==== Sys2Proof/Decode.lean ====
section
/-! DEFINITION. The decoder of command words (30_encoding.md R60-R65) and, after it, the encoder. Every word decodes
to a command or is illegal for a named reason (R64). -/

namespace Sys2Proof

/-- Why a word is illegal (R64). -/
inductive IllegalWord where
  | unknownOpcode
  | operandNotZero
  | bitCountReservedBits
  | bitCountOutOfRange
  | groupReservedBits
  | groupOutOfRange
  deriving DecidableEq, Repr

/-- The op field, bits 31:24 (R60). -/
def opField (w : Word) : BitVec 8 := w.extractLsb' 24 8

/-- The arg field, bits 23:0 (R60). -/
def argField (w : Word) : BitVec 24 := w.extractLsb' 0 24

/-- Format Z: arg[23:0] must be 0 (R61). -/
def decodeZ (arg : BitVec 24) (i : Instr) : Except IllegalWord Instr :=
  if arg = 0 then .ok i else .error .operandNotZero

/-- Format N: arg[23:5] must be 0 and n = arg[4:0] in 1..24 (R61). -/
def decodeN (arg : BitVec 24) (mk : BitVec 5 → Instr) : Except IllegalWord Instr :=
  if arg.extractLsb' 5 19 = 0 then
    if bitCountLegal (arg.extractLsb' 0 5) then .ok (mk (arg.extractLsb' 0 5)) else .error .bitCountOutOfRange
  else .error .bitCountReservedBits

/-- Format G: arg[23:3] must be 0 and g = arg[2:0] at most 5 (R61). -/
def decodeG (arg : BitVec 24) (mk : BitVec 3 → Instr) : Except IllegalWord Instr :=
  if arg.extractLsb' 3 21 = 0 then
    if groupLegal (arg.extractLsb' 0 3) then .ok (mk (arg.extractLsb' 0 3)) else .error .groupOutOfRange
  else .error .groupReservedBits

/-- The opcode table (R63): the op byte selects the row, the format checks the operand. -/
def decode (w : Word) : Except IllegalWord Instr :=
  match (opField w).toNat with
  | 0x00 => decodeZ (argField w) .nop
  | 0x01 => decodeZ (argField w) .start
  | 0x02 => decodeZ (argField w) .blkend
  | 0x10 => decodeZ (argField w) .bseek
  | 0x11 => decodeN (argField w) .bpeek
  | 0x12 => decodeN (argField w) .bcons
  | 0x20 => decodeG (argField w) .hbuild
  | 0x21 => decodeG (argField w) .hlook
  | 0x22 => decodeG (argField w) .hdec
  | 0x30 => decodeZ (argField w) .minit
  | 0x31 => decodeZ (argField w) .msym
  | 0x32 => decodeZ (argField w) .mstep
  | 0x33 => decodeZ (argField w) .mblock
  | 0x40 => decodeZ (argField w) .lcount
  | 0x41 => decodeZ (argField w) .lmap
  | 0x42 => decodeZ (argField w) .lwalk
  | 0x43 => decodeZ (argField w) .linv
  | _ => .error .unknownOpcode

/-- The row's instruction for a word numbered as the opcode table numbers it: one 32-bit word (R65), bits at and above
`nbits` zero. -/
def decodeTableWord (nbits w : Nat) : Option Instr :=
  match decode (BitVec.ofNat 32 (w % 2 ^ nbits)) with
  | .ok i => some i
  | .error _ => none

/-- The arg field of a command (R61). -/
def Instr.arg : Instr → BitVec 24
  | .nop => 0
  | .start => 0
  | .blkend => 0
  | .bseek => 0
  | .bpeek n => n.setWidth 24
  | .bcons n => n.setWidth 24
  | .hbuild g => g.setWidth 24
  | .hlook g => g.setWidth 24
  | .hdec g => g.setWidth 24
  | .minit => 0
  | .msym => 0
  | .mstep => 0
  | .mblock => 0
  | .lcount => 0
  | .lmap => 0
  | .lwalk => 0
  | .linv => 0

/-- The mask column of R63: all bits but the operand field. -/
def Instr.mask (i : Instr) : Word :=
  match i.format with
  | .z => 0xFFFFFFFF
  | .n => 0xFFFFFFE0
  | .g => 0xFFFFFFF8

/-- The match column of R63. -/
def Instr.matchBits (i : Instr) : Word := i.op ++ 0#24

/-- The command's operand is the field of `w` that its format names (R61). -/
def Instr.operandIs (i : Instr) (w : Word) : Bool :=
  match i with
  | .nop => true
  | .start => true
  | .blkend => true
  | .bseek => true
  | .bpeek n => n == w.extractLsb' 0 5
  | .bcons n => n == w.extractLsb' 0 5
  | .hbuild g => g == w.extractLsb' 0 3
  | .hlook g => g == w.extractLsb' 0 3
  | .hdec g => g == w.extractLsb' 0 3
  | .minit => true
  | .msym => true
  | .mstep => true
  | .mblock => true
  | .lcount => true
  | .lmap => true
  | .lwalk => true
  | .linv => true

/-- The command's word: op in bits 31:24, arg in bits 23:0 (R60, R63). -/
def encode (i : Instr) : Word := i.op ++ i.arg

end Sys2Proof
end

