-- ==== Sys2Proof/Machine/State.lean ====
section
/-! DEFINITION. The state of the HML block (10_state.md R10): its registers, flags and memories, the input buffer of the
decode call, and the model's own fields (host accesses still to be served, the parameter BWT_CAP, the draw of the
unwritten memories). Plain data throughout. -/

namespace Sys2Proof.Machine

/-- A memory of `w`-bit elements (10_state.md R19): the elements written so far as (index, element) pairs, indices strictly
rising (`Memory.wf`). An unlisted index holds no written value; reading it gives the free value of R26 (log entry 2).
`Memory 8` is a list of `Host.Cell`. -/
abbrev Memory (w : Nat) := List (Nat × BitVec w)

/-- The Huffman table of one group (10_state.md R19, R20). TMIN and TMAX are memories of one element, index 0. -/
structure HuffTable where
  tmin  : Memory 5
  tmax  : Memory 5
  first : Memory 32
  start : Memory 9
  sym   : Memory 9
  deriving DecidableEq, Repr

/-- A buffer of compressed bytes in the host's own memory (R40, R49): its first bytes as a list, and a number that
names what the host's memory holds beyond them (log entry 4). -/
structure InputBuffer where
  bytes : List Byte
  rest  : Nat
  deriving DecidableEq, Repr

/-- What the host, or the platform, does between commands (R7, R46, R190, R192). -/
inductive HostAccess where
  /-- HostRead of `size` bytes at byte address `addr` (R46); only size 4 and an aligned address are served (R44). -/
  | read (size : Nat) (addr : BitVec 28)
  /-- HostWrite of `size` bytes at byte address `addr` (R46); at address 0 it is a command (R60). -/
  | write (size : Nat) (addr : BitVec 28) (v : Word)
  /-- The host makes a buffer readable as the IN of the next START (R192 step 1; log entry 3). -/
  | lend (buf : InputBuffer)
  /-- The power-on reset input (R190; log entry 7). -/
  | powerOn
  deriving DecidableEq, Repr

/-- The state (R10). Registers are bit vectors of the width R14 gives, flags are Bool (R13). -/
structure State where
  opa : BitVec 32
  res0 : BitVec 32
  res1 : BitVec 32
  inlen : BitVec 29
  pos : BitVec 32
  limit : BitVec 32
  ngroups : BitVec 3
  nsel : BitVec 15
  symused : BitVec 9
  nfav : BitVec 9
  origin : BitVec 24
  bwtlen : BitVec 25
  pend : BitVec 25
  power : BitVec 5
  selidx : BitVec 15
  chunkcnt : BitVec 6
  outlen : BitVec 25
  walkptr : BitVec 24
  blkidx : BitVec 32
  err : BitVec 8
  errinfo : BitVec 32
  fault : Bool
  eobf : Bool
  favv : Bool
  cntv : Bool
  lfv : Bool
  outv : Bool
  tblv : Vector Bool 6
  used : Memory 1
  len : Vector (Memory 8) 6
  sel : Memory 3
  fav : Memory 8
  table : Vector HuffTable 6
  base : Memory 25
  bwt : Memory 8
  lf : Memory 24
  out : Memory 8
  input : InputBuffer
  lent : InputBuffer
  bwtCap : Nat
  powerDraw : Nat
  bus : List HostAccess
  rdata : Word
  deriving DecidableEq, Repr

/-- Why the machine stops. No state that R24 allows reaches either (obligation `GoodStatesNeverStop`). -/
inductive Fault where
  /-- Raised by HBUILD, HLOOK, HDEC, MSYM, MSTEP, MBLOCK, LCOUNT, LMAP, LWALK and LINV when an index they compute lies
  outside the memory's element range of R19, an element that does not exist. Safe: the model stops, and only in states
  that R24 rules out (log entry 9). -/
  | noSuchElement (m : MemName) (i : Nat)
  /-- Raised by MBLOCK if it completed more MSTEPs than R127's bound. Safe: it is never reached (log entry 10). -/
  | blockRunsOn
  deriving DecidableEq, Repr

/-- Why a step has no meaning. -/
inductive Refusal where
  /-- Raised by an arm of `exec` that has no meaning yet; no arm is left so. Safe. -/
  | notModelled (mnemonic : String)
  /-- Raised by a host access that is not one aligned 32-bit word: not part of the interface (R44, U5). Safe
  (log entry 8). -/
  | notAlignedWord
  deriving DecidableEq, Repr

/-- The outcome of a command or of a step. -/
abbrev Result := Host.Outcome State Fault Refusal

/-- A table nothing has written (R26). -/
def HuffTable.blank : HuffTable := ⟨[], [], [], [], []⟩

/-- The state after power-on reset: every register and flag 0 (R25, R190), no memory element written (R26). The
model's own fields: no buffer lent, the suggested BWT_CAP, draw 0, no host access pending (log entries 1 to 6). -/
def State.reset : State where
  opa := 0
  res0 := 0
  res1 := 0
  inlen := 0
  pos := 0
  limit := 0
  ngroups := 0
  nsel := 0
  symused := 0
  nfav := 0
  origin := 0
  bwtlen := 0
  pend := 0
  power := 0
  selidx := 0
  chunkcnt := 0
  outlen := 0
  walkptr := 0
  blkidx := 0
  err := 0
  errinfo := 0
  fault := false
  eobf := false
  favv := false
  cntv := false
  lfv := false
  outv := false
  tblv := Vector.replicate 6 false
  used := []
  len := Vector.replicate 6 []
  sel := []
  fav := []
  table := Vector.replicate 6 HuffTable.blank
  base := []
  bwt := []
  lf := []
  out := []
  input := ⟨[], 0⟩
  lent := ⟨[], 0⟩
  bwtCap := Config.suggestedBwtCap
  powerDraw := 0
  bus := []
  rdata := 0

end Sys2Proof.Machine
end

