-- ==== Sys2Proof/Machine/Ops.lean ====
section
/-! DEFINITION. The named operations over memories, the input buffer and the registers: reading and writing elements
(10_state.md R19, R26), the lookahead of the bit cursor (R41, R42, R91), taking a fault (R165), the Failed gate (R166)
and the discard of a block (R83). -/

namespace Sys2Proof.Machine

/-! ## Memories -/

/-- The element written at index `i`, if any. -/
def Memory.get? {w : Nat} : Memory w → Nat → Option (BitVec w)
  | [], _ => none
  | (j, v) :: m, i => if i = j then some v else Memory.get? m i

/-- Consecutive elements from index `base` on, as a memory. -/
def Memory.consecutive {w : Nat} : Nat → List (BitVec w) → Memory w
  | _, [] => []
  | base, v :: vs => (base, v) :: Memory.consecutive (base + 1) vs

/-- Write `vs` to the elements `base`, `base + 1`, ... and leave every other element alone. -/
def Memory.splice {w : Nat} (m : Memory w) (base : Nat) (vs : List (BitVec w)) : Memory w :=
  m.filter (fun c => decide (c.1 < base)) ++
    (Memory.consecutive base vs ++ m.filter (fun c => decide (base + vs.length ≤ c.1)))

/-- `M[i] <- v`. -/
def Memory.write {w : Nat} (m : Memory w) (i : Nat) (v : BitVec w) : Memory w :=
  Memory.splice m i [v]

/-- The canonical form: indices strictly rising. (An unlisted index holds no written value, so no listed entry can be
equal to what an unlisted one holds.) -/
abbrev Memory.wf {w : Nat} (m : Memory w) : Prop := m.Pairwise (fun a b => a.1 < b.1)

/-- Every listed index is one of the `n` elements the memory has (R19). -/
abbrev Memory.below {w : Nat} (m : Memory w) (n : Nat) : Prop := ∀ c ∈ m, c.1 < n

/-- `M[i]`: the written element, or the free value the memory came up with (R26, U1; log entry 2). -/
def State.elem {w : Nat} (s : State) (name : MemName) (m : Memory w) (i : Nat) : BitVec w :=
  (m.get? i).getD (Config.powerOnElem w s.powerDraw name i)

/-- USED[b]. -/
def State.usedAt (s : State) (b : Nat) : BitVec 1 := s.elem .used s.used b
/-- LEN[g][i]. -/
def State.lenAt (s : State) (g : Fin 6) (i : Nat) : BitVec 8 := s.elem (.len g) s.len[g] i
/-- SEL[i]. -/
def State.selAt (s : State) (i : Nat) : BitVec 3 := s.elem .sel s.sel i
/-- FAV[i]. -/
def State.favAt (s : State) (i : Nat) : BitVec 8 := s.elem .fav s.fav i
/-- TMIN[g]. -/
def State.tminOf (s : State) (g : Fin 6) : BitVec 5 := s.elem (.tmin g) s.table[g].tmin 0
/-- TMAX[g]. -/
def State.tmaxOf (s : State) (g : Fin 6) : BitVec 5 := s.elem (.tmax g) s.table[g].tmax 0
/-- FIRST[g][l]. -/
def State.firstAt (s : State) (g : Fin 6) (l : Nat) : BitVec 32 := s.elem (.first g) s.table[g].first l
/-- START[g][l]. -/
def State.startAt (s : State) (g : Fin 6) (l : Nat) : BitVec 9 := s.elem (.start g) s.table[g].start l
/-- SYM[g][i]. -/
def State.symAt (s : State) (g : Fin 6) (i : Nat) : BitVec 9 := s.elem (.sym g) s.table[g].sym i
/-- BASE[b]. -/
def State.baseAt (s : State) (b : Nat) : BitVec 25 := s.elem .base s.base b
/-- BWT[i]. -/
def State.bwtAt (s : State) (i : Nat) : BitVec 8 := s.elem .bwt s.bwt i
/-- LF[i]. -/
def State.lfAt (s : State) (i : Nat) : BitVec 24 := s.elem .lf s.lf i
/-- OUT[i]. -/
def State.outAt (s : State) (i : Nat) : BitVec 8 := s.elem .out s.out i

/-- The bytes BWT[0..BWTLEN-1] of the current buffer (R22). -/
def State.bwtBytes (s : State) : List Byte := (List.range s.bwtlen.toNat).map s.bwtAt

/-! ## The input space -/

/-- IN[i] of the decode call (R40, R49): the lent byte, or the free value of log entry 4 beyond the lent list. -/
def State.inByte (s : State) (i : Nat) : Byte :=
  (s.input.bytes[i]?).getD (Config.hostMemory s.input.rest i)

/-- `inbit(p)` (R41): bytes in ascending order, most significant bit first; 0 at and beyond LIMIT (R42). -/
def State.inbit (s : State) (p : Nat) : Nat :=
  if p < s.limit.toNat then ((s.inByte (p / 8)).getLsbD (7 - p % 8)).toNat else 0

/-- `peek(n)` (R91): the next `n` bits as an unsigned integer, the earlier bit more significant (R42). -/
def State.peek (s : State) (n : Nat) : Nat :=
  ((List.range n).map (fun k => s.inbit (s.pos.toNat + k) <<< (n - 1 - k))).sum

/-! ## Taking a fault -/

/-- The fault kinds of R161. The block never raises badMagic, unsupportedFeature and invalidSignature (R163). -/
inductive FaultKind where
  | truncation
  | badMagic
  | unsupportedFeature
  | invalidGroupCount
  | invalidCodeLength
  | invalidSelector
  | missingEndSymbol
  | invalidSignature
  | invalidOriginPointer
  | invalidCode
  | invalidSymbol
  | bufferOverflow
  | sequence
  | illegalCommand
  deriving DecidableEq, Repr

/-- The codes of R161. -/
def FaultKind.code : FaultKind → BitVec 8
  | .truncation => 1
  | .badMagic => 2
  | .unsupportedFeature => 3
  | .invalidGroupCount => 4
  | .invalidCodeLength => 5
  | .invalidSelector => 6
  | .missingEndSymbol => 7
  | .invalidSignature => 8
  | .invalidOriginPointer => 9
  | .invalidCode => 16
  | .invalidSymbol => 17
  | .bufferOverflow => 18
  | .sequence => 19
  | .illegalCommand => 20

/-- `raise K(info)` by a command whose opcode byte is `op` (R165): FAULT, ERR and ERRINFO, and nothing else. -/
def State.raise (s : State) (op : BitVec 8) (k : FaultKind) (info : BitVec 24) : State :=
  { s with fault := true, err := k.code, errinfo := op ++ info }

/-- The Failed state (R166): while FAULT = 1 a command other than a legal START is ignored. -/
def whenRunning (s : State) (k : Result) : Result :=
  if s.fault then .next s else k

/-- The way out of the Failed state (R167, R81): the fault record is cleared. -/
def State.clearFault (s : State) : State :=
  { s with fault := false, err := 0, errinfo := 0 }

/-! ## Register groups -/

/-- `(RES1, RES0) <- (n, v)` (R11). -/
def State.setResult (s : State) (v n : Nat) : State :=
  { s with res0 := BitVec.ofNat 32 v, res1 := BitVec.ofNat 32 n }

/-- `POS <- p`. -/
def State.setPos (s : State) (p : Nat) : State :=
  { s with pos := BitVec.ofNat 32 p }

/-- `discard_block_state()` (R83). It writes no memory (log entry 14). -/
def State.discardBlock (s : State) : State :=
  { s with
    eobf := false, favv := false, cntv := false, lfv := false, outv := false
    tblv := Vector.replicate 6 false
    nfav := 0, symused := 0
    bwtlen := 0, pend := 0, power := 0
    selidx := 0, chunkcnt := 0
    outlen := 0, walkptr := 0 }

/-! ## Chaining -/

/-- Run `k` after a command body that gave a next state; a stop of the machine stays a stop. -/
def Result.andThen (r : Result) (k : State → Result) : Result :=
  match r with
  | .next s => k s
  | .fault f => .fault f
  | .refused f => .refused f

end Sys2Proof.Machine
end

