-- ==== Sys2Proof/Machine/Operands.lean ====
section
/-! DEFINITION. The operand forms (30_encoding.md R61, R62): the bit count of format N, the group of format G, and the
operands taken from OPA. A word whose operand is out of range is illegal (R64). -/

namespace Sys2Proof.Machine

/-- An illegal word (R64): IllegalCommand with detail arg, and no other effect. -/
def State.illegal (s : State) (op : BitVec 8) (arg : BitVec 24) : State :=
  s.raise op .illegalCommand arg

/-- Format N: run `k` with n, or raise IllegalCommand where n is 0 or above 24 (R61, R64; log entry 12). -/
def withBitCount (i : Instr) (n : BitVec 5) (s : State) (k : Nat → Result) : Result :=
  if bitCountLegal n then k n.toNat else .next (s.illegal i.op i.arg)

/-- Format G: run `k` with g, or raise IllegalCommand where g is 6 or 7 (R61, R64; log entry 12). -/
def withGroup (i : Instr) (g : BitVec 3) (s : State) (k : Fin 6 → Result) : Result :=
  if h : g.toNat < 6 then k ⟨g.toNat, h⟩ else .next (s.illegal i.op i.arg)

/-- BSEEK's operand: OPA[31:0] (R62). -/
def State.opaPosition (s : State) : Nat := s.opa.toNat

/-- HLOOK's operand: OPA[23:0], OPA[31:24] ignored (R62). -/
def State.opaWindow (s : State) : Nat := (s.opa.extractLsb' 0 24).toNat

/-- MSYM's operand: OPA[31:0], all 32 bits (R62). -/
def State.opaSymbol (s : State) : Nat := s.opa.toNat

end Sys2Proof.Machine
end

