-- ==== Sys2Proof/Machine/BitCursor.lean ====
section
/-! DEFINITION. The bit-cursor commands BSEEK, BPEEK, BCONS (41_bitcursor.md R90-R94). -/

namespace Sys2Proof.Machine

/-- BSEEK (R92): POS <- OPA, or Truncation(0) if OPA > LIMIT. -/
def execBseek (s : State) : Result :=
  whenRunning s <|
    if s.limit.toNat < s.opaPosition then .next (s.raise Instr.bseek.op .truncation 0)
    else .next (s.setPos s.opaPosition)

/-- BPEEK n (R93): the next n bits, zero-padded, without moving the cursor. -/
def execBpeek (n : BitVec 5) (s : State) : Result :=
  whenRunning s <| withBitCount (.bpeek n) n s fun k => .next (s.setResult (s.peek k) k)

/-- BCONS n (R94): the next n bits, then the cursor moves past them; Truncation(n) if fewer remain. -/
def execBcons (n : BitVec 5) (s : State) : Result :=
  whenRunning s <| withBitCount (.bcons n) n s fun k =>
    if s.limit.toNat < s.pos.toNat + k then .next (s.raise (Instr.bcons n).op .truncation (BitVec.ofNat 24 k))
    else .next ((s.setResult (s.peek k) k).setPos (s.pos.toNat + k))

end Sys2Proof.Machine
end

