-- ==== Sys2Proof/Machine/Control.lean ====
section
/-! DEFINITION. The control commands NOP, START, BLKEND (40_control.md R80-R83). -/

namespace Sys2Proof.Machine

/-- NOP (R80): no state changes. -/
def execNop (s : State) : Result :=
  whenRunning s (.next s)

/-- The registers START writes besides the fault record and the per-block state (R81). IN becomes the buffer the host
has lent (R49, U2; log entry 3). -/
def State.beginCall (s : State) : State :=
  { s with
    limit := BitVec.ofNat 32 (8 * s.inlen.toNat)
    pos := 0, res0 := 0, res1 := 0, blkidx := 0
    input := s.lent }

/-- START (R81): the one command that is executed when FAULT = 1 too (R166). -/
def execStart (s : State) : Result :=
  .next s.clearFault.beginCall.discardBlock

/-- BLKEND (R82): discard the block and count it, modulo 2^32. -/
def execBlkend (s : State) : Result :=
  whenRunning s (.next { s.discardBlock with blkidx := s.blkidx + 1 })

end Sys2Proof.Machine
end

