-- ==== Sys2Proof/Machine/Flags.lean ====
section
/-! DEFINITION. The flags of 10_state.md R13: their word STATUS (R15) and the operations that set and clear them. -/

namespace Sys2Proof.Machine

/-- TBLV[5:0] as six bits, TBLV[0] lowest (R15). -/
def State.tblvBits (s : State) : BitVec 6 :=
  BitVec.ofBool s.tblv[5] ++ BitVec.ofBool s.tblv[4] ++ BitVec.ofBool s.tblv[3] ++
    BitVec.ofBool s.tblv[2] ++ BitVec.ofBool s.tblv[1] ++ BitVec.ofBool s.tblv[0]

/-- STATUS (R15): 31:24 zero, 23:16 ERR, 15:14 zero, 13:8 TBLV, 7:6 zero, then OUTV, LFV, CNTV, FAVV, EOBF, FAULT. -/
def State.status (s : State) : Word :=
  0#8 ++ s.err ++ 0#2 ++ s.tblvBits ++ 0#2 ++
    (BitVec.ofBool s.outv ++ BitVec.ofBool s.lfv ++ BitVec.ofBool s.cntv ++
      BitVec.ofBool s.favv ++ BitVec.ofBool s.eobf ++ BitVec.ofBool s.fault)

/-- `CNTV <- 0; LFV <- 0; OUTV <- 0`: the BWT buffer changed (R13). -/
def State.clearInverse (s : State) : State :=
  { s with cntv := false, lfv := false, outv := false }

/-- LCOUNT's flags (R140): CNTV set, LFV and OUTV cleared. -/
def State.markCounted (s : State) : State :=
  { s with cntv := true, lfv := false, outv := false }

/-- LMAP's flags (R141): CNTV and OUTV cleared, LFV set. -/
def State.markMapped (s : State) : State :=
  { s with cntv := false, lfv := true, outv := false }

/-- TBLV[g] <- 1 (R102). -/
def State.markTable (s : State) (g : Fin 6) : State :=
  { s with tblv := s.tblv.set g.val true g.isLt }

end Sys2Proof.Machine
end

