-- ==== Sys2Proof/Machine/Huffman.lean ====
section
/-! DEFINITION. The Huffman commands HBUILD, HLOOK, HDEC (42_huffman.md R100-R106). -/

namespace Sys2Proof.Machine

/-! ## The canonical code of a list of lengths (R100) -/

/-- `first(l)` (R100): first(1) = 0, first(l+1) = (first(l) + cnt[l]) << 1. -/
def firstCode (lens : List Nat) : Nat → Nat
  | 0 => 0
  | 1 => 0
  | l + 2 => (firstCode lens (l + 1) + lens.count (l + 1)) <<< 1

/-- `start(l)` (R100): start(1) = 0, start(l+1) = start(l) + cnt[l]. -/
def startIndex (lens : List Nat) : Nat → Nat
  | 0 => 0
  | 1 => 0
  | l + 2 => startIndex lens (l + 1) + lens.count (l + 1)

/-- The symbols of length `l`, ascending. -/
def symbolsOfLength (lens : List Nat) (l : Nat) : List Nat :=
  (lens.zipIdx.filter (fun p => p.1 == l)).map (·.2)

/-- The symbols sorted by (length, symbol) (R100, R102). -/
def sortedSymbols (lens : List Nat) : List Nat :=
  (List.range' 1 20).flatMap (symbolsOfLength lens)

/-- The least length that occurs (R102). -/
def leastLength (lens : List Nat) : Nat :=
  ((List.range' 1 20).find? (fun l => decide (0 < lens.count l))).getD 0

/-- The greatest length that occurs (R102). -/
def greatestLength (lens : List Nat) : Nat :=
  ((List.range' 1 20).reverse.find? (fun l => decide (0 < lens.count l))).getD 0

/-- A code length outside 1..20 (R102). -/
def badLength (x : Nat) : Bool := decide (x < Config.lenMin) || decide (Config.lenMax < x)

/-- L[s] = LEN[g][s] for s = 0..SYMUSED-1 (R100). -/
def State.lengths (s : State) (g : Fin 6) : List Nat :=
  (List.range s.symused.toNat).map (fun i => (s.lenAt g i).toNat)

/-- The writes of HBUILD to one table (R101, R102): FIRST and START at 1..21, SYM at 0..n-1, TMIN, TMAX. -/
def HuffTable.build (old : HuffTable) (lens : List Nat) : HuffTable where
  tmin := old.tmin.write 0 (BitVec.ofNat 5 (leastLength lens))
  tmax := old.tmax.write 0 (BitVec.ofNat 5 (greatestLength lens))
  first := old.first.splice 1 ((List.range' 1 21).map (fun l => BitVec.ofNat 32 (firstCode lens l)))
  start := old.start.splice 1 ((List.range' 1 21).map (fun l => BitVec.ofNat 9 (startIndex lens l)))
  sym := old.sym.splice 0 ((sortedSymbols lens).map (BitVec.ofNat 9))

/-- Replace table `g`. -/
def State.setTable (s : State) (g : Fin 6) (t : HuffTable) : State :=
  { s with table := s.table.set g.val t g.isLt }

/-- HBUILD g (R102): Sequence, then InvalidCodeLength with the least illegal symbol, else build the table. -/
def execHbuild (g : BitVec 3) (s : State) : Result :=
  whenRunning s <| withGroup (.hbuild g) g s fun k =>
    if !s.favv then .next (s.raise (Instr.hbuild g).op .sequence 0)
    else if s.symused.toNat = 0 ∨ Config.symusedMax < s.symused.toNat then
      .fault (.noSuchElement (.len k) s.symused.toNat)
    else
      match (s.lengths k).findIdx? badLength with
      | some i => .next (s.raise (Instr.hbuild g).op .invalidCodeLength (BitVec.ofNat 24 i))
      | none => .next ((s.setTable k (s.table[k].build (s.lengths k))).markTable k)

/-! ## The lookup (R103) -/

/-- What a lookup finds: a length and a symbol, no length in range, or (never for a built table, R106(a)) an index
outside FIRST, START or SYM. -/
inductive Lookup where
  | hit (len : Nat) (sym : Nat)
  | miss
  | outside (m : MemName) (i : Nat)
  deriving DecidableEq, Repr

/-- The scan of R103: the least length from TMIN to TMAX whose next first code, left-justified, exceeds the window. -/
def State.scanLength (s : State) (g : Fin 6) (w : Nat) : Option Nat :=
  (List.range' (s.tminOf g).toNat ((s.tmaxOf g).toNat + 1 - (s.tminOf g).toNat)).find?
    (fun l => decide (w < (s.firstAt g (l + 1)).toNat <<< (23 - l)))

/-- `lookup(g, w)` (R103). Lengths outside 1..20 and indices outside 0..257 name no element (log entry 9). -/
def State.lookup (s : State) (g : Fin 6) (w : Nat) : Lookup :=
  if (s.tminOf g).toNat < Config.lenMin then .outside (.start g) 0
  else if Config.lenMax < (s.tmaxOf g).toNat then .outside (.first g) ((s.tmaxOf g).toNat + 1)
  else
    match s.scanLength g w with
    | none => .miss
    | some l =>
      if w >>> (24 - l) < (s.firstAt g l).toNat then .outside (.sym g) 0
      else
        let idx := (s.startAt g l).toNat + (w >>> (24 - l) - (s.firstAt g l).toNat)
        if idx < Config.symusedMax then .hit l (s.symAt g idx).toNat else .outside (.sym g) idx

/-- HLOOK g (R104): look up the window OPA[23:0]. -/
def execHlook (g : BitVec 3) (s : State) : Result :=
  whenRunning s <| withGroup (.hlook g) g s fun k =>
    if !s.tblv[k] then .next (s.raise (Instr.hlook g).op .sequence 0)
    else
      match s.lookup k s.opaWindow with
      | .miss => .next (s.raise (Instr.hlook g).op .invalidCode (BitVec.ofNat 24 s.opaWindow))
      | .outside m i => .fault (.noSuchElement m i)
      | .hit l sym => .next (s.setResult sym l)

/-- HDEC g (R105): look up the window at the cursor, then consume the code; Truncation(l) if fewer bits remain. -/
def execHdec (g : BitVec 3) (s : State) : Result :=
  whenRunning s <| withGroup (.hdec g) g s fun k =>
    if !s.tblv[k] then .next (s.raise (Instr.hdec g).op .sequence 0)
    else
      match s.lookup k (s.peek Config.window) with
      | .miss => .next (s.raise (Instr.hdec g).op .invalidCode (BitVec.ofNat 24 (s.peek Config.window)))
      | .outside m i => .fault (.noSuchElement m i)
      | .hit l sym =>
        if s.limit.toNat < s.pos.toNat + l then
          .next (s.raise (Instr.hdec g).op .truncation (BitVec.ofNat 24 l))
        else .next ((s.setPos (s.pos.toNat + l)).setResult sym l)

end Sys2Proof.Machine
end

