-- ==== Sys2Proof/Machine/Lfu.lean ====
section
/-! DEFINITION. The LF-map commands LCOUNT, LMAP, LWALK, LINV (44_lfmap.md R140-R144). -/

namespace Sys2Proof.Machine

/-! ## LCOUNT -/

/-- The number of bytes of `bs` with value below `b`: the exclusive prefix sum of R140. -/
def countBelow (bs : List Byte) (b : Nat) : Nat :=
  bs.countP (fun x => decide (x.toNat < b))

/-- The operation of LCOUNT (R140): BASE[b] for b = 0..255, then the flags. -/
def State.lcountBody (s : State) : Result :=
  if s.bwtCap < s.bwtlen.toNat then .fault (.noSuchElement .bwt (s.bwtlen.toNat - 1))
  else
    .next (State.markCounted
      { s with
        base := s.base.splice 0
          ((List.range Config.nbucket).map (fun b => BitVec.ofNat 25 (countBelow s.bwtBytes b))) })

/-- LCOUNT (R140). -/
def execLcount (s : State) : Result :=
  whenRunning s s.lcountBody

/-! ## LMAP -/

/-- `LF[j] <- i; BASE[b] <- j + 1`, one element of the fill (R141). -/
def State.placeIndex (s : State) (b j i : Nat) : State :=
  { s with
    lf := s.lf.write j (BitVec.ofNat 24 i)
    base := s.base.write b (BitVec.ofNat 25 (j + 1)) }

/-- The loop of R141 over the indices still to place; none if a bucket cursor leaves LF (log entry 9). -/
def lmapLoop : List Nat → State → Option State
  | [], s => some s
  | i :: is, s =>
    if (s.baseAt (s.bwtAt i).toNat).toNat < s.bwtCap then
      lmapLoop is (s.placeIndex (s.bwtAt i).toNat (s.baseAt (s.bwtAt i).toNat).toNat i)
    else none

/-- The operation of LMAP (R141). -/
def State.lmapBody (s : State) : Result :=
  if s.bwtCap < s.bwtlen.toNat then .fault (.noSuchElement .bwt (s.bwtlen.toNat - 1))
  else
    match lmapLoop (List.range s.bwtlen.toNat) s with
    | none => .fault (.noSuchElement .lf s.bwtCap)
    | some t => .next t.markMapped

/-- LMAP (R141): Sequence if CNTV = 0. -/
def execLmap (s : State) : Result :=
  whenRunning s <|
    if !s.cntv then .next (s.raise Instr.lmap.op .sequence 0) else s.lmapBody

/-! ## LWALK -/

/-- The walk of R142 from `p`: step first, then emit. Gives the last pointer and the bytes in order; none if the
pointer leaves LF (log entry 9). -/
def State.walk (s : State) : Nat → Nat → Option (Nat × List Byte)
  | 0, p => some (p, [])
  | k + 1, p =>
    if (s.lfAt p).toNat < s.bwtCap then
      match State.walk s k (s.lfAt p).toNat with
      | none => none
      | some (e, bs) => some (e, s.bwtAt (s.lfAt p).toNat :: bs)
    else none

/-- The registers and memory LWALK writes (R142). -/
def State.setOutput (s : State) (e : Nat) (bs : List Byte) : State :=
  { s with
    out := s.out.splice 0 bs
    outlen := s.bwtlen
    walkptr := BitVec.ofNat 24 e
    outv := true }

/-- The operation of LWALK (R142). -/
def State.lwalkBody (s : State) : Result :=
  if s.bwtCap < s.bwtlen.toNat then .fault (.noSuchElement .bwt (s.bwtlen.toNat - 1))
  else
    match s.walk s.bwtlen.toNat s.origin.toNat with
    | none => .fault (.noSuchElement .lf s.bwtCap)
    | some (e, bs) => .next (s.setOutput e bs)

/-- LWALK (R142): Sequence if LFV = 0, then InvalidOriginPointer if ORIGIN >= BWTLEN. -/
def execLwalk (s : State) : Result :=
  whenRunning s <|
    if !s.lfv then .next (s.raise Instr.lwalk.op .sequence 0)
    else if s.bwtlen.toNat ≤ s.origin.toNat then
      .next (s.raise Instr.lwalk.op .invalidOriginPointer s.origin)
    else s.lwalkBody

/-! ## LINV -/

/-- LINV (R143): the origin check first, then the operations of LCOUNT, LMAP and LWALK. -/
def execLinv (s : State) : Result :=
  whenRunning s <|
    if s.bwtlen.toNat ≤ s.origin.toNat then
      .next (s.raise Instr.linv.op .invalidOriginPointer s.origin)
    else
      Result.andThen s.lcountBody fun s1 => Result.andThen s1.lmapBody fun s2 => s2.lwalkBody

end Sys2Proof.Machine
end

