-- ==== Sys2Proof/Machine/Mtf.lean ====
section
/-! DEFINITION. The MTF and run commands MINIT, MSYM, MSTEP, MBLOCK (43_mtf.md R120-R128). -/

namespace Sys2Proof.Machine

/-! ## MINIT -/

/-- The byte values b with USED[b] = 1, ascending (R121). -/
def State.usedBytes (s : State) : List Nat :=
  (List.range Config.nfavMax).filter (fun b => s.usedAt b == 1)

/-- The operation of MINIT (R121). -/
def State.initBlock (s : State) : State :=
  { s with
    fav := s.fav.splice 0 (s.usedBytes.map (BitVec.ofNat 8))
    nfav := BitVec.ofNat 9 s.usedBytes.length
    symused := BitVec.ofNat 9 (s.usedBytes.length + 2)
    pend := 0, power := 0, bwtlen := 0, selidx := 0, chunkcnt := 0
    eobf := false, favv := true, cntv := false, lfv := false, outv := false
    tblv := Vector.replicate 6 false }

/-- MINIT (R121). -/
def execMinit (s : State) : Result :=
  whenRunning s (.next s.initBlock)

/-! ## Symbol classes (R120) -/

/-- The classes of R120, and the values that are no symbol. -/
inductive SymClass where
  | run
  | endOfBlock
  | literal
  | notSymbol
  deriving DecidableEq, Repr

/-- The class of a symbol code, the tests in R120's order (RUNA and RUNB are the codes 0 and 1 of class run). -/
def symClass (symused c : Nat) : SymClass :=
  if symused ≤ c then .notSymbol
  else if c ≤ 1 then .run
  else if c + 1 = symused then .endOfBlock
  else .literal

/-! ## The parts of MSYM -/

/-- `run_add(c)` (R123). -/
def State.runAdd (s : State) (c : Nat) : State :=
  { s with
    pend := BitVec.ofNat 25 (s.pend.toNat + 2 ^ (s.power.toNat + c))
    power := BitVec.ofNat 5 (s.power.toNat + 1) }

/-- `flush()` (R124): append FAV[0] PEND times. -/
def State.flush (s : State) : State :=
  { s with
    bwt := s.bwt.splice s.bwtlen.toNat (List.replicate s.pend.toNat (s.favAt 0))
    bwtlen := BitVec.ofNat 25 (s.bwtlen.toNat + s.pend.toNat)
    pend := 0, power := 0 }

/-- `emit_and_promote(c)` (R125): append FAV[c-1]; the old FAV[0..c-2] move to 1..c-1, the emitted byte to 0. -/
def State.emitAndPromote (s : State) (c : Nat) : State :=
  { s with
    bwt := s.bwt.write s.bwtlen.toNat (s.favAt (c - 1))
    bwtlen := BitVec.ofNat 25 (s.bwtlen.toNat + 1)
    fav := s.fav.splice 0 (s.favAt (c - 1) :: (List.range (c - 1)).map s.favAt) }

/-- The fault checks (2) to (4) of MSYM (R122), in order, with the detail of R164. -/
def State.symFault (s : State) (c : Nat) : Option (FaultKind × BitVec 24) :=
  match symClass s.symused.toNat c with
  | .notSymbol => some (.invalidSymbol, BitVec.ofNat 24 c)
  | .run =>
    if s.bwtCap < s.bwtlen.toNat + s.pend.toNat + 2 ^ (s.power.toNat + c) then some (.bufferOverflow, 0) else none
  | .literal =>
    if s.bwtCap < s.bwtlen.toNat + s.pend.toNat + 1 then some (.bufferOverflow, 0) else none
  | .endOfBlock => none

/-- An element the operation of MSYM would need and the memory does not have; none where R24 holds (log entry 9). -/
def State.symOutside (s : State) (c : Nat) : Option (MemName × Nat) :=
  match symClass s.symused.toNat c with
  | .endOfBlock =>
    if s.pend ≠ 0 ∧ s.bwtCap < s.bwtlen.toNat + s.pend.toNat then
      some (.bwt, s.bwtlen.toNat + s.pend.toNat - 1)
    else none
  | .literal => if Config.nfavMax ≤ c - 1 then some (.fav, c - 1) else none
  | .run => none
  | .notSymbol => none

/-- The operation of MSYM (R122). -/
def State.symApply (s : State) (c : Nat) : State :=
  match symClass s.symused.toNat c with
  | .run => (s.runAdd c).clearInverse
  | .endOfBlock => { s.flush with eobf := true }.clearInverse
  | .literal => (s.flush.emitAndPromote c).clearInverse
  | .notSymbol => s

/-- MSYM (R122): the symbol code is OPA[31:0]. -/
def execMsym (s : State) : Result :=
  whenRunning s <|
    if !s.favv || s.eobf then .next (s.raise Instr.msym.op .sequence 0)
    else
      match s.symFault s.opaSymbol with
      | some (k, info) => .next (s.raise Instr.msym.op k info)
      | none =>
        match s.symOutside s.opaSymbol with
        | some (m, i) => .fault (.noSuchElement m i)
        | none => .next (s.symApply s.opaSymbol)

/-! ## MSTEP and MBLOCK -/

/-- The selector index the next symbol uses (R126 check 3): SELIDX + 1 after a full chunk, else SELIDX. -/
def State.nextSelector (s : State) : Nat :=
  if s.chunkcnt.toNat = Config.chunk then s.selidx.toNat + 1 else s.selidx.toNat

/-- `SELIDX <- i; CHUNKCNT <- (0 if CHUNKCNT = 50 else CHUNKCNT) + 1` (R126). -/
def State.countSymbol (s : State) (i : Nat) : State :=
  { s with
    selidx := BitVec.ofNat 15 i
    chunkcnt := BitVec.ofNat 6 ((if s.chunkcnt.toNat = Config.chunk then 0 else s.chunkcnt.toNat) + 1) }

/-- Checks (6) to (8) and the operation of MSTEP (R126) with table `g` and selector index `i`. A fault leaves the
state as it was; `op` is the opcode of the command the host issued (R16). -/
def State.decodeAndProcess (s : State) (op : BitVec 8) (g : Fin 6) (i : Nat) : Result :=
  match s.lookup g (s.peek Config.window) with
  | .miss => .next (s.raise op .invalidCode (BitVec.ofNat 24 (s.peek Config.window)))
  | .outside m j => .fault (.noSuchElement m j)
  | .hit l sym =>
    if s.limit.toNat < s.pos.toNat + l then .next (s.raise op .truncation (BitVec.ofNat 24 l))
    else
      match s.symFault sym with
      | some (k, info) => .next (s.raise op k info)
      | none =>
        match s.symOutside sym with
        | some (m, j) => .fault (.noSuchElement m j)
        | none =>
          .next ((((s.setPos (s.pos.toNat + l)).countSymbol i).setResult sym l).symApply sym)

/-- One MSTEP (R126) inside a command whose opcode byte is `op`: checks (1) to (5), then the rest. -/
def State.mstepWith (s : State) (op : BitVec 8) : Result :=
  if !s.favv || s.eobf then .next (s.raise op .sequence 0)
  else if hn : s.ngroups.toNat < Config.ngroupsMin ∨ Config.ngroupsMax < s.ngroups.toNat then
    .next (s.raise op .invalidGroupCount (s.ngroups.setWidth 24))
  else if s.nsel.toNat ≤ s.nextSelector then
    .next (s.raise op .missingEndSymbol (BitVec.ofNat 24 s.nextSelector))
  else if hg : s.ngroups.toNat ≤ (s.selAt s.nextSelector).toNat then
    .next (s.raise op .invalidSelector (BitVec.ofNat 24 s.nextSelector))
  else
    let g : Fin 6 := ⟨(s.selAt s.nextSelector).toNat, by simp only [Config.ngroupsMax] at hn; omega⟩
    if !s.tblv[g] then .next (s.raise op .sequence 0)
    else s.decodeAndProcess op g s.nextSelector

/-- MSTEP (R126). -/
def execMstep (s : State) : Result :=
  whenRunning s (s.mstepWith Instr.mstep.op)

/-- The repetition of R127: MSTEPs until EOBF = 1 or a fault, at most the given number of them (log entry 10). -/
def mblockLoop (op : BitVec 8) : Nat → State → Result
  | 0, _ => .fault .blockRunsOn
  | k + 1, s => Result.andThen (s.mstepWith op) fun t =>
      if t.eobf || t.fault then .next t else mblockLoop op k t

/-- MBLOCK (R127). At most 50 × NSEL MSTEPs complete from a state with CHUNKCNT <= 50; 64 more cover every value
CHUNKCNT can hold. -/
def execMblock (s : State) : Result :=
  whenRunning s (mblockLoop Instr.mblock.op (Config.chunk * s.nsel.toNat + 64) s)

end Sys2Proof.Machine
end

