-- ==== Sys2Proof/Machine/Dispatch.lean ====
section
/-! DEFINITION. One arm per command: a direct call of its meaning. -/

namespace Sys2Proof.Machine

def exec (i : Instr) (s : State) : Host.Outcome State Fault Refusal :=
  match i with
  | .nop => Sys2Proof.Machine.execNop s
  | .start => Sys2Proof.Machine.execStart s
  | .blkend => Sys2Proof.Machine.execBlkend s
  | .bseek => Sys2Proof.Machine.execBseek s
  | .bpeek n => Sys2Proof.Machine.execBpeek n s
  | .bcons n => Sys2Proof.Machine.execBcons n s
  | .hbuild g => Sys2Proof.Machine.execHbuild g s
  | .hlook g => Sys2Proof.Machine.execHlook g s
  | .hdec g => Sys2Proof.Machine.execHdec g s
  | .minit => Sys2Proof.Machine.execMinit s
  | .msym => Sys2Proof.Machine.execMsym s
  | .mstep => Sys2Proof.Machine.execMstep s
  | .mblock => Sys2Proof.Machine.execMblock s
  | .lcount => Sys2Proof.Machine.execLcount s
  | .lmap => Sys2Proof.Machine.execLmap s
  | .lwalk => Sys2Proof.Machine.execLwalk s
  | .linv => Sys2Proof.Machine.execLinv s

end Sys2Proof.Machine
end

