-- ==== Sys2Proof/Machine/Bus.lean ====
section
/-! DEFINITION. The host's side of the block: the address map (20_memory.md R45), host reads and writes (R44, R46,
10_state.md R17, R18), the command register (30_encoding.md R60, R64, R166), and power-on reset (R190). -/

namespace Sys2Proof.Machine

/-! ## The map -/

/-- The scalar registers of R14 by name. -/
inductive Reg where
  | cmd | status | errinfo | opa | res0 | res1 | inlen | pos | limit | ngroups | nsel
  | symused | nfav | origin | bwtlen | pend | power | selidx | chunkcnt | outlen | walkptr | blkidx
  deriving DecidableEq, Repr

/-- The registers in the order of their offsets 0x000, 0x004, ..., 0x054 (R14). -/
def Reg.inOrder : List Reg :=
  [.cmd, .status, .errinfo, .opa, .res0, .res1, .inlen, .pos, .limit, .ngroups, .nsel,
   .symused, .nfav, .origin, .bwtlen, .pend, .power, .selidx, .chunkcnt, .outlen, .walkptr, .blkidx]

/-- What a word of the host space is (R45). -/
inductive Slot where
  | reg (r : Reg)
  | usedWord (k : Nat)
  | fav (i : Nat)
  | base (b : Nat)
  | len (g : Fin 6) (i : Nat)
  | tmin (g : Fin 6)
  | tmax (g : Fin 6)
  | first (g : Fin 6) (l : Nat)
  | start (g : Fin 6) (l : Nat)
  | sym (g : Fin 6) (i : Nat)
  | sel (i : Nat)
  | bwt (i : Nat)
  | lf (i : Nat)
  | out (i : Nat)
  | unmapped
  deriving DecidableEq, Repr

/-- The words of one group's table region, by word offset in 0..1023 (R45). -/
def tableSlot (g : Fin 6) (o : Nat) : Slot :=
  if o = 0 then .tmin g
  else if o = 1 then .tmax g
  else if 0x41 ≤ o ∧ o ≤ 0x55 then .first g (o - 0x40)
  else if 0x81 ≤ o ∧ o ≤ 0x95 then .start g (o - 0x80)
  else if 0x200 ≤ o ∧ o < 0x200 + Config.symusedMax then .sym g (o - 0x200)
  else .unmapped

/-- The map of R45 by word number (byte address / 4). `cap` is BWT_CAP. -/
def slotAt (cap w : Nat) : Slot :=
  if w < 0x40 then
    match Reg.inOrder[w]? with
    | some r => .reg r
    | none => .unmapped
  else if w < 0x48 then .usedWord (w - 0x40)
  else if w < 0x100 then .unmapped
  else if w < 0x200 then .fav (w - 0x100)
  else if w < 0x300 then .base (w - 0x200)
  else if w < 0x1000 then .unmapped
  else if h : w < 0x1C00 then
    if (w - 0x1000) % 0x200 < Config.symusedMax then .len ⟨(w - 0x1000) / 0x200, by omega⟩ ((w - 0x1000) % 0x200)
    else .unmapped
  else if w < 0x2000 then .unmapped
  else if h : w < 0x3800 then tableSlot ⟨(w - 0x2000) / 0x400, by omega⟩ ((w - 0x2000) % 0x400)
  else if w < 0x8000 then .unmapped
  else if w < 0x10000 then .sel (w - 0x8000)
  else if w < 0x1000000 then .unmapped
  else if w < 0x2000000 then (if w - 0x1000000 < cap then .bwt (w - 0x1000000) else .unmapped)
  else if w < 0x3000000 then (if w - 0x2000000 < cap then .lf (w - 0x2000000) else .unmapped)
  else (if w - 0x3000000 < cap then .out (w - 0x3000000) else .unmapped)

/-- An aligned byte address names the word of the map it starts (R44, R45). -/
def State.slotOf (s : State) (addr : BitVec 28) : Slot := slotAt s.bwtCap (addr.toNat / 4)

/-! ## Host reads -/

/-- A register's value, zero-extended (R46); CMD reads 0 (R14). -/
def State.readReg (s : State) : Reg → Word
  | .cmd => 0
  | .status => s.status
  | .errinfo => s.errinfo
  | .opa => s.opa
  | .res0 => s.res0
  | .res1 => s.res1
  | .inlen => s.inlen.setWidth 32
  | .pos => s.pos
  | .limit => s.limit
  | .ngroups => s.ngroups.setWidth 32
  | .nsel => s.nsel.setWidth 32
  | .symused => s.symused.setWidth 32
  | .nfav => s.nfav.setWidth 32
  | .origin => s.origin.setWidth 32
  | .bwtlen => s.bwtlen.setWidth 32
  | .pend => s.pend.setWidth 32
  | .power => s.power.setWidth 32
  | .selidx => s.selidx.setWidth 32
  | .chunkcnt => s.chunkcnt.setWidth 32
  | .outlen => s.outlen.setWidth 32
  | .walkptr => s.walkptr.setWidth 32
  | .blkidx => s.blkidx

/-- Word k of the USED aperture: bit j is USED[32k + j] (R45). -/
def State.usedWord (s : State) (k : Nat) : Word :=
  BitVec.ofNat 32 ((List.range 32).map (fun j => (s.usedAt (32 * k + j)).toNat <<< j)).sum

/-- HostRead of a word of the map (R46): a register or element zero-extended, 0 where nothing is mapped. -/
def State.readSlot (s : State) : Slot → Word
  | .reg r => s.readReg r
  | .usedWord k => s.usedWord k
  | .fav i => (s.favAt i).setWidth 32
  | .base b => (s.baseAt b).setWidth 32
  | .len g i => (s.lenAt g i).setWidth 32
  | .tmin g => (s.tminOf g).setWidth 32
  | .tmax g => (s.tmaxOf g).setWidth 32
  | .first g l => s.firstAt g l
  | .start g l => (s.startAt g l).setWidth 32
  | .sym g i => (s.symAt g i).setWidth 32
  | .sel i => (s.selAt i).setWidth 32
  | .bwt i => (s.bwtAt i).setWidth 32
  | .lf i => (s.lfAt i).setWidth 32
  | .out i => (s.outAt i).setWidth 32
  | .unmapped => 0

/-- HostRead(addr) for an aligned word (R46). -/
def State.hostRead (s : State) (addr : BitVec 28) : Word := s.readSlot (s.slotOf addr)

/-! ## Host writes -/

/-- A host write of BWTLEN (R17): ignored above BWT_CAP, else the register and its side effects. -/
def State.writeBwtlen (s : State) (v : Word) : State :=
  if s.bwtCap < (v.setWidth 25).toNat then s
  else { s with bwtlen := v.setWidth 25, pend := 0, power := 0 }.clearInverse

/-- A host write of a register (R14, R17, R18): the low bits into a read/write register, else nothing. CMD is not
written here but executed (`State.command`). -/
def State.writeReg (s : State) (v : Word) : Reg → State
  | .opa => { s with opa := v }
  | .inlen => { s with inlen := v.setWidth 29 }
  | .ngroups => { s with ngroups := v.setWidth 3 }
  | .nsel => { s with nsel := v.setWidth 15 }
  | .origin => { s with origin := v.setWidth 24 }
  | .bwtlen => s.writeBwtlen v
  | .cmd => s
  | .status => s
  | .errinfo => s
  | .res0 => s
  | .res1 => s
  | .pos => s
  | .limit => s
  | .symused => s
  | .nfav => s
  | .pend => s
  | .power => s
  | .selidx => s
  | .chunkcnt => s
  | .outlen => s
  | .walkptr => s
  | .blkidx => s

/-- A write of word k of the USED aperture replaces its 32 elements (R45). -/
def State.writeUsedWord (s : State) (k : Nat) (v : Word) : State :=
  { s with used := s.used.splice (32 * k) ((List.range 32).map (fun j => BitVec.ofBool (v.getLsbD j))) }

/-- A write of LEN[g][i] (R19). -/
def State.writeLen (s : State) (g : Fin 6) (i : Nat) (v : Word) : State :=
  { s with len := s.len.set g.val ((s.len[g]).write i (v.setWidth 8)) g.isLt }

/-- A write of SEL[i] (R19). -/
def State.writeSel (s : State) (i : Nat) (v : Word) : State :=
  { s with sel := s.sel.write i (v.setWidth 3) }

/-- A write of BWT[i]: the byte, and CNTV, LFV, OUTV cleared (R17). -/
def State.writeBwt (s : State) (i : Nat) (v : Word) : State :=
  { s with bwt := s.bwt.write i (v.setWidth 8) }.clearInverse

/-- HostWrite to a word of the map other than CMD (R17, R18, R46). -/
def State.writeSlot (s : State) (v : Word) : Slot → State
  | .reg r => s.writeReg v r
  | .usedWord k => s.writeUsedWord k v
  | .len g i => s.writeLen g i v
  | .sel i => s.writeSel i v
  | .bwt i => s.writeBwt i v
  | .fav _ => s
  | .base _ => s
  | .tmin _ => s
  | .tmax _ => s
  | .first _ _ => s
  | .start _ _ => s
  | .sym _ _ => s
  | .lf _ => s
  | .out _ => s
  | .unmapped => s

/-- A word written to CMD (R60): a legal command runs; an illegal word raises IllegalCommand, or is ignored in the
Failed state (R64, R166). -/
def State.command (s : State) (w : Word) : Result :=
  match decode w with
  | .ok i => exec i s
  | .error _ => whenRunning s (.next (s.illegal (opField w) (argField w)))

/-- HostWrite(addr, v) for an aligned word (R46). -/
def State.hostWrite (s : State) (addr : BitVec 28) (v : Word) : Result :=
  if s.slotOf addr = .reg .cmd then s.command v else .next (s.writeSlot v (s.slotOf addr))

/-! ## Power-on reset and the host's accesses -/

/-- Power-on reset (R190): every register and flag 0, every memory element unspecified again (a new draw). The
parameter BWT_CAP, the host's own buffer, the host's pending accesses and the word it last read are not the block's
(log entry 7). -/
def State.powerOnReset (s : State) : State :=
  { State.reset with
    bwtCap := s.bwtCap
    powerDraw := s.powerDraw + 1
    lent := s.lent
    bus := s.bus
    rdata := s.rdata }

/-- One aligned 32-bit word (R44). -/
def alignedWord (size : Nat) (addr : BitVec 28) : Bool :=
  decide (size = 4) && decide (addr.toNat % 4 = 0)

/-- Serve one host access (R7, R44, R46, R190). -/
def State.serve (s : State) : HostAccess → Result
  | .read size addr =>
    if alignedWord size addr then .next { s with rdata := s.hostRead addr } else .refused .notAlignedWord
  | .write size addr v =>
    if alignedWord size addr then s.hostWrite addr v else .refused .notAlignedWord
  | .lend buf => .next { s with lent := buf }
  | .powerOn => .next s.powerOnReset

/-- The next host access in program order (R50), served; with none pending the block is idle and nothing changes
(R190, R172; log entry 11). -/
def State.serveNext (s : State) : Result :=
  match s.bus with
  | [] => .next s
  | a :: rest => { s with bus := rest }.serve a

/-- The host's bus with a write of the command word `w` before everything else that is pending. -/
def State.queueCommand (s : State) (w : Word) : State :=
  { s with bus := .write 4 0 w :: s.bus }

end Sys2Proof.Machine
end

