-- ==== Sys2Proof/Machine/Step.lean ====
section
/-! DEFINITION. One step of the machine: the host's next access. -/

namespace Sys2Proof.Machine

/-- One step (R7): the next host access, a write to CMD running a whole command; idle when none is pending. -/
def step (s : State) : Host.Outcome State Fault Refusal := s.serveNext

/-- `s` with the command whose bits are `w` (bits at and above `nbits` zero) as the host's next write to CMD, the place
a command comes from (R60, R12; log entry 1). -/
def State.withFetchWord (s : State) (nbits w : Nat) : State :=
  s.queueCommand (BitVec.ofNat 32 (w % 2 ^ nbits))

end Sys2Proof.Machine
end

