-- ==== Sys2Proof/Machine/Assembler.lean ====
section
/-! DEFINITION. The assembler statements (30_encoding.md R66) and pseudo-instructions (R67) as the host accesses they
stand for (log entry 17). They add no behaviour: each is a list of accesses for the bus. -/

namespace Sys2Proof.Machine

/-- The word number of a mapped word of the host space (R45), the inverse of `slotAt`. -/
def Slot.wordNumber : Slot → Option Nat
  | .reg r => some (Reg.inOrder.idxOf r)
  | .usedWord k => some (0x40 + k)
  | .fav i => some (0x100 + i)
  | .base b => some (0x200 + b)
  | .len g i => some (0x1000 + 0x200 * g.val + i)
  | .tmin g => some (0x2000 + 0x400 * g.val)
  | .tmax g => some (0x2000 + 0x400 * g.val + 1)
  | .first g l => some (0x2000 + 0x400 * g.val + 0x40 + l)
  | .start g l => some (0x2000 + 0x400 * g.val + 0x80 + l)
  | .sym g i => some (0x2000 + 0x400 * g.val + 0x200 + i)
  | .sel i => some (0x8000 + i)
  | .bwt i => some (0x1000000 + i)
  | .lf i => some (0x2000000 + i)
  | .out i => some (0x3000000 + i)
  | .unmapped => none

/-- The byte address of a mapped word; the all-ones address, which is no word's, where nothing is mapped. -/
def Slot.addr (x : Slot) : BitVec 28 :=
  match x.wordNumber with
  | some w => BitVec.ofNat 28 (4 * w)
  | none => BitVec.allOnes 28

/-- The statements of R66. -/
inductive Stmt where
  /-- A command statement: HostWrite(0x000, word). -/
  | command (i : Instr)
  /-- `WR name, value` and `WR name[i], value`; `WR USEDW[k], v` is the word `usedWord k`. -/
  | wr (x : Slot) (v : Word)
  /-- `WR USED[b], v`: a read-modify-write of the containing word. -/
  | wrUsed (b : Nat) (v : Bool)
  /-- `RD name`, `RD name[i]`. -/
  | rd (x : Slot)
  deriving DecidableEq, Repr

/-- `w` with bit `j` set to `v`. -/
def setBit (w : Word) (j : Nat) (v : Bool) : Word :=
  if v then w ||| (1#32 <<< j) else w &&& ~~~(1#32 <<< j)

/-- The host accesses a statement stands for, issued in state `s` (R66). -/
def Stmt.accesses (s : State) : Stmt → List HostAccess
  | .command i => [.write 4 0 (encode i)]
  | .wr x v => [.write 4 x.addr v]
  | .wrUsed b v =>
    [.read 4 (Slot.usedWord (b / 32)).addr,
      .write 4 (Slot.usedWord (b / 32)).addr (setBit (s.usedWord (b / 32)) (b % 32) v)]
  | .rd x => [.read 4 x.addr]

/-- The pseudo-instructions of R67. -/
inductive Pseudo where
  | balign
  | bget32
  | bget48
  | bskip (k : Nat)
  deriving DecidableEq, Repr

/-- The expansions of R67, issued in state `s`: `RD POS` gives p = POS. -/
def Pseudo.statements (s : State) : Pseudo → List Stmt
  | .balign => [.rd (.reg .pos), .wr (.reg .opa) ((s.pos + 7) &&& ~~~7), .command .bseek]
  | .bget32 => [.command (.bcons 24), .rd (.reg .res0), .command (.bcons 8), .rd (.reg .res0)]
  | .bget48 => [.command (.bcons 24), .rd (.reg .res0), .command (.bcons 24), .rd (.reg .res0)]
  | .bskip k => [.rd (.reg .pos), .wr (.reg .opa) (s.pos + BitVec.ofNat 32 k), .command .bseek]

/-- BGET32's value from its two reads (R67). -/
def bget32Value (hi lo : Word) : Nat := hi.toNat <<< 8 + lo.toNat

/-- BGET48's value from its two reads (R67). -/
def bget48Value (hi lo : Word) : Nat := hi.toNat <<< 24 + lo.toNat

end Sys2Proof.Machine
end

