-- ==== Sys2Proof/Safety.lean ====
section
/-! DEFINITION. What a good state is: the invariants of 10_state.md R24, clause by clause, with what R101, R106, R140,
R141 and R19 add so that every index a command computes is in range; and what a good next access is (R44). -/

namespace Sys2Proof.Machine

/-- R24(a): POS <= LIMIT, and LIMIT is 8 times a byte count. -/
def State.CursorOk (s : State) : Prop :=
  s.pos.toNat ≤ s.limit.toNat ∧ s.limit.toNat % 8 = 0

/-- R24(b): BWTLEN + PEND <= BWT_CAP <= 2^24, with the parameter's range 1 <= BWT_CAP (R6). -/
def State.CapacityOk (s : State) : Prop :=
  1 ≤ s.bwtCap ∧ s.bwtCap ≤ 2 ^ 24 ∧ s.bwtlen.toNat + s.pend.toNat ≤ s.bwtCap

/-- R24(c): NFAV <= 256; SYMUSED = NFAV + 2 while FAVV = 1, else both 0. -/
def State.AlphabetOk (s : State) : Prop :=
  s.nfav.toNat ≤ Config.nfavMax ∧
    (s.favv = true → s.symused.toNat = s.nfav.toNat + 2) ∧
    (s.favv = false → s.symused = 0 ∧ s.nfav = 0)

/-- R24(d): CHUNKCNT <= 50 and SELIDX <= 32766. -/
def State.ChunkOk (s : State) : Prop :=
  s.chunkcnt.toNat ≤ Config.chunk ∧ s.selidx.toNat ≤ 32766

/-- R24(e): OUTV = 1 implies LFV = 1; CNTV = 1 implies LFV = 0 and OUTV = 0. -/
def State.InverseFlagsOk (s : State) : Prop :=
  (s.outv = true → s.lfv = true) ∧ (s.cntv = true → s.lfv = false ∧ s.outv = false)

/-- R24(f): FAULT = 0 implies ERR = 0 and ERRINFO = 0; FAULT = 1 implies ERR ≠ 0. -/
def State.FaultRecordOk (s : State) : Prop :=
  (s.fault = false → s.err = 0 ∧ s.errinfo = 0) ∧ (s.fault = true → s.err ≠ 0)

/-- R24(g): TBLV[g] = 1 implies FAVV = 1. -/
def State.TableFlagsOk (s : State) : Prop :=
  ∀ g : Fin 6, s.tblv[g] = true → s.favv = true

/-- R24(h): OUTLEN <= BWT_CAP; OUTLEN = BWTLEN when OUTV = 1. -/
def State.OutputOk (s : State) : Prop :=
  s.outlen.toNat ≤ s.bwtCap ∧ (s.outv = true → s.outlen = s.bwtlen)

/-- R24, all eight clauses. -/
structure State.SpecInv (s : State) : Prop where
  cursor : s.CursorOk
  capacity : s.CapacityOk
  alphabet : s.AlphabetOk
  chunk : s.ChunkOk
  inverseFlags : s.InverseFlagsOk
  faultRecord : s.FaultRecordOk
  tableFlags : s.TableFlagsOk
  output : s.OutputOk

/-- R123: POWER <= 25. -/
def State.PowerOk (s : State) : Prop := s.power.toNat ≤ 25

/-- R106(a): in a built table every lookup that returns gives a length in 1..20 and a symbol below SYMUSED, and no
index of the scan falls outside FIRST, START or SYM. -/
def State.TablesOk (s : State) : Prop :=
  ∀ g : Fin 6, s.tblv[g] = true → ∀ w : Nat, w < 2 ^ 24 →
    match s.lookup g w with
    | .hit l sym => 1 ≤ l ∧ l ≤ 20 ∧ sym < s.symused.toNat
    | .miss => True
    | .outside _ _ => False

/-- R140 (CNTV of R13): BASE holds the exclusive bucket bases of the current buffer. -/
def State.BasesOk (s : State) : Prop :=
  s.cntv = true → ∀ b : Nat, b < 256 → (s.baseAt b).toNat = countBelow s.bwtBytes b

/-- R141, R144(b): while LFV = 1 every LF entry of the buffer is an index of the buffer. -/
def State.MapOk (s : State) : Prop :=
  s.lfv = true → ∀ j : Nat, j < s.bwtlen.toNat → (s.lfAt j).toNat < s.bwtlen.toNat

/-- A table's memories are in canonical form and list only elements that R19 gives them. -/
structure HuffTable.MemoriesOk (t : HuffTable) : Prop where
  tmin : t.tmin.wf ∧ t.tmin.below 1
  tmax : t.tmax.wf ∧ t.tmax.below 1
  first : t.first.wf ∧ t.first.below 22 ∧ ∀ c ∈ t.first, 1 ≤ c.1
  start : t.start.wf ∧ t.start.below 22 ∧ ∀ c ∈ t.start, 1 ≤ c.1
  sym : t.sym.wf ∧ t.sym.below Config.symusedMax

/-- Every memory is in canonical form and lists only elements that R19 gives it. -/
structure State.MemoriesOk (s : State) : Prop where
  used : s.used.wf ∧ s.used.below 256
  len : ∀ g : Fin 6, s.len[g].wf ∧ s.len[g].below Config.symusedMax
  sel : s.sel.wf ∧ s.sel.below Config.selSize
  fav : s.fav.wf ∧ s.fav.below 256
  table : ∀ g : Fin 6, s.table[g].MemoriesOk
  base : s.base.wf ∧ s.base.below 256
  bwt : s.bwt.wf ∧ s.bwt.below s.bwtCap
  lf : s.lf.wf ∧ s.lf.below s.bwtCap
  out : s.out.wf ∧ s.out.below s.bwtCap

/-- The whole invariant: R24 and what makes every index of every command in range (R106, R128, R144). -/
structure State.Inv (s : State) : Prop where
  spec : s.SpecInv
  power : s.PowerOk
  tables : s.TablesOk
  bases : s.BasesOk
  map : s.MapOk
  memories : s.MemoriesOk

/-- R21, R128(a): while FAVV = 1 the favourites list holds NFAV distinct bytes. -/
def State.FavouritesDistinct (s : State) : Prop :=
  s.favv = true → ((List.range s.nfav.toNat).map s.favAt).Nodup

/-- The next host access, if any, is one the interface has (R44). -/
def State.nextAccessAligned (s : State) : Bool :=
  match s.bus with
  | .read size addr :: _ => alignedWord size addr
  | .write size addr _ :: _ => alignedWord size addr
  | .lend _ :: _ => true
  | .powerOn :: _ => true
  | [] => true

/-! ## Quantities the rules speak of -/

/-- cnt[l] (R100): the number of s in 0..SYMUSED-1 with LEN[g][s] = l. -/
def State.lenCount (s : State) (g : Fin 6) (l : Nat) : Nat :=
  (List.range s.symused.toNat).countP (fun i => (s.lenAt g i).toNat == l)

/-- The position of symbol `i` among the symbols of its own length (R100: the j of "the j-th symbol"). -/
def State.lenRank (s : State) (g : Fin 6) (i : Nat) : Nat :=
  (List.range i).countP (fun j => s.lenAt g j == s.lenAt g i)

/-- 2^24 times the Kraft sum of the lengths of group `g` (R100, R106(c)). -/
def State.kraft (s : State) (g : Fin 6) : Nat :=
  ((List.range s.symused.toNat).map (fun i => 2 ^ (24 - (s.lenAt g i).toNat))).sum

/-- All code lengths HBUILD g would read are in 1..20 (R102). -/
def State.LengthsLegal (s : State) (g : Fin 6) : Prop :=
  ∀ i, i < s.symused.toNat → 1 ≤ (s.lenAt g i).toNat ∧ (s.lenAt g i).toNat ≤ 20

/-- The number of byte values below `b` with USED = 1: the place MINIT gives `b` in the list (R121). -/
def State.usedRank (s : State) (b : Nat) : Nat :=
  (List.range b).countP (fun c => s.usedAt c == 1)

/-- The number of indices i in 0..BWTLEN-1 with BWT[i] below `b` (R140). -/
def State.bytesBelow (s : State) (b : Nat) : Nat :=
  (List.range s.bwtlen.toNat).countP (fun i => decide ((s.bwtAt i).toNat < b))

/-- The place of index `i` in the order of (BWT[i], i) (R141). -/
def State.sortedPlace (s : State) (i : Nat) : Nat :=
  s.bytesBelow (s.bwtAt i).toNat + (List.range i).countP (fun j => s.bwtAt j == s.bwtAt i)

/-- The walk pointer of R142 after `k` steps. -/
def State.pointerAfter (s : State) : Nat → Nat
  | 0 => s.origin.toNat
  | k + 1 => (s.lfAt (State.pointerAfter s k)).toNat

/-- The codes of R161 that the block can latch. -/
def blockErrorCodes : List (BitVec 8) := [1, 4, 5, 6, 7, 9, 16, 17, 18, 19, 20]

/-! ## The host map -/

/-- The element exists (R19, R45). -/
def Slot.inRange (cap : Nat) : Slot → Bool
  | .reg _ => true
  | .usedWord k => decide (k < 8)
  | .fav i => decide (i < 256)
  | .base b => decide (b < 256)
  | .len _ i => decide (i < 258)
  | .tmin _ => true
  | .tmax _ => true
  | .first _ l => decide (1 ≤ l) && decide (l ≤ 21)
  | .start _ l => decide (1 ≤ l) && decide (l ≤ 21)
  | .sym _ i => decide (i < 258)
  | .sel i => decide (i < 32768)
  | .bwt i => decide (i < cap)
  | .lf i => decide (i < cap)
  | .out i => decide (i < cap)
  | .unmapped => false

/-- The width of a word the host may write (R14 acc RW, R19 acc RW), 0 where it may not. CMD is no such word: a write to
it is a command. -/
def Slot.writableWidth : Slot → Nat
  | .reg .opa => 32
  | .reg .inlen => 29
  | .reg .ngroups => 3
  | .reg .nsel => 15
  | .reg .origin => 24
  | .reg .bwtlen => 25
  | .reg .cmd => 0
  | .reg .status => 0
  | .reg .errinfo => 0
  | .reg .res0 => 0
  | .reg .res1 => 0
  | .reg .pos => 0
  | .reg .limit => 0
  | .reg .symused => 0
  | .reg .nfav => 0
  | .reg .pend => 0
  | .reg .power => 0
  | .reg .selidx => 0
  | .reg .chunkcnt => 0
  | .reg .outlen => 0
  | .reg .walkptr => 0
  | .reg .blkidx => 0
  | .usedWord _ => 32
  | .len _ _ => 8
  | .sel _ => 3
  | .bwt _ => 8
  | .fav _ => 0
  | .base _ => 0
  | .tmin _ => 0
  | .tmax _ => 0
  | .first _ _ => 0
  | .start _ _ => 0
  | .sym _ _ => 0
  | .lf _ => 0
  | .out _ => 0
  | .unmapped => 0

end Sys2Proof.Machine
end

