-- ==== Sys2Proof/Certificates/Slice0/Obligations.lean ====
section
/-! DEFINITION. The statements for the provers. Each docstring says what is claimed; OBLIGATIONS.json gives the rules of
spec/ each formalises. -/

open Sys2Proof Sys2Proof.Machine

/-- For every command i whose operand is in the legal range of its format, decode (encode i) is i, for every operand
value the encoding admits. -/
def Obligations.DecodeOfEncode : Prop :=
  ∀ i : Instr, i.wf = true → decode (encode i) = .ok i

/-- For every 32-bit word w and command i: if w decodes to i then i is well-formed and encode i is w, so no bit of a
legal word is ignored. -/
def Obligations.EncodeOfDecode : Prop :=
  ∀ (w : Word) (i : Instr), decode w = .ok i → i.wf = true ∧ encode i = w

/-- For every word w and command i: w decodes to i if and only if (w & mask) = match for i's row, i's operand is the
field of w its format names, and that operand is in the legal range of the format. Any word that selects no row is
illegal. -/
def Obligations.RowSelectsWord : Prop :=
  ∀ (w : Word) (i : Instr),
    decode w = .ok i ↔ (w &&& i.mask = i.matchBits ∧ i.operandIs w = true ∧ i.wf = true)

/-- One word of each unit, and BPEEK, BCONS, HBUILD with edge operands, decode to the command of R63; words with n = 0,
n = 25, g = 6 and a nonzero Z operand do not decode. -/
def Obligations.SampleWordsDecode : Prop :=
  decode 0x01000000 = .ok .start ∧ decode 0x10000000 = .ok .bseek ∧ decode 0x11000001 = .ok (.bpeek 1) ∧
    decode 0x12000018 = .ok (.bcons 24) ∧ decode 0x20000005 = .ok (.hbuild 5) ∧ decode 0x33000000 = .ok .mblock ∧
    decode 0x43000000 = .ok .linv ∧ decode 0x12000000 = .error .bitCountOutOfRange ∧
    decode 0x12000019 = .error .bitCountOutOfRange ∧ decode 0x20000006 = .error .groupOutOfRange ∧
    decode 0x00000001 = .error .operandNotZero

/-- If the next host access is a 32-bit write of w to address 0 and w decodes to i, then the step is exec of i in the
state with that access taken off the bus, and nothing else. (The bus of host accesses is the model's own
convention, log entry 1.) -/
def Obligations.StepRunsDecodedCommand : Prop :=
  ∀ (s : State) (rest : List HostAccess) (w : Word) (i : Instr),
    s.bus = .write 4 0 w :: rest → decode w = .ok i → step s = exec i { s with bus := rest }

/-- Let w be a word that is the word of no well-formed command, written to CMD. When FAULT = 0 the step latches FAULT =
1, ERR = 20 and ERRINFO = w (its op byte and its arg) and changes nothing else; when FAULT = 1 it changes nothing. -/
def Obligations.IllegalWordRaises : Prop :=
  ∀ (s : State) (rest : List HostAccess) (w : Word),
    s.bus = .write 4 0 w :: rest → (∀ i : Instr, i.wf = true → encode i ≠ w) →
      (s.fault = false → step s = .next { s with bus := rest, fault := true, err := 20, errinfo := w }) ∧
      (s.fault = true → step s = .next { s with bus := rest })

/-- While FAULT = 1, any word other than 0x01000000 written to CMD, legal or illegal, changes no state (so neither ERR
nor ERRINFO); the word 0x01000000 runs START. -/
def Obligations.FailedIgnoresAllButStart : Prop :=
  ∀ (s : State) (rest : List HostAccess) (w : Word),
    s.bus = .write 4 0 w :: rest → s.fault = true →
      (w ≠ 0x01000000 → step s = .next { s with bus := rest }) ∧
      (w = 0x01000000 → step s = exec .start { s with bus := rest })

/-- For every state, FAULT = 0 or 1, exec of NOP answers the same state. -/
def Obligations.NopChangesNothing : Prop :=
  ∀ s : State, exec .nop s = .next s

/-- For every state, FAULT = 0 or 1, exec of START answers a next state with LIMIT = 8 × INLEN as a number (no wrap),
FAULT, ERR, ERRINFO, POS, RES0, RES1, BLKIDX zero, every flag 0, and NFAV, SYMUSED, BWTLEN, PEND, POWER, SELIDX,
CHUNKCNT, OUTLEN, WALKPTR zero; every other register and every memory is unchanged. Which buffer IN is for the new
call is not stated here. -/
def Obligations.StartBeginsCall : Prop :=
  ∀ s : State, ∃ t : State, exec .start s = .next t ∧ t.limit.toNat = 8 * s.inlen.toNat ∧
    t = { s with
      fault := false, err := 0, errinfo := 0, limit := t.limit, pos := 0, res0 := 0, res1 := 0, blkidx := 0
      input := t.input
      eobf := false, favv := false, cntv := false, lfv := false, outv := false
      tblv := Vector.replicate 6 false, nfav := 0, symused := 0, bwtlen := 0, pend := 0, power := 0
      selidx := 0, chunkcnt := 0, outlen := 0, walkptr := 0 }

/-- When FAULT = 0, exec of BLKEND answers the state with EOBF, FAVV, CNTV, LFV, OUTV, TBLV, NFAV, SYMUSED, BWTLEN,
PEND, POWER, SELIDX, CHUNKCNT, OUTLEN, WALKPTR zero and BLKIDX one more modulo 2^32; every other register and every
memory is unchanged. -/
def Obligations.BlkendDiscardsBlock : Prop :=
  ∀ s : State, s.fault = false → exec .blkend s = .next { s with
      eobf := false, favv := false, cntv := false, lfv := false, outv := false
      tblv := Vector.replicate 6 false, nfav := 0, symused := 0, bwtlen := 0, pend := 0, power := 0
      selidx := 0, chunkcnt := 0, outlen := 0, walkptr := 0, blkidx := s.blkidx + 1 }

/-- When FAULT = 0: if OPA <= LIMIT exec of BSEEK answers the state with POS = OPA and nothing else changed; if OPA >
LIMIT it latches FAULT, ERR = 1, ERRINFO = 0x10000000 and nothing else changes. -/
def Obligations.BseekSetsCursor : Prop :=
  ∀ s : State, s.fault = false →
    (s.opa.toNat ≤ s.limit.toNat → exec .bseek s = .next { s with pos := s.opa }) ∧
    (s.limit.toNat < s.opa.toNat →
      exec .bseek s = .next { s with fault := true, err := 1, errinfo := 0x10000000 })

/-- When FAULT = 0 and 1 <= n <= 24, exec of BPEEK n answers the state with RES0 = sum over k < n of inbit(POS + k) ×
2^(n - 1 - k) and RES1 = n; POS, every flag, every other register and every memory are unchanged, whatever remains
before LIMIT. -/
def Obligations.BpeekReadsAhead : Prop :=
  ∀ (s : State) (n : BitVec 5), s.fault = false → 1 ≤ n.toNat → n.toNat ≤ 24 →
    exec (.bpeek n) s = .next { s with
      res0 := BitVec.ofNat 32
        ((List.range n.toNat).map (fun k => s.inbit (s.pos.toNat + k) * 2 ^ (n.toNat - 1 - k))).sum
      res1 := n.setWidth 32 }

/-- For 1 <= n <= 24: peek(n) < 2^n; peek(n) = peek(24) >> (24 - n); if POS >= LIMIT then peek(n) = 0; if r = LIMIT -
POS bits remain and r < n then the low n - r bits of peek(n) are 0. -/
def Obligations.PeekIsZeroPaddedPrefix : Prop :=
  ∀ (s : State) (n : Nat), 1 ≤ n → n ≤ 24 →
    s.peek n < 2 ^ n ∧ s.peek n = s.peek 24 >>> (24 - n) ∧
    (s.limit.toNat ≤ s.pos.toNat → s.peek n = 0) ∧
    (∀ r : Nat, s.limit.toNat = s.pos.toNat + r → r < n → s.peek n % 2 ^ (n - r) = 0)

/-- When FAULT = 0 and 1 <= n <= 24: if POS + n <= LIMIT (no wrap), exec of BCONS n answers a next state with RES0 =
peek(n) at the old POS, RES1 = n and POS + n as a number, all else unchanged; if POS + n > LIMIT it latches FAULT,
ERR = 1, ERRINFO = 0x12 and n, all else unchanged. -/
def Obligations.BconsConsumes : Prop :=
  ∀ (s : State) (n : BitVec 5), s.fault = false → 1 ≤ n.toNat → n.toNat ≤ 24 →
    (s.pos.toNat + n.toNat ≤ s.limit.toNat → ∃ t : State, exec (.bcons n) s = .next t ∧
      t.res0.toNat = ((List.range n.toNat).map (fun k => s.inbit (s.pos.toNat + k) * 2 ^ (n.toNat - 1 - k))).sum ∧
      t.res1.toNat = n.toNat ∧ t.pos.toNat = s.pos.toNat + n.toNat ∧
      t = { s with res0 := t.res0, res1 := t.res1, pos := t.pos }) ∧
    (s.limit.toNat < s.pos.toNat + n.toNat →
      exec (.bcons n) s = .next { s with fault := true, err := 1, errinfo := 0x12#8 ++ n.setWidth 24 })

/-- When FAULT = 0 and POS = 8 i with the whole byte before LIMIT, exec of BCONS 8 answers the state with RES0 = IN[i],
RES1 = 8 and POS = 8 i + 8: most significant bit first, bytes ascending. (That the most significant bit of a byte
comes first is the spec's own choice, R41 D7, log entry 13.) -/
def Obligations.AlignedBconsReadsByte : Prop :=
  ∀ (s : State) (i : Nat), s.fault = false → s.pos.toNat = 8 * i → 8 * i + 8 ≤ s.limit.toNat →
    exec (.bcons 8) s = .next { s with
      res0 := (s.inByte i).setWidth 32, res1 := 8, pos := BitVec.ofNat 32 (8 * i + 8) }

/-- When FAULT = 0, FAVV = 1, g <= 5, 2 <= SYMUSED <= 258 and every LEN[g][s], s < SYMUSED, is in 1..20, exec of HBUILD
g answers a next state in which FIRST[g][1] = 0, FIRST[g][l+1] = 2 (FIRST[g][l] + cnt[l]), START[g][1] = 0,
START[g][l+1] = START[g][l] + cnt[l] for l = 1..20; SYM[g] at START[g][L[s]] + (rank of s in its length) is s;
TMIN[g] and TMAX[g] are the least and greatest length; TBLV[g] = 1. SYM[g] from SYMUSED on, the other tables and
flags, and everything else are unchanged. -/
def Obligations.HbuildBuildsCanonicalTable : Prop :=
  ∀ (s : State) (g : BitVec 3) (k : Fin 6), k.val = g.toNat → s.fault = false → s.favv = true →
    2 ≤ s.symused.toNat → s.symused.toNat ≤ 258 → s.LengthsLegal k →
    ∃ t : State, exec (.hbuild g) s = .next t ∧
      (t.firstAt k 1 = 0 ∧
        ∀ l, 1 ≤ l → l ≤ 20 → (t.firstAt k (l + 1)).toNat = ((t.firstAt k l).toNat + s.lenCount k l) * 2) ∧
      (t.startAt k 1 = 0 ∧
        ∀ l, 1 ≤ l → l ≤ 20 → (t.startAt k (l + 1)).toNat = (t.startAt k l).toNat + s.lenCount k l) ∧
      (∀ i, i < s.symused.toNat →
        (t.symAt k ((t.startAt k (s.lenAt k i).toNat).toNat + s.lenRank k i)).toNat = i) ∧
      ((∃ i, i < s.symused.toNat ∧ (t.tminOf k).toNat = (s.lenAt k i).toNat) ∧
        ∀ i, i < s.symused.toNat → (t.tminOf k).toNat ≤ (s.lenAt k i).toNat) ∧
      ((∃ i, i < s.symused.toNat ∧ (t.tmaxOf k).toNat = (s.lenAt k i).toNat) ∧
        ∀ i, i < s.symused.toNat → (s.lenAt k i).toNat ≤ (t.tmaxOf k).toNat) ∧
      (∀ i, s.symused.toNat ≤ i → t.symAt k i = s.symAt k i) ∧
      (∀ j : Fin 6, j ≠ k → t.table[j] = s.table[j] ∧ t.tblv[j] = s.tblv[j]) ∧
      t.tblv[k] = true ∧ t = { s with table := t.table, tblv := t.tblv }

/-- When FAULT = 0 and g <= 5: with FAVV = 0, exec of HBUILD g latches ERR = 19, detail 0; with FAVV = 1 and SYMUSED <=
258, if s is the least symbol below SYMUSED with LEN[g][s] outside 1..20, it latches ERR = 5, detail s. Nothing
else changes. -/
def Obligations.HbuildFaults : Prop :=
  ∀ (s : State) (g : BitVec 3) (k : Fin 6), k.val = g.toNat → s.fault = false →
    (s.favv = false → exec (.hbuild g) s = .next { s with fault := true, err := 19, errinfo := 0x20000000 }) ∧
    (∀ i, s.favv = true → s.symused.toNat ≤ 258 → i < s.symused.toNat →
      ((s.lenAt k i).toNat < 1 ∨ 20 < (s.lenAt k i).toNat) →
      (∀ j, j < i → 1 ≤ (s.lenAt k j).toNat ∧ (s.lenAt k j).toNat ≤ 20) →
      exec (.hbuild g) s = .next { s with fault := true, err := 5, errinfo := 0x20#8 ++ BitVec.ofNat 24 i })

/-- For a table with 1 <= TMIN and TMAX <= 20: if l is the least length in TMIN..TMAX with w < FIRST[l+1] << (23 - l),
FIRST[l] <= w >> (24 - l), and idx = START[l] + ((w >> (24 - l)) - FIRST[l]) is an index of SYM, the lookup returns
(l, SYM[idx]); if no length in TMIN..TMAX qualifies it returns none. -/
def Obligations.LookupTakesLeastLength : Prop :=
  ∀ (s : State) (k : Fin 6) (w : Nat), 1 ≤ (s.tminOf k).toNat → (s.tmaxOf k).toNat ≤ 20 →
    (∀ l, (s.tminOf k).toNat ≤ l → l ≤ (s.tmaxOf k).toNat →
      w < (s.firstAt k (l + 1)).toNat * 2 ^ (23 - l) →
      (∀ m, (s.tminOf k).toNat ≤ m → m < l → (s.firstAt k (m + 1)).toNat * 2 ^ (23 - m) ≤ w) →
      (s.firstAt k l).toNat ≤ w / 2 ^ (24 - l) →
      (s.startAt k l).toNat + (w / 2 ^ (24 - l) - (s.firstAt k l).toNat) ≤ 257 →
      s.lookup k w = .hit l
        (s.symAt k ((s.startAt k l).toNat + (w / 2 ^ (24 - l) - (s.firstAt k l).toNat))).toNat) ∧
    ((∀ l, (s.tminOf k).toNat ≤ l → l ≤ (s.tmaxOf k).toNat →
      (s.firstAt k (l + 1)).toNat * 2 ^ (23 - l) ≤ w) → s.lookup k w = .miss)

/-- When HBUILD g succeeds on legal lengths, then for every 24-bit window w: if w is at or above 2^24 × K, where K is
the Kraft sum of the lengths, the lookup returns none; if w is below it, the lookup returns (LEN[g][i], i) for some
symbol i < SYMUSED. So no index of the lookup is ever out of range. -/
def Obligations.BuiltTableDecodesBelowKraft : Prop :=
  ∀ (s t : State) (g : BitVec 3) (k : Fin 6), k.val = g.toNat → s.fault = false → s.favv = true →
    2 ≤ s.symused.toNat → s.symused.toNat ≤ 258 → s.LengthsLegal k → exec (.hbuild g) s = .next t →
    ∀ w, w < 2 ^ 24 →
      (s.kraft k ≤ w → t.lookup k w = .miss) ∧
      (w < s.kraft k → ∃ i, i < s.symused.toNat ∧ t.lookup k w = .hit (s.lenAt k i).toNat i)

/-- When HBUILD g succeeds on legal lengths with Kraft sum K <= 1, then for every symbol i < SYMUSED with length l and
code c = FIRST[g][l] + (rank of i in its length) and every 24-bit window w whose top l bits are c, the lookup
returns (l, i), whatever the low 24 - l bits are. -/
def Obligations.BuiltTableIsPrefixUnambiguous : Prop :=
  ∀ (s t : State) (g : BitVec 3) (k : Fin 6), k.val = g.toNat → s.fault = false → s.favv = true →
    2 ≤ s.symused.toNat → s.symused.toNat ≤ 258 → s.LengthsLegal k → s.kraft k ≤ 2 ^ 24 →
    exec (.hbuild g) s = .next t →
    ∀ i w, i < s.symused.toNat → w < 2 ^ 24 →
      w / 2 ^ (24 - (s.lenAt k i).toNat) = (t.firstAt k (s.lenAt k i).toNat).toNat + s.lenRank k i →
      t.lookup k w = .hit (s.lenAt k i).toNat i

/-- When FAULT = 0 and g <= 5, with w = OPA mod 2^24: TBLV[g] = 0 latches ERR = 19, detail 0; else a lookup of none
latches ERR = 16, detail w; else a lookup of (l, sym) gives RES0 = sym, RES1 = l. Nothing else changes, in
particular POS. -/
def Obligations.HlookLooksUpWindow : Prop :=
  ∀ (s : State) (g : BitVec 3) (k : Fin 6), k.val = g.toNat → s.fault = false →
    (s.tblv[k] = false → exec (.hlook g) s = .next { s with fault := true, err := 19, errinfo := 0x21000000 }) ∧
    (s.tblv[k] = true → s.lookup k (s.opa.toNat % 2 ^ 24) = .miss →
      exec (.hlook g) s = .next { s with
        fault := true, err := 16, errinfo := 0x21#8 ++ BitVec.ofNat 24 (s.opa.toNat % 2 ^ 24) }) ∧
    (∀ l sym, s.tblv[k] = true → s.lookup k (s.opa.toNat % 2 ^ 24) = .hit l sym →
      ∃ t : State, exec (.hlook g) s = .next t ∧ t.res0.toNat = sym ∧ t.res1.toNat = l ∧
        t = { s with res0 := t.res0, res1 := t.res1 })

/-- When FAULT = 0 and g <= 5, with w = peek(24): TBLV[g] = 0 latches ERR = 19; else a lookup of none latches ERR = 16,
detail w; else with (l, sym) found, POS + l > LIMIT latches ERR = 1, detail l; else POS advances by l without wrap,
RES0 = sym, RES1 = l. Nothing else changes. -/
def Obligations.HdecDecodesAtCursor : Prop :=
  ∀ (s : State) (g : BitVec 3) (k : Fin 6), k.val = g.toNat → s.fault = false →
    (s.tblv[k] = false → exec (.hdec g) s = .next { s with fault := true, err := 19, errinfo := 0x22000000 }) ∧
    (s.tblv[k] = true → s.lookup k (s.peek 24) = .miss →
      exec (.hdec g) s = .next { s with fault := true, err := 16, errinfo := 0x22#8 ++ BitVec.ofNat 24 (s.peek 24) }) ∧
    (∀ l sym, s.tblv[k] = true → s.lookup k (s.peek 24) = .hit l sym → s.limit.toNat < s.pos.toNat + l →
      exec (.hdec g) s = .next { s with fault := true, err := 1, errinfo := 0x22#8 ++ BitVec.ofNat 24 l }) ∧
    (∀ l sym, s.tblv[k] = true → s.lookup k (s.peek 24) = .hit l sym → s.pos.toNat + l ≤ s.limit.toNat →
      ∃ t : State, exec (.hdec g) s = .next t ∧ t.pos.toNat = s.pos.toNat + l ∧ t.res0.toNat = sym ∧
        t.res1.toNat = l ∧ t = { s with pos := t.pos, res0 := t.res0, res1 := t.res1 })

/-- When FAULT = 0, exec of MINIT answers a next state with NFAV = the number of USED bits set, SYMUSED = NFAV + 2,
each used byte b at the place in FAV that counts the used bytes below it, FAV from NFAV on unchanged, FAVV = 1, and
EOBF, CNTV, LFV, OUTV, TBLV, PEND, POWER, BWTLEN, SELIDX, CHUNKCNT zero; all else is unchanged. (That the order is
ascending is the spec's own choice, R121 D9, log entry 13.) -/
def Obligations.MinitListsUsedBytes : Prop :=
  ∀ s : State, s.fault = false → ∃ t : State, exec .minit s = .next t ∧
    t.nfav.toNat = s.usedRank 256 ∧ t.symused.toNat = s.usedRank 256 + 2 ∧
    (∀ b, b < 256 → s.usedAt b = 1 → t.favAt (s.usedRank b) = BitVec.ofNat 8 b) ∧
    (∀ j, s.usedRank 256 ≤ j → t.favAt j = s.favAt j) ∧
    t = { s with
      fav := t.fav, nfav := t.nfav, symused := t.symused, pend := 0, power := 0, bwtlen := 0, selidx := 0
      chunkcnt := 0, eobf := false, favv := true, cntv := false, lfv := false, outv := false
      tblv := Vector.replicate 6 false }

/-- When FAULT = 0, FAVV = 1, EOBF = 0, c = OPA is 0 or 1 and below SYMUSED, and BWTLEN + PEND + 2^(POWER + c) <=
BWT_CAP <= 2^24, exec of MSYM answers a next state with PEND + 2^(POWER + c) and POWER + 1 as numbers and CNTV,
LFV, OUTV cleared; all else is unchanged. -/
def Obligations.MsymAccumulatesRun : Prop :=
  ∀ s : State, s.fault = false → s.favv = true → s.eobf = false → s.opa.toNat ≤ 1 →
    s.opa.toNat < s.symused.toNat → s.bwtCap ≤ 2 ^ 24 →
    s.bwtlen.toNat + s.pend.toNat + 2 ^ (s.power.toNat + s.opa.toNat) ≤ s.bwtCap →
    ∃ t : State, exec .msym s = .next t ∧
      t.pend.toNat = s.pend.toNat + 2 ^ (s.power.toNat + s.opa.toNat) ∧ t.power.toNat = s.power.toNat + 1 ∧
      t = { s with pend := t.pend, power := t.power, cntv := false, lfv := false, outv := false }

/-- When FAULT = 0, FAVV = 1, EOBF = 0, SYMUSED <= 258, c = OPA is in 2..SYMUSED-2, and BWTLEN + PEND + 1 <= BWT_CAP <=
2^24, exec of MSYM answers a next state with BWT at BWTLEN..BWTLEN+PEND-1 = FAV[0], BWT at BWTLEN+PEND = FAV[c-1],
every other BWT element unchanged, BWTLEN + PEND + 1 as a number, FAV[0] = the old FAV[c-1], FAV[j] = the old
FAV[j-1] for j = 1..c-1, FAV from c on unchanged, PEND, POWER, CNTV, LFV, OUTV zero; all else is unchanged. -/
def Obligations.MsymEmitsLiteral : Prop :=
  ∀ s : State, s.fault = false → s.favv = true → s.eobf = false → 2 ≤ s.opa.toNat →
    s.opa.toNat + 1 < s.symused.toNat → s.symused.toNat ≤ 258 → s.bwtCap ≤ 2 ^ 24 →
    s.bwtlen.toNat + s.pend.toNat + 1 ≤ s.bwtCap →
    ∃ t : State, exec .msym s = .next t ∧
      (∀ i, i < s.pend.toNat → t.bwtAt (s.bwtlen.toNat + i) = s.favAt 0) ∧
      t.bwtAt (s.bwtlen.toNat + s.pend.toNat) = s.favAt (s.opa.toNat - 1) ∧
      (∀ i, (i < s.bwtlen.toNat ∨ s.bwtlen.toNat + s.pend.toNat < i) → t.bwtAt i = s.bwtAt i) ∧
      t.bwtlen.toNat = s.bwtlen.toNat + s.pend.toNat + 1 ∧
      t.favAt 0 = s.favAt (s.opa.toNat - 1) ∧
      (∀ j, 1 ≤ j → j < s.opa.toNat → t.favAt j = s.favAt (j - 1)) ∧
      (∀ j, s.opa.toNat ≤ j → t.favAt j = s.favAt j) ∧
      t = { s with
        bwt := t.bwt, bwtlen := t.bwtlen, fav := t.fav, pend := 0, power := 0
        cntv := false, lfv := false, outv := false }

/-- When FAULT = 0, FAVV = 1, EOBF = 0, c = OPA >= 2 is SYMUSED - 1, and BWTLEN + PEND <= BWT_CAP <= 2^24, exec of MSYM
answers a next state with BWT at BWTLEN..BWTLEN+PEND-1 = FAV[0], every other BWT element unchanged, BWTLEN + PEND
as a number, EOBF = 1, PEND, POWER, CNTV, LFV, OUTV zero; all else, FAV too, is unchanged. -/
def Obligations.MsymEndsBlock : Prop :=
  ∀ s : State, s.fault = false → s.favv = true → s.eobf = false → 2 ≤ s.opa.toNat →
    s.opa.toNat + 1 = s.symused.toNat → s.bwtCap ≤ 2 ^ 24 → s.bwtlen.toNat + s.pend.toNat ≤ s.bwtCap →
    ∃ t : State, exec .msym s = .next t ∧
      (∀ i, i < s.pend.toNat → t.bwtAt (s.bwtlen.toNat + i) = s.favAt 0) ∧
      (∀ i, (i < s.bwtlen.toNat ∨ s.bwtlen.toNat + s.pend.toNat ≤ i) → t.bwtAt i = s.bwtAt i) ∧
      t.bwtlen.toNat = s.bwtlen.toNat + s.pend.toNat ∧
      t = { s with
        bwt := t.bwt, bwtlen := t.bwtlen, eobf := true, pend := 0, power := 0
        cntv := false, lfv := false, outv := false }

/-- When FAULT = 0, with c = OPA: FAVV = 0 or EOBF = 1 latches ERR = 19; else c >= SYMUSED latches ERR = 17 with detail
OPA[23:0]; else c <= 1 with BWTLEN + PEND + 2^(POWER + c) > BWT_CAP, or 2 <= c <= SYMUSED - 2 with BWTLEN + PEND +
1 > BWT_CAP, latches ERR = 18. Nothing else changes. -/
def Obligations.MsymFaults : Prop :=
  ∀ s : State, s.fault = false →
    ((s.favv = false ∨ s.eobf = true) →
      exec .msym s = .next { s with fault := true, err := 19, errinfo := 0x31000000 }) ∧
    (s.favv = true → s.eobf = false → s.symused.toNat ≤ s.opa.toNat →
      exec .msym s = .next { s with fault := true, err := 17, errinfo := 0x31#8 ++ s.opa.setWidth 24 }) ∧
    (s.favv = true → s.eobf = false → s.opa.toNat < s.symused.toNat → s.opa.toNat ≤ 1 →
      s.bwtCap < s.bwtlen.toNat + s.pend.toNat + 2 ^ (s.power.toNat + s.opa.toNat) →
      exec .msym s = .next { s with fault := true, err := 18, errinfo := 0x31000000 }) ∧
    (s.favv = true → s.eobf = false → 2 ≤ s.opa.toNat → s.opa.toNat + 1 < s.symused.toNat →
      s.bwtCap < s.bwtlen.toNat + s.pend.toNat + 1 →
      exec .msym s = .next { s with fault := true, err := 18, errinfo := 0x31000000 })

/-- When FAULT = 0 and every check of R126 passes, with i = SELIDX + 1 if CHUNKCNT = 50 else SELIDX, g = SEL[i] and (l,
sym) the lookup of peek(24) in table g, exec of MSTEP answers the state that MSYM's operation with c = sym gives
from the state with POS + l (as a number), SELIDX = i, CHUNKCNT = (0 if it was 50) + 1, RES0 = sym, RES1 = l and
all else as before. -/
def Obligations.MstepCommitsOneSymbol : Prop :=
  ∀ (s : State) (i l sym : Nat) (g : Fin 6), s.fault = false → s.favv = true → s.eobf = false →
    2 ≤ s.ngroups.toNat → s.ngroups.toNat ≤ 6 →
    i = (if s.chunkcnt = 50 then s.selidx.toNat + 1 else s.selidx.toNat) → i < s.nsel.toNat →
    g.val = (s.selAt i).toNat → g.val < s.ngroups.toNat → s.tblv[g] = true →
    s.lookup g (s.peek 24) = .hit l sym → s.pos.toNat + l ≤ s.limit.toNat →
    s.symFault sym = none → s.symOutside sym = none →
    ∃ u : State, exec .mstep s = .next (u.symApply sym) ∧ u.pos.toNat = s.pos.toNat + l ∧ u.selidx.toNat = i ∧
      u.chunkcnt = (if s.chunkcnt = 50 then 1 else s.chunkcnt + 1) ∧ u.res0.toNat = sym ∧ u.res1.toNat = l ∧
      u = { s with pos := u.pos, selidx := u.selidx, chunkcnt := u.chunkcnt, res0 := u.res0, res1 := u.res1 }

/-- When FAULT = 0, with i = SELIDX + 1 if CHUNKCNT = 50 else SELIDX: (1) FAVV = 0 or EOBF = 1: ERR = 19; else (2)
NGROUPS outside 2..6: ERR = 4, detail NGROUPS; else (3) i >= NSEL: ERR = 7, detail i; else (4) SEL[i] >= NGROUPS:
ERR = 6, detail i; else (5) TBLV[SEL[i]] = 0: ERR = 19; else (6) no lookup: ERR = 16, detail the window; else (7)
POS + l > LIMIT: ERR = 1, detail l; else (8) a run code or literal past BWT_CAP: ERR = 18. Each with opcode byte
0x32 and nothing else changed. -/
def Obligations.MstepFaults : Prop :=
  ∀ (s : State) (i : Nat), s.fault = false →
    i = (if s.chunkcnt = 50 then s.selidx.toNat + 1 else s.selidx.toNat) →
    ((s.favv = false ∨ s.eobf = true) →
      exec .mstep s = .next { s with fault := true, err := 19, errinfo := 0x32000000 }) ∧
    (s.favv = true → s.eobf = false →
      ((s.ngroups.toNat < 2 ∨ 6 < s.ngroups.toNat) →
        exec .mstep s = .next { s with fault := true, err := 4, errinfo := 0x32#8 ++ s.ngroups.setWidth 24 }) ∧
      (2 ≤ s.ngroups.toNat → s.ngroups.toNat ≤ 6 →
        (s.nsel.toNat ≤ i →
          exec .mstep s = .next { s with fault := true, err := 7, errinfo := 0x32#8 ++ BitVec.ofNat 24 i }) ∧
        (i < s.nsel.toNat → s.ngroups.toNat ≤ (s.selAt i).toNat →
          exec .mstep s = .next { s with fault := true, err := 6, errinfo := 0x32#8 ++ BitVec.ofNat 24 i }) ∧
        (∀ g : Fin 6, i < s.nsel.toNat → g.val = (s.selAt i).toNat → g.val < s.ngroups.toNat →
          (s.tblv[g] = false → exec .mstep s = .next { s with fault := true, err := 19, errinfo := 0x32000000 }) ∧
          (s.tblv[g] = true → s.lookup g (s.peek 24) = .miss →
            exec .mstep s = .next { s with
              fault := true, err := 16, errinfo := 0x32#8 ++ BitVec.ofNat 24 (s.peek 24) }) ∧
          (∀ l sym, s.tblv[g] = true → s.lookup g (s.peek 24) = .hit l sym →
            (s.limit.toNat < s.pos.toNat + l →
              exec .mstep s = .next { s with fault := true, err := 1, errinfo := 0x32#8 ++ BitVec.ofNat 24 l }) ∧
            (s.pos.toNat + l ≤ s.limit.toNat → sym < s.symused.toNat →
              ((sym ≤ 1 ∧ s.bwtCap < s.bwtlen.toNat + s.pend.toNat + 2 ^ (s.power.toNat + sym)) ∨
                (2 ≤ sym ∧ sym + 1 < s.symused.toNat ∧ s.bwtCap < s.bwtlen.toNat + s.pend.toNat + 1)) →
              exec .mstep s = .next { s with fault := true, err := 18, errinfo := 0x32000000 })))))

/-- When FAULT = 0 and checks (1) to (5) of R126 pass for selector index i and group g: if HDEC g completes without a
fault in state u, and MSYM completes without a fault from u with OPA = RES0, in state v, then MSTEP completes in v
with OPA as before, SELIDX = i and CHUNKCNT counted. -/
def Obligations.MstepIsHdecThenMsym : Prop :=
  ∀ (s u v : State) (i : Nat) (g : BitVec 3) (k : Fin 6), k.val = g.toNat →
    s.fault = false → s.favv = true → s.eobf = false → 2 ≤ s.ngroups.toNat → s.ngroups.toNat ≤ 6 →
    i = (if s.chunkcnt = 50 then s.selidx.toNat + 1 else s.selidx.toNat) → i < s.nsel.toNat →
    s.selAt i = g → g.toNat < s.ngroups.toNat → s.tblv[k] = true →
    exec (.hdec g) s = .next u → u.fault = false →
    exec .msym { u with opa := u.res0 } = .next v → v.fault = false →
    exec .mstep s = .next { v with
      opa := s.opa, selidx := BitVec.ofNat 15 i, chunkcnt := if s.chunkcnt = 50 then 1 else s.chunkcnt + 1 }

/-- When FAULT = 0 and the checks of R126 pass for a symbol at the cursor that is the end-of-block code SYMUSED - 1 >=
2 of length l, with BWTLEN + PEND <= BWT_CAP <= 2^24, exec of MBLOCK answers a next state with EOBF = 1, POS + l,
RES0 = SYMUSED - 1, RES1 = l, PEND = POWER = 0, BWTLEN + PEND bytes of which the flushed ones are FAV[0], CNTV,
LFV, OUTV cleared, and all else but SELIDX and CHUNKCNT unchanged. -/
def Obligations.MblockStopsAtEndOfBlock : Prop :=
  ∀ (s : State) (i l sym : Nat) (g : Fin 6), s.fault = false → s.favv = true → s.eobf = false →
    2 ≤ s.ngroups.toNat → s.ngroups.toNat ≤ 6 →
    i = (if s.chunkcnt = 50 then s.selidx.toNat + 1 else s.selidx.toNat) → i < s.nsel.toNat →
    g.val = (s.selAt i).toNat → g.val < s.ngroups.toNat → s.tblv[g] = true →
    s.lookup g (s.peek 24) = .hit l sym → s.pos.toNat + l ≤ s.limit.toNat → 2 ≤ sym →
    sym + 1 = s.symused.toNat → s.bwtCap ≤ 2 ^ 24 → s.bwtlen.toNat + s.pend.toNat ≤ s.bwtCap →
    ∃ t : State, exec .mblock s = .next t ∧ t.pos.toNat = s.pos.toNat + l ∧ t.res0.toNat = sym ∧
      t.res1.toNat = l ∧ t.bwtlen.toNat = s.bwtlen.toNat + s.pend.toNat ∧ t.selidx.toNat = i ∧
      t.chunkcnt = (if s.chunkcnt = 50 then 1 else s.chunkcnt + 1) ∧
      (∀ j, j < s.pend.toNat → t.bwtAt (s.bwtlen.toNat + j) = s.favAt 0) ∧
      (∀ j, (j < s.bwtlen.toNat ∨ s.bwtlen.toNat + s.pend.toNat ≤ j) → t.bwtAt j = s.bwtAt j) ∧
      t = { s with
        pos := t.pos, res0 := t.res0, res1 := t.res1, bwt := t.bwt, bwtlen := t.bwtlen, selidx := t.selidx
        chunkcnt := t.chunkcnt, eobf := true, pend := 0, power := 0, cntv := false, lfv := false, outv := false }

/-- For every state with FAULT = 0. If MSTEP completes without a fault and EOBF is still 0, MBLOCK answers exactly what
MBLOCK answers from the state MSTEP left. If MSTEP completes with EOBF = 1, MBLOCK answers that state. If MSTEP
raises a fault, MBLOCK answers the state MSTEP left but for ERRINFO[31:24] = 0x33: the same ERR and detail, and
nothing else changed. Where the model's MSTEP stops with a machine fault (log entry 9), MBLOCK stops with the same
one. So MBLOCK is the repetition of MSTEP whatever bound the model's loop uses. -/
def Obligations.MblockContinuesAfterMstep : Prop :=
  ∀ s : State, s.fault = false →
    (∀ t : State, exec .mstep s = .next t →
      (t.fault = false → t.eobf = false → exec .mblock s = exec .mblock t) ∧
      (t.fault = false → t.eobf = true → exec .mblock s = .next t) ∧
      (t.fault = true → exec .mblock s = .next { t with errinfo := 0x33#8 ++ t.errinfo.extractLsb' 0 24 })) ∧
    (∀ f : Fault, exec .mstep s = .fault f → exec .mblock s = .fault f)

/-- For every state: MBLOCK does not stop for running past the model's loop bound; and if FAULT = 0 and it answers a
next state, that state has EOBF = 1 or FAULT = 1. -/
def Obligations.MblockAlwaysTerminates : Prop :=
  ∀ s : State, exec .mblock s ≠ .fault .blockRunsOn ∧
    ∀ t : State, s.fault = false → exec .mblock s = .next t → (t.eobf = true ∨ t.fault = true)

/-- When FAULT = 0 and BWTLEN <= BWT_CAP <= 2^24, exec of LCOUNT answers a next state with BASE[b] = the number of i <
BWTLEN with BWT[i] < b for b = 0..255, CNTV = 1, LFV = OUTV = 0, and all else unchanged, PEND too. -/
def Obligations.LcountSetsBases : Prop :=
  ∀ s : State, s.fault = false → s.bwtlen.toNat ≤ s.bwtCap → s.bwtCap ≤ 2 ^ 24 →
    ∃ t : State, exec .lcount s = .next t ∧ (∀ b, b < 256 → (t.baseAt b).toNat = s.bytesBelow b) ∧
      t = { s with base := t.base, cntv := true, lfv := false, outv := false }

/-- When FAULT = 0, CNTV = 1, BWTLEN <= BWT_CAP <= 2^24 and BASE holds the exclusive bases, exec of LMAP answers a next
state in which, for every i < BWTLEN, LF at the place of i in the order of (BWT[i], i) is i; LF from BWTLEN on is
unchanged; BASE[b] is the number of buffer bytes with value <= b; CNTV = OUTV = 0, LFV = 1; all else is unchanged. -/
def Obligations.LmapSortsIndices : Prop :=
  ∀ s : State, s.fault = false → s.cntv = true → s.bwtlen.toNat ≤ s.bwtCap → s.bwtCap ≤ 2 ^ 24 →
    (∀ b, b < 256 → (s.baseAt b).toNat = s.bytesBelow b) →
    ∃ t : State, exec .lmap s = .next t ∧
      (∀ i, i < s.bwtlen.toNat → (t.lfAt (s.sortedPlace i)).toNat = i) ∧
      (∀ j, s.bwtlen.toNat ≤ j → t.lfAt j = s.lfAt j) ∧
      (∀ b, b < 256 → (t.baseAt b).toNat = s.bytesBelow (b + 1)) ∧
      t = { s with lf := t.lf, base := t.base, cntv := false, lfv := true, outv := false }

/-- When FAULT = 0: LMAP with CNTV = 0 latches ERR = 19; LWALK with LFV = 0 latches ERR = 19, and with LFV = 1 and
ORIGIN >= BWTLEN latches ERR = 9, detail ORIGIN; LINV with ORIGIN >= BWTLEN latches ERR = 9, detail ORIGIN. Nothing
else changes. -/
def Obligations.LfuSequenceAndOriginFaults : Prop :=
  ∀ s : State, s.fault = false →
    (s.cntv = false → exec .lmap s = .next { s with fault := true, err := 19, errinfo := 0x41000000 }) ∧
    (s.lfv = false → exec .lwalk s = .next { s with fault := true, err := 19, errinfo := 0x42000000 }) ∧
    (s.lfv = true → s.bwtlen.toNat ≤ s.origin.toNat →
      exec .lwalk s = .next { s with fault := true, err := 9, errinfo := 0x42#8 ++ s.origin }) ∧
    (s.bwtlen.toNat ≤ s.origin.toNat →
      exec .linv s = .next { s with fault := true, err := 9, errinfo := 0x43#8 ++ s.origin })

/-- When FAULT = 0, LFV = 1, ORIGIN < BWTLEN <= BWT_CAP and every LF entry of the buffer is an index of the buffer,
exec of LWALK answers a next state with OUT[k] = BWT[p(k+1)] for k < BWTLEN, where p(0) = ORIGIN and p(k+1) =
LF[p(k)]; OUT from BWTLEN on unchanged; OUTLEN = BWTLEN, WALKPTR = p(BWTLEN), OUTV = 1; all else unchanged. -/
def Obligations.LwalkWalksFromOrigin : Prop :=
  ∀ s : State, s.fault = false → s.lfv = true → s.origin.toNat < s.bwtlen.toNat → s.bwtlen.toNat ≤ s.bwtCap →
    (∀ j, j < s.bwtlen.toNat → (s.lfAt j).toNat < s.bwtlen.toNat) →
    ∃ t : State, exec .lwalk s = .next t ∧
      (∀ k, k < s.bwtlen.toNat → t.outAt k = s.bwtAt (s.pointerAfter (k + 1))) ∧
      (∀ k, s.bwtlen.toNat ≤ k → t.outAt k = s.outAt k) ∧
      t.walkptr.toNat = s.pointerAfter s.bwtlen.toNat ∧
      t = { s with out := t.out, outlen := s.bwtlen, walkptr := t.walkptr, outv := true }

/-- When FAULT = 0 and ORIGIN < BWTLEN <= BWT_CAP <= 2^24, whatever BASE and LF hold, exec of LINV answers a next state
in which LF holds the indices sorted by (BWT[i], i), OUT[k] = BWT[p(k+1)] for the walk p of that LF from ORIGIN,
OUTLEN = BWTLEN, WALKPTR = p(BWTLEN), CNTV = 0, LFV = OUTV = 1; BASE, LF, OUT aside, all else is unchanged, and LF
and OUT from BWTLEN on are unchanged. -/
def Obligations.LinvInvertsBuffer : Prop :=
  ∀ s : State, s.fault = false → s.origin.toNat < s.bwtlen.toNat → s.bwtlen.toNat ≤ s.bwtCap → s.bwtCap ≤ 2 ^ 24 →
    ∃ t : State, exec .linv s = .next t ∧
      (∀ i, i < s.bwtlen.toNat → (t.lfAt (s.sortedPlace i)).toNat = i) ∧
      (∀ j, j < s.bwtlen.toNat → (t.lfAt j).toNat < s.bwtlen.toNat) ∧
      (∀ k, k < s.bwtlen.toNat → t.outAt k = s.bwtAt (t.pointerAfter (k + 1))) ∧
      (∀ k, s.bwtlen.toNat ≤ k → t.lfAt k = s.lfAt k ∧ t.outAt k = s.outAt k) ∧
      t.walkptr.toNat = t.pointerAfter s.bwtlen.toNat ∧
      t = { s with
        base := t.base, lf := t.lf, out := t.out, outlen := s.bwtlen, walkptr := t.walkptr
        cntv := false, lfv := true, outv := true }

/-- When FAULT = 0 and ORIGIN < BWTLEN, exec of LINV answers what exec of LCOUNT, then LMAP, then LWALK answers; no
Sequence fault arises inside. -/
def Obligations.LinvIsThreePhases : Prop :=
  ∀ s : State, s.fault = false → s.origin.toNat < s.bwtlen.toNat →
    exec .linv s = Result.andThen (exec .lcount s) fun a => Result.andThen (exec .lmap a) (exec .lwalk)

/-- Take two states with FAULT = 0, the same BWTLEN and ORIGIN < BWTLEN within each one's BWT_CAP <= 2^24, and equal
BWT[0..BWTLEN-1], whatever else differs. If LINV completes in both, OUT[0..BWTLEN-1] and WALKPTR are equal. -/
def Obligations.LinvOutputDependsOnBufferOnly : Prop :=
  ∀ s s' t t' : State, s.fault = false → s'.fault = false → s.bwtlen = s'.bwtlen → s.origin = s'.origin →
    s.origin.toNat < s.bwtlen.toNat → s.bwtlen.toNat ≤ s.bwtCap → s'.bwtlen.toNat ≤ s'.bwtCap →
    s.bwtCap ≤ 2 ^ 24 → s'.bwtCap ≤ 2 ^ 24 → (∀ i, i < s.bwtlen.toNat → s.bwtAt i = s'.bwtAt i) →
    exec .linv s = .next t → exec .linv s' = .next t' →
    (∀ k, k < s.bwtlen.toNat → t.outAt k = t'.outAt k) ∧ t.walkptr = t'.walkptr

/-- For every command and every state with FAULT = 0: if the command answers a state with FAULT = 1, then ERR is one of
the codes R161 lets the block raise and ERRINFO[31:24] is the command's opcode byte, MBLOCK's too; and for every
command but MBLOCK that state differs from the one before in FAULT, ERR and ERRINFO only. (What a faulting MBLOCK
leaves is MblockContinuesAfterMstep.) -/
def Obligations.FaultsArePrecise : Prop :=
  ∀ (i : Instr) (s t : State), s.fault = false → exec i s = .next t → t.fault = true →
    t.err ∈ blockErrorCodes ∧ t.errinfo.extractLsb' 24 8 = i.op ∧
      (i ≠ .mblock → t = { s with fault := true, err := t.err, errinfo := t.errinfo })

/-- Whatever command runs in whatever state, if it answers a next state then OPA, INLEN, NGROUPS, NSEL, ORIGIN, USED,
LEN and SEL, the parameter BWT_CAP, and the model's own fields (the lent buffer, the draw, the pending accesses,
the word last read) are as before. -/
def Obligations.CommandsKeepHostState : Prop :=
  ∀ (i : Instr) (s t : State), exec i s = .next t →
    t.opa = s.opa ∧ t.inlen = s.inlen ∧ t.ngroups = s.ngroups ∧ t.nsel = s.nsel ∧ t.origin = s.origin ∧
      t.used = s.used ∧ t.len = s.len ∧ t.sel = s.sel ∧ t.bwtCap = s.bwtCap ∧ t.lent = s.lent ∧
      t.powerDraw = s.powerDraw ∧ t.bus = s.bus ∧ t.rdata = s.rdata

/-- Whatever the state: POS changes only under START, BSEEK, BCONS, HDEC, MSTEP, MBLOCK; LIMIT and IN only under START;
BLKIDX only under START and BLKEND; the tables only under HBUILD; FAV only under MINIT, MSYM, MSTEP, MBLOCK; BWT
only under MSYM, MSTEP, MBLOCK; BASE only under LCOUNT, LMAP, LINV; LF only under LMAP, LINV; OUT only under LWALK,
LINV. START always answers a next state, whose IN is the lent buffer. A step that serves the host's lending of a
buffer changes the model's field lent, takes the event off the bus and changes nothing else. A step that serves
neither the START word nor the power-on reset leaves IN as it was. (The lent buffer and the power-on event are the
model's choices, log entries 3 and 7.) -/
def Obligations.OnlyTheseCommandsWrite : Prop :=
  (∀ (i : Instr) (s t : State), exec i s = .next t →
    ((∀ n, i ≠ .bcons n) → (∀ g, i ≠ .hdec g) → i ∉ [Instr.start, .bseek, .mstep, .mblock] → t.pos = s.pos) ∧
    (i ≠ .start → t.limit = s.limit ∧ t.input = s.input) ∧ (i = .start → t.input = s.lent) ∧
    (i ∉ [Instr.start, .blkend] → t.blkidx = s.blkidx) ∧
    ((∀ g, i ≠ .hbuild g) → t.table = s.table) ∧
    (i ∉ [Instr.minit, .msym, .mstep, .mblock] → t.fav = s.fav) ∧
    (i ∉ [Instr.msym, .mstep, .mblock] → t.bwt = s.bwt) ∧
    (i ∉ [Instr.lcount, .lmap, .linv] → t.base = s.base) ∧
    (i ∉ [Instr.lmap, .linv] → t.lf = s.lf) ∧ (i ∉ [Instr.lwalk, .linv] → t.out = s.out)) ∧
  (∀ s : State, ∃ t : State, exec .start s = .next t ∧ t.input = s.lent) ∧
  (∀ (s : State) (rest : List HostAccess) (buf : InputBuffer), s.bus = .lend buf :: rest →
    step s = .next { s with bus := rest, lent := buf }) ∧
  (∀ s t : State, step s = .next t → (∀ rest : List HostAccess, s.bus ≠ .write 4 0 0x01000000 :: rest) →
    (∀ rest : List HostAccess, s.bus ≠ .powerOn :: rest) → t.input = s.input)

/-- Take a step from a state with FAULT = 1 to a next state. If FAULT is 0 after it, the step served a 32-bit write of
0x01000000 to address 0, or the power-on reset input. If FAULT is still 1, ERR and ERRINFO are as before. If the
step served that START word, FAULT = ERR = ERRINFO = 0, POS = 0, and discarding the block (R83) would change
nothing. If it served the power-on reset, FAULT = 0. -/
def Obligations.OnlyStartLeavesFailed : Prop :=
  ∀ s t : State, s.fault = true → step s = .next t →
    (t.fault = false →
      ∃ rest : List HostAccess, s.bus = .write 4 0 0x01000000 :: rest ∨ s.bus = .powerOn :: rest) ∧
    (t.fault = true → t.err = s.err ∧ t.errinfo = s.errinfo) ∧
    (∀ rest : List HostAccess, s.bus = .write 4 0 0x01000000 :: rest →
      t.fault = false ∧ t.err = 0 ∧ t.errinfo = 0 ∧ t.pos = 0 ∧ t.discardBlock = t) ∧
    (∀ rest : List HostAccess, s.bus = .powerOn :: rest → t.fault = false)

/-- Reading STATUS gives FAULT, EOBF, FAVV, CNTV, LFV, OUTV in bits 0..5, TBLV[g] in bit 8 + g, ERR in bits 23:16, and
0 in bits 7:6, 15:14 and 31:24; where the fault record is consistent (R24(f)) ERR reads 0 when FAULT = 0. -/
def Obligations.StatusLayout : Prop :=
  ∀ s : State,
    (s.readReg .status).getLsbD 0 = s.fault ∧ (s.readReg .status).getLsbD 1 = s.eobf ∧
    (s.readReg .status).getLsbD 2 = s.favv ∧ (s.readReg .status).getLsbD 3 = s.cntv ∧
    (s.readReg .status).getLsbD 4 = s.lfv ∧ (s.readReg .status).getLsbD 5 = s.outv ∧
    (s.readReg .status).extractLsb' 6 2 = 0 ∧
    (∀ g : Fin 6, (s.readReg .status).getLsbD (8 + g.val) = s.tblv[g]) ∧
    (s.readReg .status).extractLsb' 14 2 = 0 ∧ (s.readReg .status).extractLsb' 16 8 = s.err ∧
    (s.readReg .status).extractLsb' 24 8 = 0 ∧
    (s.FaultRecordOk → s.fault = false → (s.readReg .status).extractLsb' 16 8 = 0)

/-- If the next host access is a 32-bit read of an aligned address, the step puts the word the map of R45 gives there
into the model's read-data field and changes nothing else, FAULT = 0 or 1. -/
def Obligations.HostReadHasNoSideEffect : Prop :=
  ∀ (s : State) (rest : List HostAccess) (addr : BitVec 28),
    s.bus = .read 4 addr :: rest → addr.toNat % 4 = 0 →
    step s = .next { s with bus := rest, rdata := s.readSlot (slotAt s.bwtCap (addr.toNat / 4)) }

/-- A 32-bit host write of v to BWTLEN with v[24:0] > BWT_CAP changes nothing; with v[24:0] <= BWT_CAP it sets BWTLEN =
v[24:0] and PEND, POWER, CNTV, LFV, OUTV to 0 and nothing else. A host write of v to the word of BWT[i], i <
BWT_CAP <= 2^24, stores v[7:0] in BWT[i], leaves every other BWT element, and sets CNTV, LFV, OUTV to 0 and nothing
else. -/
def Obligations.HostWritesOfBufferInvalidate : Prop :=
  ∀ (s : State) (rest : List HostAccess) (v : Word),
    (s.bus = .write 4 0x038 v :: rest →
      (s.bwtCap < v.toNat % 2 ^ 25 → step s = .next { s with bus := rest }) ∧
      (v.toNat % 2 ^ 25 ≤ s.bwtCap → step s = .next { s with
        bus := rest, bwtlen := v.setWidth 25, pend := 0, power := 0, cntv := false, lfv := false, outv := false })) ∧
    (∀ i, i < s.bwtCap → s.bwtCap ≤ 2 ^ 24 → s.bus = .write 4 (BitVec.ofNat 28 (0x4000000 + 4 * i)) v :: rest →
      ∃ t : State, step s = .next t ∧ t.bwtAt i = v.setWidth 8 ∧ (∀ j, j ≠ i → t.bwtAt j = s.bwtAt j) ∧
        t = { s with bus := rest, bwt := t.bwt, cntv := false, lfv := false, outv := false })

/-- First, for every word of the map the host may write except CMD, whose element exists, and every v (for BWTLEN,
v[24:0] <= BWT_CAP): after the write operation, reading the same word gives v modulo 2^(its width), all 32 bits for
a USED word. Second, if the next host access is a 32-bit write of v to an aligned address whose word x of the map
is such a word, FAULT = 0 or 1, the step answers a next state in which x reads v modulo 2^(its width); and if x is
neither BWTLEN nor an element of BWT (R17, HostWritesOfBufferInvalidate), every other word of the map reads as
before, and no field of the state but OPA, INLEN, NGROUPS, NSEL, ORIGIN, USED, LEN, SEL and the bus, which loses
the access, has changed. -/
def Obligations.HostWriteReadsBack : Prop :=
  (∀ (s : State) (x : Slot) (v : Word), x.inRange s.bwtCap = true → 0 < x.writableWidth →
    (x = .reg .bwtlen → v.toNat % 2 ^ 25 ≤ s.bwtCap) →
    ((s.writeSlot v x).readSlot x).toNat = v.toNat % 2 ^ x.writableWidth) ∧
  (∀ (s : State) (rest : List HostAccess) (addr : BitVec 28) (v : Word) (x : Slot),
    s.bus = .write 4 addr v :: rest → addr.toNat % 4 = 0 → slotAt s.bwtCap (addr.toNat / 4) = x →
    0 < x.writableWidth → (x = .reg .bwtlen → v.toNat % 2 ^ 25 ≤ s.bwtCap) →
    ∃ t : State, step s = .next t ∧ (t.readSlot x).toNat = v.toNat % 2 ^ x.writableWidth ∧
      (x ≠ .reg .bwtlen → (∀ i, x ≠ .bwt i) →
        (∀ y : Slot, y ≠ x → t.readSlot y = s.readSlot y) ∧
        t = { s with
          bus := rest, opa := t.opa, inlen := t.inlen, ngroups := t.ngroups, nsel := t.nsel, origin := t.origin
          used := t.used, len := t.len, sel := t.sel }))

/-- If the next host access is an aligned 32-bit write to a word other than CMD that the host may not write (a read-
only register or memory, a reserved or unmapped address), the step only takes the access off the bus. -/
def Obligations.HostWriteToReadOnlyIgnored : Prop :=
  ∀ (s : State) (rest : List HostAccess) (addr : BitVec 28) (v : Word),
    s.bus = .write 4 addr v :: rest → addr.toNat % 4 = 0 → addr ≠ 0 →
    (slotAt s.bwtCap (addr.toNat / 4)).writableWidth = 0 → step s = .next { s with bus := rest }

/-- For BWT_CAP <= 2^24 and every register or existing element x, its word number (R14, R45) is below 2^26 and the map
gives x at that word; so no two of them share a word. -/
def Obligations.MapNamesEachElementOnce : Prop :=
  ∀ (cap : Nat) (x : Slot), cap ≤ 2 ^ 24 → x.inRange cap = true →
    ∃ w, x.wordNumber = some w ∧ w < 2 ^ 26 ∧ slotAt cap w = x

/-- If the next host access is a read or write whose size is not 4 bytes or whose address is not a multiple of 4, the
step is refused by the name notAlignedWord and there is no next state. -/
def Obligations.NonWordAccessRefused : Prop :=
  ∀ (s : State) (rest : List HostAccess) (size : Nat) (addr : BitVec 28) (v : Word),
    (s.bus = .read size addr :: rest ∨ s.bus = .write size addr v :: rest) →
    (size ≠ 4 ∨ addr.toNat % 4 ≠ 0) → step s = .refused .notAlignedWord

/-- If the next host event is the power-on reset input, the step leaves the state of State.reset except the parameter
BWT_CAP, the host's lent buffer, its remaining accesses and the word it last read, and a new draw for the unwritten
memory elements. (The five exceptions are the model's own fields, log entries 2 to 7.) -/
def Obligations.PowerOnResetsBlock : Prop :=
  ∀ (s : State) (rest : List HostAccess), s.bus = .powerOn :: rest →
    step s = .next { State.reset with
      bwtCap := s.bwtCap, powerDraw := s.powerDraw + 1, lent := s.lent, bus := rest, rdata := s.rdata }

/-- In State.reset every register of R14 reads 0 through the host map, and every flag of R13 is 0. -/
def Obligations.ResetRegistersZero : Prop :=
  (∀ r : Reg, State.reset.readReg r = 0) ∧
    (State.reset.fault, State.reset.eobf, State.reset.favv, State.reset.cntv, State.reset.lfv, State.reset.outv) =
      (false, false, false, false, false, false) ∧
    (∀ g : Fin 6, State.reset.tblv[g] = false)

/-- For every state s with the invariants (a) to (h) of R24 (POS <= LIMIT and LIMIT a multiple of 8; BWTLEN + PEND <=
BWT_CAP <= 2^24; the alphabet sizes; CHUNKCNT <= 50 and SELIDX <= 32766; the flag implications; the fault record;
TBLV implies FAVV; OUTLEN): if step answers a next state, it has them too. The clause LIMIT = 8 × (INLEN at the
last START) is stated as LIMIT being a multiple of 8, since the state does not keep that INLEN. -/
def Obligations.SpecInvariantKept : Prop :=
  ∀ s t : State, s.SpecInv → step s = .next t → t.SpecInv

/-- State.reset has the eight invariants of R24. (Its BWT_CAP is the model's choice, log entry 5; the clause on it is 1
<= BWT_CAP <= 2^24.) -/
def Obligations.SpecInvariantAtReset : Prop :=
  State.reset.SpecInv

/-- For every state with the invariants of R24 whose memories are all in canonical form (indices strictly rising) and
list only elements R19 gives them: if step answers a next state, its memories are so too. -/
def Obligations.MemoriesStayCanonical : Prop :=
  ∀ s t : State, s.SpecInv → s.MemoriesOk → step s = .next t → t.MemoriesOk

/-- For every state with the invariants of R24 in which, if FAVV = 1, FAV[0..NFAV-1] are pairwise distinct: if step
answers a next state, the same holds there. Move-to-front only reorders the list. -/
def Obligations.FavouritesStayDistinct : Prop :=
  ∀ s t : State, s.SpecInv → s.FavouritesDistinct → step s = .next t → t.FavouritesDistinct

/-- For every state with R24's invariants, POWER <= 25, built tables whose lookups stay in range and give symbols below
SYMUSED, exclusive bases in BASE while CNTV = 1, LF entries inside the buffer while LFV = 1, and canonical
memories: if step answers a next state, it has all of these too. -/
def Obligations.FullInvariantKept : Prop :=
  ∀ s t : State, s.Inv → step s = .next t → t.Inv

/-- State.reset has the invariant of FullInvariantKept. (Its BWT_CAP is the model's choice, log entry 5.) -/
def Obligations.FullInvariantAtReset : Prop :=
  State.reset.Inv

/-- For every state with the full invariant whose next host access, if any, is a 32-bit aligned read or write, a lent
buffer or a power-on reset, step answers a next state: no command refuses, none runs past a memory, and MBLOCK
ends. -/
def Obligations.GoodStatesNeverStop : Prop :=
  ∀ s : State, s.Inv → s.nextAccessAligned = true → ∃ t : State, step s = .next t
end

