-- ==== Sys2Proof/Laws/Memory.lean ====
section
/-! SUPPORT. Reading after writing, and that every memory operation keeps the canonical form. -/

namespace Sys2Proof.Machine

variable {w : Nat}

@[simp] theorem Memory.get?_nil (i : Nat) : Memory.get? ([] : Memory w) i = none := rfl

theorem Memory.get?_cons (j : Nat) (v : BitVec w) (m : Memory w) (i : Nat) :
    Memory.get? ((j, v) :: m) i = if i = j then some v else Memory.get? m i := rfl

theorem Memory.get?_append (m n : Memory w) (i : Nat) :
    Memory.get? (m ++ n) i = (Memory.get? m i).or (Memory.get? n i) := by
  induction m with
  | nil => simp
  | cons c m ih =>
    obtain ⟨j, v⟩ := c
    simp only [List.cons_append, Memory.get?_cons, ih]
    split <;> simp

/-- Filtering by index keeps what is read at an index the filter keeps, and hides the rest. -/
theorem Memory.get?_filter (m : Memory w) (p : Nat → Bool) (i : Nat) :
    Memory.get? (m.filter (fun c => p c.1)) i = if p i then Memory.get? m i else none := by
  induction m with
  | nil => simp
  | cons c m ih =>
    obtain ⟨j, v⟩ := c
    by_cases hj : p j
    · simp only [List.filter_cons, hj, if_true, Memory.get?_cons, ih]
      by_cases hij : i = j
      · subst hij; simp [hj]
      · simp [hij]
    · simp only [List.filter_cons, hj, Memory.get?_cons]
      by_cases hij : i = j
      · subst hij; simp [hj, ih]
      · simp [hij, ih]

theorem Memory.get?_consecutive (vs : List (BitVec w)) (base i : Nat) :
    Memory.get? (Memory.consecutive base vs) i = if base ≤ i then vs[i - base]? else none := by
  induction vs generalizing base with
  | nil => simp [Memory.consecutive]
  | cons v vs ih =>
    simp only [Memory.consecutive, Memory.get?_cons, ih]
    by_cases h : i = base
    · subst h; simp
    · by_cases hle : base ≤ i
      · have h1 : base + 1 ≤ i := by omega
        have h2 : i - base = (i - (base + 1)) + 1 := by omega
        simp [h, h1, hle, h2]
      · have h1 : ¬ base + 1 ≤ i := by omega
        simp [h, hle, h1]

/-- Read after a splice: the spliced value inside, what was there before outside. -/
theorem Memory.get?_splice (m : Memory w) (base : Nat) (vs : List (BitVec w)) (i : Nat) :
    (m.splice base vs).get? i =
      if base ≤ i ∧ i < base + vs.length then vs[i - base]? else m.get? i := by
  unfold Memory.splice
  rw [Memory.get?_append, Memory.get?_append, Memory.get?_filter m (fun j => decide (j < base)),
    Memory.get?_filter m (fun j => decide (base + vs.length ≤ j)), Memory.get?_consecutive]
  by_cases h1 : i < base
  · simp [h1, show ¬ base ≤ i by omega, show ¬ base + vs.length ≤ i by omega]
  · by_cases h2 : i < base + vs.length
    · have h3 : i - base < vs.length := by omega
      simp [h1, h2, show base ≤ i by omega, List.getElem?_eq_getElem h3]
    · have h3 : vs.length ≤ i - base := by omega
      simp [h1, h2, show base ≤ i by omega, List.getElem?_eq_none h3, show base + vs.length ≤ i by omega]

theorem Memory.get?_write (m : Memory w) (j : Nat) (v : BitVec w) (i : Nat) :
    (m.write j v).get? i = if i = j then some v else m.get? i := by
  unfold Memory.write
  rw [Memory.get?_splice]
  by_cases h : i = j
  · subst h; simp
  · have : ¬ (j ≤ i ∧ i < j + [v].length) := by simp; omega
    rw [if_neg this, if_neg h]

@[simp] theorem Memory.get?_write_self (m : Memory w) (j : Nat) (v : BitVec w) : (m.write j v).get? j = some v := by
  simp [Memory.get?_write]

theorem Memory.get?_write_other (m : Memory w) {j i : Nat} (v : BitVec w) (h : i ≠ j) :
    (m.write j v).get? i = m.get? i := by
  simp [Memory.get?_write, h]

/-! ## The canonical form -/

theorem Memory.mem_consecutive {vs : List (BitVec w)} {base : Nat} {c : Nat × BitVec w}
    (h : c ∈ Memory.consecutive base vs) : base ≤ c.1 ∧ c.1 < base + vs.length := by
  induction vs generalizing base with
  | nil => simp [Memory.consecutive] at h
  | cons v vs ih =>
    simp only [Memory.consecutive, List.mem_cons] at h
    rcases h with rfl | h
    · simp
    · have := ih h
      simp only [List.length_cons]
      omega

theorem Memory.wf_consecutive (vs : List (BitVec w)) (base : Nat) : (Memory.consecutive base vs).wf := by
  induction vs generalizing base with
  | nil => exact List.Pairwise.nil
  | cons v vs ih =>
    refine List.Pairwise.cons (fun c hc => ?_) (ih (base + 1))
    exact (Memory.mem_consecutive hc).1

theorem Memory.wf_splice {m : Memory w} (h : m.wf) (base : Nat) (vs : List (BitVec w)) : (m.splice base vs).wf := by
  unfold Memory.splice Memory.wf
  rw [List.pairwise_append, List.pairwise_append]
  refine ⟨h.filter _, ⟨Memory.wf_consecutive vs base, h.filter _, ?_⟩, ?_⟩
  · intro a ha b hb
    have h1 := Memory.mem_consecutive ha
    have h2 : base + vs.length ≤ b.1 := by simpa using (List.mem_filter.mp hb).2
    omega
  · intro a ha b hb
    have h1 : a.1 < base := by simpa using (List.mem_filter.mp ha).2
    rcases List.mem_append.mp hb with hb | hb
    · have := Memory.mem_consecutive hb
      omega
    · have h2 : base + vs.length ≤ b.1 := by simpa using (List.mem_filter.mp hb).2
      omega

theorem Memory.wf_write {m : Memory w} (h : m.wf) (i : Nat) (v : BitVec w) : (m.write i v).wf :=
  Memory.wf_splice h i [v]

theorem Memory.mem_splice {m : Memory w} {base : Nat} {vs : List (BitVec w)} {c : Nat × BitVec w}
    (h : c ∈ m.splice base vs) : c ∈ m ∨ (base ≤ c.1 ∧ c.1 < base + vs.length) := by
  unfold Memory.splice at h
  rcases List.mem_append.mp h with h | h
  · exact .inl (List.mem_filter.mp h).1
  · rcases List.mem_append.mp h with h | h
    · exact .inr (Memory.mem_consecutive h)
    · exact .inl (List.mem_filter.mp h).1

theorem Memory.below_splice {m : Memory w} {n base : Nat} {vs : List (BitVec w)} (h : m.below n)
    (hb : base + vs.length ≤ n) : (m.splice base vs).below n := by
  intro c hc
  rcases Memory.mem_splice hc with hc | hc
  · exact h c hc
  · omega

theorem Memory.below_write {m : Memory w} {n i : Nat} {v : BitVec w} (h : m.below n) (hi : i < n) :
    (m.write i v).below n :=
  Memory.below_splice h (by simpa using hi)

/-! ## Elements of a state's memories -/

/-- An element read after a splice of that memory, in a state with the same draw. -/
theorem State.elem_splice (s : State) (name : MemName) (m : Memory w) (base : Nat) (vs : List (BitVec w)) (i : Nat) :
    s.elem name (m.splice base vs) i =
      if h : base ≤ i ∧ i < base + vs.length then vs[i - base]'(by omega) else s.elem name m i := by
  unfold State.elem
  rw [Memory.get?_splice]
  split
  · rename_i h
    have : i - base < vs.length := by omega
    simp [List.getElem?_eq_getElem this]
  · rfl

theorem State.elem_write (s : State) (name : MemName) (m : Memory w) (j : Nat) (v : BitVec w) (i : Nat) :
    s.elem name (m.write j v) i = if i = j then v else s.elem name m i := by
  unfold State.elem
  rw [Memory.get?_write]
  split <;> rfl

/-- Reading an element depends on the memory and on the draw of the unwritten elements, on nothing else. -/
theorem State.elem_congr {s t : State} (h : t.powerDraw = s.powerDraw) (name : MemName) (m : Memory w) (i : Nat) :
    t.elem name m i = s.elem name m i := by
  unfold State.elem
  rw [h]

end Sys2Proof.Machine
end

