-- ==== Sys2Proof/Laws/State.lean ====
section
/-! SUPPORT. What each named update of the state leaves in each field: one lemma per field per update, true by rfl. -/

namespace Sys2Proof.Machine

section raise

variable (s : State) (op : BitVec 8) (k : FaultKind) (d : BitVec 24)

@[simp] theorem State.raise_opa : (s.raise op k d).opa = s.opa := rfl
@[simp] theorem State.raise_res0 : (s.raise op k d).res0 = s.res0 := rfl
@[simp] theorem State.raise_res1 : (s.raise op k d).res1 = s.res1 := rfl
@[simp] theorem State.raise_inlen : (s.raise op k d).inlen = s.inlen := rfl
@[simp] theorem State.raise_pos : (s.raise op k d).pos = s.pos := rfl
@[simp] theorem State.raise_limit : (s.raise op k d).limit = s.limit := rfl
@[simp] theorem State.raise_ngroups : (s.raise op k d).ngroups = s.ngroups := rfl
@[simp] theorem State.raise_nsel : (s.raise op k d).nsel = s.nsel := rfl
@[simp] theorem State.raise_symused : (s.raise op k d).symused = s.symused := rfl
@[simp] theorem State.raise_nfav : (s.raise op k d).nfav = s.nfav := rfl
@[simp] theorem State.raise_origin : (s.raise op k d).origin = s.origin := rfl
@[simp] theorem State.raise_bwtlen : (s.raise op k d).bwtlen = s.bwtlen := rfl
@[simp] theorem State.raise_pend : (s.raise op k d).pend = s.pend := rfl
@[simp] theorem State.raise_power : (s.raise op k d).power = s.power := rfl
@[simp] theorem State.raise_selidx : (s.raise op k d).selidx = s.selidx := rfl
@[simp] theorem State.raise_chunkcnt : (s.raise op k d).chunkcnt = s.chunkcnt := rfl
@[simp] theorem State.raise_outlen : (s.raise op k d).outlen = s.outlen := rfl
@[simp] theorem State.raise_walkptr : (s.raise op k d).walkptr = s.walkptr := rfl
@[simp] theorem State.raise_blkidx : (s.raise op k d).blkidx = s.blkidx := rfl
@[simp] theorem State.raise_err : (s.raise op k d).err = k.code := rfl
@[simp] theorem State.raise_errinfo : (s.raise op k d).errinfo = op ++ d := rfl
@[simp] theorem State.raise_fault : (s.raise op k d).fault = true := rfl
@[simp] theorem State.raise_eobf : (s.raise op k d).eobf = s.eobf := rfl
@[simp] theorem State.raise_favv : (s.raise op k d).favv = s.favv := rfl
@[simp] theorem State.raise_cntv : (s.raise op k d).cntv = s.cntv := rfl
@[simp] theorem State.raise_lfv : (s.raise op k d).lfv = s.lfv := rfl
@[simp] theorem State.raise_outv : (s.raise op k d).outv = s.outv := rfl
@[simp] theorem State.raise_tblv : (s.raise op k d).tblv = s.tblv := rfl
@[simp] theorem State.raise_used : (s.raise op k d).used = s.used := rfl
@[simp] theorem State.raise_len : (s.raise op k d).len = s.len := rfl
@[simp] theorem State.raise_sel : (s.raise op k d).sel = s.sel := rfl
@[simp] theorem State.raise_fav : (s.raise op k d).fav = s.fav := rfl
@[simp] theorem State.raise_table : (s.raise op k d).table = s.table := rfl
@[simp] theorem State.raise_base : (s.raise op k d).base = s.base := rfl
@[simp] theorem State.raise_bwt : (s.raise op k d).bwt = s.bwt := rfl
@[simp] theorem State.raise_lf : (s.raise op k d).lf = s.lf := rfl
@[simp] theorem State.raise_out : (s.raise op k d).out = s.out := rfl
@[simp] theorem State.raise_input : (s.raise op k d).input = s.input := rfl
@[simp] theorem State.raise_lent : (s.raise op k d).lent = s.lent := rfl
@[simp] theorem State.raise_bwtCap : (s.raise op k d).bwtCap = s.bwtCap := rfl
@[simp] theorem State.raise_powerDraw : (s.raise op k d).powerDraw = s.powerDraw := rfl
@[simp] theorem State.raise_bus : (s.raise op k d).bus = s.bus := rfl
@[simp] theorem State.raise_rdata : (s.raise op k d).rdata = s.rdata := rfl

end raise

section clearFault

variable (s : State)

@[simp] theorem State.clearFault_opa : s.clearFault.opa = s.opa := rfl
@[simp] theorem State.clearFault_res0 : s.clearFault.res0 = s.res0 := rfl
@[simp] theorem State.clearFault_res1 : s.clearFault.res1 = s.res1 := rfl
@[simp] theorem State.clearFault_inlen : s.clearFault.inlen = s.inlen := rfl
@[simp] theorem State.clearFault_pos : s.clearFault.pos = s.pos := rfl
@[simp] theorem State.clearFault_limit : s.clearFault.limit = s.limit := rfl
@[simp] theorem State.clearFault_ngroups : s.clearFault.ngroups = s.ngroups := rfl
@[simp] theorem State.clearFault_nsel : s.clearFault.nsel = s.nsel := rfl
@[simp] theorem State.clearFault_symused : s.clearFault.symused = s.symused := rfl
@[simp] theorem State.clearFault_nfav : s.clearFault.nfav = s.nfav := rfl
@[simp] theorem State.clearFault_origin : s.clearFault.origin = s.origin := rfl
@[simp] theorem State.clearFault_bwtlen : s.clearFault.bwtlen = s.bwtlen := rfl
@[simp] theorem State.clearFault_pend : s.clearFault.pend = s.pend := rfl
@[simp] theorem State.clearFault_power : s.clearFault.power = s.power := rfl
@[simp] theorem State.clearFault_selidx : s.clearFault.selidx = s.selidx := rfl
@[simp] theorem State.clearFault_chunkcnt : s.clearFault.chunkcnt = s.chunkcnt := rfl
@[simp] theorem State.clearFault_outlen : s.clearFault.outlen = s.outlen := rfl
@[simp] theorem State.clearFault_walkptr : s.clearFault.walkptr = s.walkptr := rfl
@[simp] theorem State.clearFault_blkidx : s.clearFault.blkidx = s.blkidx := rfl
@[simp] theorem State.clearFault_err : s.clearFault.err = 0 := rfl
@[simp] theorem State.clearFault_errinfo : s.clearFault.errinfo = 0 := rfl
@[simp] theorem State.clearFault_fault : s.clearFault.fault = false := rfl
@[simp] theorem State.clearFault_eobf : s.clearFault.eobf = s.eobf := rfl
@[simp] theorem State.clearFault_favv : s.clearFault.favv = s.favv := rfl
@[simp] theorem State.clearFault_cntv : s.clearFault.cntv = s.cntv := rfl
@[simp] theorem State.clearFault_lfv : s.clearFault.lfv = s.lfv := rfl
@[simp] theorem State.clearFault_outv : s.clearFault.outv = s.outv := rfl
@[simp] theorem State.clearFault_tblv : s.clearFault.tblv = s.tblv := rfl
@[simp] theorem State.clearFault_used : s.clearFault.used = s.used := rfl
@[simp] theorem State.clearFault_len : s.clearFault.len = s.len := rfl
@[simp] theorem State.clearFault_sel : s.clearFault.sel = s.sel := rfl
@[simp] theorem State.clearFault_fav : s.clearFault.fav = s.fav := rfl
@[simp] theorem State.clearFault_table : s.clearFault.table = s.table := rfl
@[simp] theorem State.clearFault_base : s.clearFault.base = s.base := rfl
@[simp] theorem State.clearFault_bwt : s.clearFault.bwt = s.bwt := rfl
@[simp] theorem State.clearFault_lf : s.clearFault.lf = s.lf := rfl
@[simp] theorem State.clearFault_out : s.clearFault.out = s.out := rfl
@[simp] theorem State.clearFault_input : s.clearFault.input = s.input := rfl
@[simp] theorem State.clearFault_lent : s.clearFault.lent = s.lent := rfl
@[simp] theorem State.clearFault_bwtCap : s.clearFault.bwtCap = s.bwtCap := rfl
@[simp] theorem State.clearFault_powerDraw : s.clearFault.powerDraw = s.powerDraw := rfl
@[simp] theorem State.clearFault_bus : s.clearFault.bus = s.bus := rfl
@[simp] theorem State.clearFault_rdata : s.clearFault.rdata = s.rdata := rfl

end clearFault

section setResult

variable (s : State) (v n : Nat)

@[simp] theorem State.setResult_opa : (s.setResult v n).opa = s.opa := rfl
@[simp] theorem State.setResult_res0 : (s.setResult v n).res0 = BitVec.ofNat 32 v := rfl
@[simp] theorem State.setResult_res1 : (s.setResult v n).res1 = BitVec.ofNat 32 n := rfl
@[simp] theorem State.setResult_inlen : (s.setResult v n).inlen = s.inlen := rfl
@[simp] theorem State.setResult_pos : (s.setResult v n).pos = s.pos := rfl
@[simp] theorem State.setResult_limit : (s.setResult v n).limit = s.limit := rfl
@[simp] theorem State.setResult_ngroups : (s.setResult v n).ngroups = s.ngroups := rfl
@[simp] theorem State.setResult_nsel : (s.setResult v n).nsel = s.nsel := rfl
@[simp] theorem State.setResult_symused : (s.setResult v n).symused = s.symused := rfl
@[simp] theorem State.setResult_nfav : (s.setResult v n).nfav = s.nfav := rfl
@[simp] theorem State.setResult_origin : (s.setResult v n).origin = s.origin := rfl
@[simp] theorem State.setResult_bwtlen : (s.setResult v n).bwtlen = s.bwtlen := rfl
@[simp] theorem State.setResult_pend : (s.setResult v n).pend = s.pend := rfl
@[simp] theorem State.setResult_power : (s.setResult v n).power = s.power := rfl
@[simp] theorem State.setResult_selidx : (s.setResult v n).selidx = s.selidx := rfl
@[simp] theorem State.setResult_chunkcnt : (s.setResult v n).chunkcnt = s.chunkcnt := rfl
@[simp] theorem State.setResult_outlen : (s.setResult v n).outlen = s.outlen := rfl
@[simp] theorem State.setResult_walkptr : (s.setResult v n).walkptr = s.walkptr := rfl
@[simp] theorem State.setResult_blkidx : (s.setResult v n).blkidx = s.blkidx := rfl
@[simp] theorem State.setResult_err : (s.setResult v n).err = s.err := rfl
@[simp] theorem State.setResult_errinfo : (s.setResult v n).errinfo = s.errinfo := rfl
@[simp] theorem State.setResult_fault : (s.setResult v n).fault = s.fault := rfl
@[simp] theorem State.setResult_eobf : (s.setResult v n).eobf = s.eobf := rfl
@[simp] theorem State.setResult_favv : (s.setResult v n).favv = s.favv := rfl
@[simp] theorem State.setResult_cntv : (s.setResult v n).cntv = s.cntv := rfl
@[simp] theorem State.setResult_lfv : (s.setResult v n).lfv = s.lfv := rfl
@[simp] theorem State.setResult_outv : (s.setResult v n).outv = s.outv := rfl
@[simp] theorem State.setResult_tblv : (s.setResult v n).tblv = s.tblv := rfl
@[simp] theorem State.setResult_used : (s.setResult v n).used = s.used := rfl
@[simp] theorem State.setResult_len : (s.setResult v n).len = s.len := rfl
@[simp] theorem State.setResult_sel : (s.setResult v n).sel = s.sel := rfl
@[simp] theorem State.setResult_fav : (s.setResult v n).fav = s.fav := rfl
@[simp] theorem State.setResult_table : (s.setResult v n).table = s.table := rfl
@[simp] theorem State.setResult_base : (s.setResult v n).base = s.base := rfl
@[simp] theorem State.setResult_bwt : (s.setResult v n).bwt = s.bwt := rfl
@[simp] theorem State.setResult_lf : (s.setResult v n).lf = s.lf := rfl
@[simp] theorem State.setResult_out : (s.setResult v n).out = s.out := rfl
@[simp] theorem State.setResult_input : (s.setResult v n).input = s.input := rfl
@[simp] theorem State.setResult_lent : (s.setResult v n).lent = s.lent := rfl
@[simp] theorem State.setResult_bwtCap : (s.setResult v n).bwtCap = s.bwtCap := rfl
@[simp] theorem State.setResult_powerDraw : (s.setResult v n).powerDraw = s.powerDraw := rfl
@[simp] theorem State.setResult_bus : (s.setResult v n).bus = s.bus := rfl
@[simp] theorem State.setResult_rdata : (s.setResult v n).rdata = s.rdata := rfl

end setResult

section setPos

variable (s : State) (p : Nat)

@[simp] theorem State.setPos_opa : (s.setPos p).opa = s.opa := rfl
@[simp] theorem State.setPos_res0 : (s.setPos p).res0 = s.res0 := rfl
@[simp] theorem State.setPos_res1 : (s.setPos p).res1 = s.res1 := rfl
@[simp] theorem State.setPos_inlen : (s.setPos p).inlen = s.inlen := rfl
@[simp] theorem State.setPos_pos : (s.setPos p).pos = BitVec.ofNat 32 p := rfl
@[simp] theorem State.setPos_limit : (s.setPos p).limit = s.limit := rfl
@[simp] theorem State.setPos_ngroups : (s.setPos p).ngroups = s.ngroups := rfl
@[simp] theorem State.setPos_nsel : (s.setPos p).nsel = s.nsel := rfl
@[simp] theorem State.setPos_symused : (s.setPos p).symused = s.symused := rfl
@[simp] theorem State.setPos_nfav : (s.setPos p).nfav = s.nfav := rfl
@[simp] theorem State.setPos_origin : (s.setPos p).origin = s.origin := rfl
@[simp] theorem State.setPos_bwtlen : (s.setPos p).bwtlen = s.bwtlen := rfl
@[simp] theorem State.setPos_pend : (s.setPos p).pend = s.pend := rfl
@[simp] theorem State.setPos_power : (s.setPos p).power = s.power := rfl
@[simp] theorem State.setPos_selidx : (s.setPos p).selidx = s.selidx := rfl
@[simp] theorem State.setPos_chunkcnt : (s.setPos p).chunkcnt = s.chunkcnt := rfl
@[simp] theorem State.setPos_outlen : (s.setPos p).outlen = s.outlen := rfl
@[simp] theorem State.setPos_walkptr : (s.setPos p).walkptr = s.walkptr := rfl
@[simp] theorem State.setPos_blkidx : (s.setPos p).blkidx = s.blkidx := rfl
@[simp] theorem State.setPos_err : (s.setPos p).err = s.err := rfl
@[simp] theorem State.setPos_errinfo : (s.setPos p).errinfo = s.errinfo := rfl
@[simp] theorem State.setPos_fault : (s.setPos p).fault = s.fault := rfl
@[simp] theorem State.setPos_eobf : (s.setPos p).eobf = s.eobf := rfl
@[simp] theorem State.setPos_favv : (s.setPos p).favv = s.favv := rfl
@[simp] theorem State.setPos_cntv : (s.setPos p).cntv = s.cntv := rfl
@[simp] theorem State.setPos_lfv : (s.setPos p).lfv = s.lfv := rfl
@[simp] theorem State.setPos_outv : (s.setPos p).outv = s.outv := rfl
@[simp] theorem State.setPos_tblv : (s.setPos p).tblv = s.tblv := rfl
@[simp] theorem State.setPos_used : (s.setPos p).used = s.used := rfl
@[simp] theorem State.setPos_len : (s.setPos p).len = s.len := rfl
@[simp] theorem State.setPos_sel : (s.setPos p).sel = s.sel := rfl
@[simp] theorem State.setPos_fav : (s.setPos p).fav = s.fav := rfl
@[simp] theorem State.setPos_table : (s.setPos p).table = s.table := rfl
@[simp] theorem State.setPos_base : (s.setPos p).base = s.base := rfl
@[simp] theorem State.setPos_bwt : (s.setPos p).bwt = s.bwt := rfl
@[simp] theorem State.setPos_lf : (s.setPos p).lf = s.lf := rfl
@[simp] theorem State.setPos_out : (s.setPos p).out = s.out := rfl
@[simp] theorem State.setPos_input : (s.setPos p).input = s.input := rfl
@[simp] theorem State.setPos_lent : (s.setPos p).lent = s.lent := rfl
@[simp] theorem State.setPos_bwtCap : (s.setPos p).bwtCap = s.bwtCap := rfl
@[simp] theorem State.setPos_powerDraw : (s.setPos p).powerDraw = s.powerDraw := rfl
@[simp] theorem State.setPos_bus : (s.setPos p).bus = s.bus := rfl
@[simp] theorem State.setPos_rdata : (s.setPos p).rdata = s.rdata := rfl

end setPos

section discardBlock

variable (s : State)

@[simp] theorem State.discardBlock_opa : s.discardBlock.opa = s.opa := rfl
@[simp] theorem State.discardBlock_res0 : s.discardBlock.res0 = s.res0 := rfl
@[simp] theorem State.discardBlock_res1 : s.discardBlock.res1 = s.res1 := rfl
@[simp] theorem State.discardBlock_inlen : s.discardBlock.inlen = s.inlen := rfl
@[simp] theorem State.discardBlock_pos : s.discardBlock.pos = s.pos := rfl
@[simp] theorem State.discardBlock_limit : s.discardBlock.limit = s.limit := rfl
@[simp] theorem State.discardBlock_ngroups : s.discardBlock.ngroups = s.ngroups := rfl
@[simp] theorem State.discardBlock_nsel : s.discardBlock.nsel = s.nsel := rfl
@[simp] theorem State.discardBlock_symused : s.discardBlock.symused = 0 := rfl
@[simp] theorem State.discardBlock_nfav : s.discardBlock.nfav = 0 := rfl
@[simp] theorem State.discardBlock_origin : s.discardBlock.origin = s.origin := rfl
@[simp] theorem State.discardBlock_bwtlen : s.discardBlock.bwtlen = 0 := rfl
@[simp] theorem State.discardBlock_pend : s.discardBlock.pend = 0 := rfl
@[simp] theorem State.discardBlock_power : s.discardBlock.power = 0 := rfl
@[simp] theorem State.discardBlock_selidx : s.discardBlock.selidx = 0 := rfl
@[simp] theorem State.discardBlock_chunkcnt : s.discardBlock.chunkcnt = 0 := rfl
@[simp] theorem State.discardBlock_outlen : s.discardBlock.outlen = 0 := rfl
@[simp] theorem State.discardBlock_walkptr : s.discardBlock.walkptr = 0 := rfl
@[simp] theorem State.discardBlock_blkidx : s.discardBlock.blkidx = s.blkidx := rfl
@[simp] theorem State.discardBlock_err : s.discardBlock.err = s.err := rfl
@[simp] theorem State.discardBlock_errinfo : s.discardBlock.errinfo = s.errinfo := rfl
@[simp] theorem State.discardBlock_fault : s.discardBlock.fault = s.fault := rfl
@[simp] theorem State.discardBlock_eobf : s.discardBlock.eobf = false := rfl
@[simp] theorem State.discardBlock_favv : s.discardBlock.favv = false := rfl
@[simp] theorem State.discardBlock_cntv : s.discardBlock.cntv = false := rfl
@[simp] theorem State.discardBlock_lfv : s.discardBlock.lfv = false := rfl
@[simp] theorem State.discardBlock_outv : s.discardBlock.outv = false := rfl
@[simp] theorem State.discardBlock_tblv : s.discardBlock.tblv = Vector.replicate 6 false := rfl
@[simp] theorem State.discardBlock_used : s.discardBlock.used = s.used := rfl
@[simp] theorem State.discardBlock_len : s.discardBlock.len = s.len := rfl
@[simp] theorem State.discardBlock_sel : s.discardBlock.sel = s.sel := rfl
@[simp] theorem State.discardBlock_fav : s.discardBlock.fav = s.fav := rfl
@[simp] theorem State.discardBlock_table : s.discardBlock.table = s.table := rfl
@[simp] theorem State.discardBlock_base : s.discardBlock.base = s.base := rfl
@[simp] theorem State.discardBlock_bwt : s.discardBlock.bwt = s.bwt := rfl
@[simp] theorem State.discardBlock_lf : s.discardBlock.lf = s.lf := rfl
@[simp] theorem State.discardBlock_out : s.discardBlock.out = s.out := rfl
@[simp] theorem State.discardBlock_input : s.discardBlock.input = s.input := rfl
@[simp] theorem State.discardBlock_lent : s.discardBlock.lent = s.lent := rfl
@[simp] theorem State.discardBlock_bwtCap : s.discardBlock.bwtCap = s.bwtCap := rfl
@[simp] theorem State.discardBlock_powerDraw : s.discardBlock.powerDraw = s.powerDraw := rfl
@[simp] theorem State.discardBlock_bus : s.discardBlock.bus = s.bus := rfl
@[simp] theorem State.discardBlock_rdata : s.discardBlock.rdata = s.rdata := rfl

end discardBlock

section clearInverse

variable (s : State)

@[simp] theorem State.clearInverse_opa : s.clearInverse.opa = s.opa := rfl
@[simp] theorem State.clearInverse_res0 : s.clearInverse.res0 = s.res0 := rfl
@[simp] theorem State.clearInverse_res1 : s.clearInverse.res1 = s.res1 := rfl
@[simp] theorem State.clearInverse_inlen : s.clearInverse.inlen = s.inlen := rfl
@[simp] theorem State.clearInverse_pos : s.clearInverse.pos = s.pos := rfl
@[simp] theorem State.clearInverse_limit : s.clearInverse.limit = s.limit := rfl
@[simp] theorem State.clearInverse_ngroups : s.clearInverse.ngroups = s.ngroups := rfl
@[simp] theorem State.clearInverse_nsel : s.clearInverse.nsel = s.nsel := rfl
@[simp] theorem State.clearInverse_symused : s.clearInverse.symused = s.symused := rfl
@[simp] theorem State.clearInverse_nfav : s.clearInverse.nfav = s.nfav := rfl
@[simp] theorem State.clearInverse_origin : s.clearInverse.origin = s.origin := rfl
@[simp] theorem State.clearInverse_bwtlen : s.clearInverse.bwtlen = s.bwtlen := rfl
@[simp] theorem State.clearInverse_pend : s.clearInverse.pend = s.pend := rfl
@[simp] theorem State.clearInverse_power : s.clearInverse.power = s.power := rfl
@[simp] theorem State.clearInverse_selidx : s.clearInverse.selidx = s.selidx := rfl
@[simp] theorem State.clearInverse_chunkcnt : s.clearInverse.chunkcnt = s.chunkcnt := rfl
@[simp] theorem State.clearInverse_outlen : s.clearInverse.outlen = s.outlen := rfl
@[simp] theorem State.clearInverse_walkptr : s.clearInverse.walkptr = s.walkptr := rfl
@[simp] theorem State.clearInverse_blkidx : s.clearInverse.blkidx = s.blkidx := rfl
@[simp] theorem State.clearInverse_err : s.clearInverse.err = s.err := rfl
@[simp] theorem State.clearInverse_errinfo : s.clearInverse.errinfo = s.errinfo := rfl
@[simp] theorem State.clearInverse_fault : s.clearInverse.fault = s.fault := rfl
@[simp] theorem State.clearInverse_eobf : s.clearInverse.eobf = s.eobf := rfl
@[simp] theorem State.clearInverse_favv : s.clearInverse.favv = s.favv := rfl
@[simp] theorem State.clearInverse_cntv : s.clearInverse.cntv = false := rfl
@[simp] theorem State.clearInverse_lfv : s.clearInverse.lfv = false := rfl
@[simp] theorem State.clearInverse_outv : s.clearInverse.outv = false := rfl
@[simp] theorem State.clearInverse_tblv : s.clearInverse.tblv = s.tblv := rfl
@[simp] theorem State.clearInverse_used : s.clearInverse.used = s.used := rfl
@[simp] theorem State.clearInverse_len : s.clearInverse.len = s.len := rfl
@[simp] theorem State.clearInverse_sel : s.clearInverse.sel = s.sel := rfl
@[simp] theorem State.clearInverse_fav : s.clearInverse.fav = s.fav := rfl
@[simp] theorem State.clearInverse_table : s.clearInverse.table = s.table := rfl
@[simp] theorem State.clearInverse_base : s.clearInverse.base = s.base := rfl
@[simp] theorem State.clearInverse_bwt : s.clearInverse.bwt = s.bwt := rfl
@[simp] theorem State.clearInverse_lf : s.clearInverse.lf = s.lf := rfl
@[simp] theorem State.clearInverse_out : s.clearInverse.out = s.out := rfl
@[simp] theorem State.clearInverse_input : s.clearInverse.input = s.input := rfl
@[simp] theorem State.clearInverse_lent : s.clearInverse.lent = s.lent := rfl
@[simp] theorem State.clearInverse_bwtCap : s.clearInverse.bwtCap = s.bwtCap := rfl
@[simp] theorem State.clearInverse_powerDraw : s.clearInverse.powerDraw = s.powerDraw := rfl
@[simp] theorem State.clearInverse_bus : s.clearInverse.bus = s.bus := rfl
@[simp] theorem State.clearInverse_rdata : s.clearInverse.rdata = s.rdata := rfl

end clearInverse

section markCounted

variable (s : State)

@[simp] theorem State.markCounted_opa : s.markCounted.opa = s.opa := rfl
@[simp] theorem State.markCounted_res0 : s.markCounted.res0 = s.res0 := rfl
@[simp] theorem State.markCounted_res1 : s.markCounted.res1 = s.res1 := rfl
@[simp] theorem State.markCounted_inlen : s.markCounted.inlen = s.inlen := rfl
@[simp] theorem State.markCounted_pos : s.markCounted.pos = s.pos := rfl
@[simp] theorem State.markCounted_limit : s.markCounted.limit = s.limit := rfl
@[simp] theorem State.markCounted_ngroups : s.markCounted.ngroups = s.ngroups := rfl
@[simp] theorem State.markCounted_nsel : s.markCounted.nsel = s.nsel := rfl
@[simp] theorem State.markCounted_symused : s.markCounted.symused = s.symused := rfl
@[simp] theorem State.markCounted_nfav : s.markCounted.nfav = s.nfav := rfl
@[simp] theorem State.markCounted_origin : s.markCounted.origin = s.origin := rfl
@[simp] theorem State.markCounted_bwtlen : s.markCounted.bwtlen = s.bwtlen := rfl
@[simp] theorem State.markCounted_pend : s.markCounted.pend = s.pend := rfl
@[simp] theorem State.markCounted_power : s.markCounted.power = s.power := rfl
@[simp] theorem State.markCounted_selidx : s.markCounted.selidx = s.selidx := rfl
@[simp] theorem State.markCounted_chunkcnt : s.markCounted.chunkcnt = s.chunkcnt := rfl
@[simp] theorem State.markCounted_outlen : s.markCounted.outlen = s.outlen := rfl
@[simp] theorem State.markCounted_walkptr : s.markCounted.walkptr = s.walkptr := rfl
@[simp] theorem State.markCounted_blkidx : s.markCounted.blkidx = s.blkidx := rfl
@[simp] theorem State.markCounted_err : s.markCounted.err = s.err := rfl
@[simp] theorem State.markCounted_errinfo : s.markCounted.errinfo = s.errinfo := rfl
@[simp] theorem State.markCounted_fault : s.markCounted.fault = s.fault := rfl
@[simp] theorem State.markCounted_eobf : s.markCounted.eobf = s.eobf := rfl
@[simp] theorem State.markCounted_favv : s.markCounted.favv = s.favv := rfl
@[simp] theorem State.markCounted_cntv : s.markCounted.cntv = true := rfl
@[simp] theorem State.markCounted_lfv : s.markCounted.lfv = false := rfl
@[simp] theorem State.markCounted_outv : s.markCounted.outv = false := rfl
@[simp] theorem State.markCounted_tblv : s.markCounted.tblv = s.tblv := rfl
@[simp] theorem State.markCounted_used : s.markCounted.used = s.used := rfl
@[simp] theorem State.markCounted_len : s.markCounted.len = s.len := rfl
@[simp] theorem State.markCounted_sel : s.markCounted.sel = s.sel := rfl
@[simp] theorem State.markCounted_fav : s.markCounted.fav = s.fav := rfl
@[simp] theorem State.markCounted_table : s.markCounted.table = s.table := rfl
@[simp] theorem State.markCounted_base : s.markCounted.base = s.base := rfl
@[simp] theorem State.markCounted_bwt : s.markCounted.bwt = s.bwt := rfl
@[simp] theorem State.markCounted_lf : s.markCounted.lf = s.lf := rfl
@[simp] theorem State.markCounted_out : s.markCounted.out = s.out := rfl
@[simp] theorem State.markCounted_input : s.markCounted.input = s.input := rfl
@[simp] theorem State.markCounted_lent : s.markCounted.lent = s.lent := rfl
@[simp] theorem State.markCounted_bwtCap : s.markCounted.bwtCap = s.bwtCap := rfl
@[simp] theorem State.markCounted_powerDraw : s.markCounted.powerDraw = s.powerDraw := rfl
@[simp] theorem State.markCounted_bus : s.markCounted.bus = s.bus := rfl
@[simp] theorem State.markCounted_rdata : s.markCounted.rdata = s.rdata := rfl

end markCounted

section markMapped

variable (s : State)

@[simp] theorem State.markMapped_opa : s.markMapped.opa = s.opa := rfl
@[simp] theorem State.markMapped_res0 : s.markMapped.res0 = s.res0 := rfl
@[simp] theorem State.markMapped_res1 : s.markMapped.res1 = s.res1 := rfl
@[simp] theorem State.markMapped_inlen : s.markMapped.inlen = s.inlen := rfl
@[simp] theorem State.markMapped_pos : s.markMapped.pos = s.pos := rfl
@[simp] theorem State.markMapped_limit : s.markMapped.limit = s.limit := rfl
@[simp] theorem State.markMapped_ngroups : s.markMapped.ngroups = s.ngroups := rfl
@[simp] theorem State.markMapped_nsel : s.markMapped.nsel = s.nsel := rfl
@[simp] theorem State.markMapped_symused : s.markMapped.symused = s.symused := rfl
@[simp] theorem State.markMapped_nfav : s.markMapped.nfav = s.nfav := rfl
@[simp] theorem State.markMapped_origin : s.markMapped.origin = s.origin := rfl
@[simp] theorem State.markMapped_bwtlen : s.markMapped.bwtlen = s.bwtlen := rfl
@[simp] theorem State.markMapped_pend : s.markMapped.pend = s.pend := rfl
@[simp] theorem State.markMapped_power : s.markMapped.power = s.power := rfl
@[simp] theorem State.markMapped_selidx : s.markMapped.selidx = s.selidx := rfl
@[simp] theorem State.markMapped_chunkcnt : s.markMapped.chunkcnt = s.chunkcnt := rfl
@[simp] theorem State.markMapped_outlen : s.markMapped.outlen = s.outlen := rfl
@[simp] theorem State.markMapped_walkptr : s.markMapped.walkptr = s.walkptr := rfl
@[simp] theorem State.markMapped_blkidx : s.markMapped.blkidx = s.blkidx := rfl
@[simp] theorem State.markMapped_err : s.markMapped.err = s.err := rfl
@[simp] theorem State.markMapped_errinfo : s.markMapped.errinfo = s.errinfo := rfl
@[simp] theorem State.markMapped_fault : s.markMapped.fault = s.fault := rfl
@[simp] theorem State.markMapped_eobf : s.markMapped.eobf = s.eobf := rfl
@[simp] theorem State.markMapped_favv : s.markMapped.favv = s.favv := rfl
@[simp] theorem State.markMapped_cntv : s.markMapped.cntv = false := rfl
@[simp] theorem State.markMapped_lfv : s.markMapped.lfv = true := rfl
@[simp] theorem State.markMapped_outv : s.markMapped.outv = false := rfl
@[simp] theorem State.markMapped_tblv : s.markMapped.tblv = s.tblv := rfl
@[simp] theorem State.markMapped_used : s.markMapped.used = s.used := rfl
@[simp] theorem State.markMapped_len : s.markMapped.len = s.len := rfl
@[simp] theorem State.markMapped_sel : s.markMapped.sel = s.sel := rfl
@[simp] theorem State.markMapped_fav : s.markMapped.fav = s.fav := rfl
@[simp] theorem State.markMapped_table : s.markMapped.table = s.table := rfl
@[simp] theorem State.markMapped_base : s.markMapped.base = s.base := rfl
@[simp] theorem State.markMapped_bwt : s.markMapped.bwt = s.bwt := rfl
@[simp] theorem State.markMapped_lf : s.markMapped.lf = s.lf := rfl
@[simp] theorem State.markMapped_out : s.markMapped.out = s.out := rfl
@[simp] theorem State.markMapped_input : s.markMapped.input = s.input := rfl
@[simp] theorem State.markMapped_lent : s.markMapped.lent = s.lent := rfl
@[simp] theorem State.markMapped_bwtCap : s.markMapped.bwtCap = s.bwtCap := rfl
@[simp] theorem State.markMapped_powerDraw : s.markMapped.powerDraw = s.powerDraw := rfl
@[simp] theorem State.markMapped_bus : s.markMapped.bus = s.bus := rfl
@[simp] theorem State.markMapped_rdata : s.markMapped.rdata = s.rdata := rfl

end markMapped

section markTable

variable (s : State) (g : Fin 6)

@[simp] theorem State.markTable_opa : (s.markTable g).opa = s.opa := rfl
@[simp] theorem State.markTable_res0 : (s.markTable g).res0 = s.res0 := rfl
@[simp] theorem State.markTable_res1 : (s.markTable g).res1 = s.res1 := rfl
@[simp] theorem State.markTable_inlen : (s.markTable g).inlen = s.inlen := rfl
@[simp] theorem State.markTable_pos : (s.markTable g).pos = s.pos := rfl
@[simp] theorem State.markTable_limit : (s.markTable g).limit = s.limit := rfl
@[simp] theorem State.markTable_ngroups : (s.markTable g).ngroups = s.ngroups := rfl
@[simp] theorem State.markTable_nsel : (s.markTable g).nsel = s.nsel := rfl
@[simp] theorem State.markTable_symused : (s.markTable g).symused = s.symused := rfl
@[simp] theorem State.markTable_nfav : (s.markTable g).nfav = s.nfav := rfl
@[simp] theorem State.markTable_origin : (s.markTable g).origin = s.origin := rfl
@[simp] theorem State.markTable_bwtlen : (s.markTable g).bwtlen = s.bwtlen := rfl
@[simp] theorem State.markTable_pend : (s.markTable g).pend = s.pend := rfl
@[simp] theorem State.markTable_power : (s.markTable g).power = s.power := rfl
@[simp] theorem State.markTable_selidx : (s.markTable g).selidx = s.selidx := rfl
@[simp] theorem State.markTable_chunkcnt : (s.markTable g).chunkcnt = s.chunkcnt := rfl
@[simp] theorem State.markTable_outlen : (s.markTable g).outlen = s.outlen := rfl
@[simp] theorem State.markTable_walkptr : (s.markTable g).walkptr = s.walkptr := rfl
@[simp] theorem State.markTable_blkidx : (s.markTable g).blkidx = s.blkidx := rfl
@[simp] theorem State.markTable_err : (s.markTable g).err = s.err := rfl
@[simp] theorem State.markTable_errinfo : (s.markTable g).errinfo = s.errinfo := rfl
@[simp] theorem State.markTable_fault : (s.markTable g).fault = s.fault := rfl
@[simp] theorem State.markTable_eobf : (s.markTable g).eobf = s.eobf := rfl
@[simp] theorem State.markTable_favv : (s.markTable g).favv = s.favv := rfl
@[simp] theorem State.markTable_cntv : (s.markTable g).cntv = s.cntv := rfl
@[simp] theorem State.markTable_lfv : (s.markTable g).lfv = s.lfv := rfl
@[simp] theorem State.markTable_outv : (s.markTable g).outv = s.outv := rfl
@[simp] theorem State.markTable_tblv : (s.markTable g).tblv = s.tblv.set g.val true g.isLt := rfl
@[simp] theorem State.markTable_used : (s.markTable g).used = s.used := rfl
@[simp] theorem State.markTable_len : (s.markTable g).len = s.len := rfl
@[simp] theorem State.markTable_sel : (s.markTable g).sel = s.sel := rfl
@[simp] theorem State.markTable_fav : (s.markTable g).fav = s.fav := rfl
@[simp] theorem State.markTable_table : (s.markTable g).table = s.table := rfl
@[simp] theorem State.markTable_base : (s.markTable g).base = s.base := rfl
@[simp] theorem State.markTable_bwt : (s.markTable g).bwt = s.bwt := rfl
@[simp] theorem State.markTable_lf : (s.markTable g).lf = s.lf := rfl
@[simp] theorem State.markTable_out : (s.markTable g).out = s.out := rfl
@[simp] theorem State.markTable_input : (s.markTable g).input = s.input := rfl
@[simp] theorem State.markTable_lent : (s.markTable g).lent = s.lent := rfl
@[simp] theorem State.markTable_bwtCap : (s.markTable g).bwtCap = s.bwtCap := rfl
@[simp] theorem State.markTable_powerDraw : (s.markTable g).powerDraw = s.powerDraw := rfl
@[simp] theorem State.markTable_bus : (s.markTable g).bus = s.bus := rfl
@[simp] theorem State.markTable_rdata : (s.markTable g).rdata = s.rdata := rfl

end markTable

section setTable

variable (s : State) (g : Fin 6) (x : HuffTable)

@[simp] theorem State.setTable_opa : (s.setTable g x).opa = s.opa := rfl
@[simp] theorem State.setTable_res0 : (s.setTable g x).res0 = s.res0 := rfl
@[simp] theorem State.setTable_res1 : (s.setTable g x).res1 = s.res1 := rfl
@[simp] theorem State.setTable_inlen : (s.setTable g x).inlen = s.inlen := rfl
@[simp] theorem State.setTable_pos : (s.setTable g x).pos = s.pos := rfl
@[simp] theorem State.setTable_limit : (s.setTable g x).limit = s.limit := rfl
@[simp] theorem State.setTable_ngroups : (s.setTable g x).ngroups = s.ngroups := rfl
@[simp] theorem State.setTable_nsel : (s.setTable g x).nsel = s.nsel := rfl
@[simp] theorem State.setTable_symused : (s.setTable g x).symused = s.symused := rfl
@[simp] theorem State.setTable_nfav : (s.setTable g x).nfav = s.nfav := rfl
@[simp] theorem State.setTable_origin : (s.setTable g x).origin = s.origin := rfl
@[simp] theorem State.setTable_bwtlen : (s.setTable g x).bwtlen = s.bwtlen := rfl
@[simp] theorem State.setTable_pend : (s.setTable g x).pend = s.pend := rfl
@[simp] theorem State.setTable_power : (s.setTable g x).power = s.power := rfl
@[simp] theorem State.setTable_selidx : (s.setTable g x).selidx = s.selidx := rfl
@[simp] theorem State.setTable_chunkcnt : (s.setTable g x).chunkcnt = s.chunkcnt := rfl
@[simp] theorem State.setTable_outlen : (s.setTable g x).outlen = s.outlen := rfl
@[simp] theorem State.setTable_walkptr : (s.setTable g x).walkptr = s.walkptr := rfl
@[simp] theorem State.setTable_blkidx : (s.setTable g x).blkidx = s.blkidx := rfl
@[simp] theorem State.setTable_err : (s.setTable g x).err = s.err := rfl
@[simp] theorem State.setTable_errinfo : (s.setTable g x).errinfo = s.errinfo := rfl
@[simp] theorem State.setTable_fault : (s.setTable g x).fault = s.fault := rfl
@[simp] theorem State.setTable_eobf : (s.setTable g x).eobf = s.eobf := rfl
@[simp] theorem State.setTable_favv : (s.setTable g x).favv = s.favv := rfl
@[simp] theorem State.setTable_cntv : (s.setTable g x).cntv = s.cntv := rfl
@[simp] theorem State.setTable_lfv : (s.setTable g x).lfv = s.lfv := rfl
@[simp] theorem State.setTable_outv : (s.setTable g x).outv = s.outv := rfl
@[simp] theorem State.setTable_tblv : (s.setTable g x).tblv = s.tblv := rfl
@[simp] theorem State.setTable_used : (s.setTable g x).used = s.used := rfl
@[simp] theorem State.setTable_len : (s.setTable g x).len = s.len := rfl
@[simp] theorem State.setTable_sel : (s.setTable g x).sel = s.sel := rfl
@[simp] theorem State.setTable_fav : (s.setTable g x).fav = s.fav := rfl
@[simp] theorem State.setTable_table : (s.setTable g x).table = s.table.set g.val x g.isLt := rfl
@[simp] theorem State.setTable_base : (s.setTable g x).base = s.base := rfl
@[simp] theorem State.setTable_bwt : (s.setTable g x).bwt = s.bwt := rfl
@[simp] theorem State.setTable_lf : (s.setTable g x).lf = s.lf := rfl
@[simp] theorem State.setTable_out : (s.setTable g x).out = s.out := rfl
@[simp] theorem State.setTable_input : (s.setTable g x).input = s.input := rfl
@[simp] theorem State.setTable_lent : (s.setTable g x).lent = s.lent := rfl
@[simp] theorem State.setTable_bwtCap : (s.setTable g x).bwtCap = s.bwtCap := rfl
@[simp] theorem State.setTable_powerDraw : (s.setTable g x).powerDraw = s.powerDraw := rfl
@[simp] theorem State.setTable_bus : (s.setTable g x).bus = s.bus := rfl
@[simp] theorem State.setTable_rdata : (s.setTable g x).rdata = s.rdata := rfl

end setTable

section beginCall

variable (s : State)

@[simp] theorem State.beginCall_opa : s.beginCall.opa = s.opa := rfl
@[simp] theorem State.beginCall_res0 : s.beginCall.res0 = 0 := rfl
@[simp] theorem State.beginCall_res1 : s.beginCall.res1 = 0 := rfl
@[simp] theorem State.beginCall_inlen : s.beginCall.inlen = s.inlen := rfl
@[simp] theorem State.beginCall_pos : s.beginCall.pos = 0 := rfl
@[simp] theorem State.beginCall_limit : s.beginCall.limit = BitVec.ofNat 32 (8 * s.inlen.toNat) := rfl
@[simp] theorem State.beginCall_ngroups : s.beginCall.ngroups = s.ngroups := rfl
@[simp] theorem State.beginCall_nsel : s.beginCall.nsel = s.nsel := rfl
@[simp] theorem State.beginCall_symused : s.beginCall.symused = s.symused := rfl
@[simp] theorem State.beginCall_nfav : s.beginCall.nfav = s.nfav := rfl
@[simp] theorem State.beginCall_origin : s.beginCall.origin = s.origin := rfl
@[simp] theorem State.beginCall_bwtlen : s.beginCall.bwtlen = s.bwtlen := rfl
@[simp] theorem State.beginCall_pend : s.beginCall.pend = s.pend := rfl
@[simp] theorem State.beginCall_power : s.beginCall.power = s.power := rfl
@[simp] theorem State.beginCall_selidx : s.beginCall.selidx = s.selidx := rfl
@[simp] theorem State.beginCall_chunkcnt : s.beginCall.chunkcnt = s.chunkcnt := rfl
@[simp] theorem State.beginCall_outlen : s.beginCall.outlen = s.outlen := rfl
@[simp] theorem State.beginCall_walkptr : s.beginCall.walkptr = s.walkptr := rfl
@[simp] theorem State.beginCall_blkidx : s.beginCall.blkidx = 0 := rfl
@[simp] theorem State.beginCall_err : s.beginCall.err = s.err := rfl
@[simp] theorem State.beginCall_errinfo : s.beginCall.errinfo = s.errinfo := rfl
@[simp] theorem State.beginCall_fault : s.beginCall.fault = s.fault := rfl
@[simp] theorem State.beginCall_eobf : s.beginCall.eobf = s.eobf := rfl
@[simp] theorem State.beginCall_favv : s.beginCall.favv = s.favv := rfl
@[simp] theorem State.beginCall_cntv : s.beginCall.cntv = s.cntv := rfl
@[simp] theorem State.beginCall_lfv : s.beginCall.lfv = s.lfv := rfl
@[simp] theorem State.beginCall_outv : s.beginCall.outv = s.outv := rfl
@[simp] theorem State.beginCall_tblv : s.beginCall.tblv = s.tblv := rfl
@[simp] theorem State.beginCall_used : s.beginCall.used = s.used := rfl
@[simp] theorem State.beginCall_len : s.beginCall.len = s.len := rfl
@[simp] theorem State.beginCall_sel : s.beginCall.sel = s.sel := rfl
@[simp] theorem State.beginCall_fav : s.beginCall.fav = s.fav := rfl
@[simp] theorem State.beginCall_table : s.beginCall.table = s.table := rfl
@[simp] theorem State.beginCall_base : s.beginCall.base = s.base := rfl
@[simp] theorem State.beginCall_bwt : s.beginCall.bwt = s.bwt := rfl
@[simp] theorem State.beginCall_lf : s.beginCall.lf = s.lf := rfl
@[simp] theorem State.beginCall_out : s.beginCall.out = s.out := rfl
@[simp] theorem State.beginCall_input : s.beginCall.input = s.lent := rfl
@[simp] theorem State.beginCall_lent : s.beginCall.lent = s.lent := rfl
@[simp] theorem State.beginCall_bwtCap : s.beginCall.bwtCap = s.bwtCap := rfl
@[simp] theorem State.beginCall_powerDraw : s.beginCall.powerDraw = s.powerDraw := rfl
@[simp] theorem State.beginCall_bus : s.beginCall.bus = s.bus := rfl
@[simp] theorem State.beginCall_rdata : s.beginCall.rdata = s.rdata := rfl

end beginCall

section initBlock

variable (s : State)

@[simp] theorem State.initBlock_opa : s.initBlock.opa = s.opa := rfl
@[simp] theorem State.initBlock_res0 : s.initBlock.res0 = s.res0 := rfl
@[simp] theorem State.initBlock_res1 : s.initBlock.res1 = s.res1 := rfl
@[simp] theorem State.initBlock_inlen : s.initBlock.inlen = s.inlen := rfl
@[simp] theorem State.initBlock_pos : s.initBlock.pos = s.pos := rfl
@[simp] theorem State.initBlock_limit : s.initBlock.limit = s.limit := rfl
@[simp] theorem State.initBlock_ngroups : s.initBlock.ngroups = s.ngroups := rfl
@[simp] theorem State.initBlock_nsel : s.initBlock.nsel = s.nsel := rfl
@[simp] theorem State.initBlock_symused : s.initBlock.symused = BitVec.ofNat 9 (s.usedBytes.length + 2) := rfl
@[simp] theorem State.initBlock_nfav : s.initBlock.nfav = BitVec.ofNat 9 s.usedBytes.length := rfl
@[simp] theorem State.initBlock_origin : s.initBlock.origin = s.origin := rfl
@[simp] theorem State.initBlock_bwtlen : s.initBlock.bwtlen = 0 := rfl
@[simp] theorem State.initBlock_pend : s.initBlock.pend = 0 := rfl
@[simp] theorem State.initBlock_power : s.initBlock.power = 0 := rfl
@[simp] theorem State.initBlock_selidx : s.initBlock.selidx = 0 := rfl
@[simp] theorem State.initBlock_chunkcnt : s.initBlock.chunkcnt = 0 := rfl
@[simp] theorem State.initBlock_outlen : s.initBlock.outlen = s.outlen := rfl
@[simp] theorem State.initBlock_walkptr : s.initBlock.walkptr = s.walkptr := rfl
@[simp] theorem State.initBlock_blkidx : s.initBlock.blkidx = s.blkidx := rfl
@[simp] theorem State.initBlock_err : s.initBlock.err = s.err := rfl
@[simp] theorem State.initBlock_errinfo : s.initBlock.errinfo = s.errinfo := rfl
@[simp] theorem State.initBlock_fault : s.initBlock.fault = s.fault := rfl
@[simp] theorem State.initBlock_eobf : s.initBlock.eobf = false := rfl
@[simp] theorem State.initBlock_favv : s.initBlock.favv = true := rfl
@[simp] theorem State.initBlock_cntv : s.initBlock.cntv = false := rfl
@[simp] theorem State.initBlock_lfv : s.initBlock.lfv = false := rfl
@[simp] theorem State.initBlock_outv : s.initBlock.outv = false := rfl
@[simp] theorem State.initBlock_tblv : s.initBlock.tblv = Vector.replicate 6 false := rfl
@[simp] theorem State.initBlock_used : s.initBlock.used = s.used := rfl
@[simp] theorem State.initBlock_len : s.initBlock.len = s.len := rfl
@[simp] theorem State.initBlock_sel : s.initBlock.sel = s.sel := rfl
@[simp] theorem State.initBlock_fav : s.initBlock.fav = s.fav.splice 0 (s.usedBytes.map (BitVec.ofNat 8)) := rfl
@[simp] theorem State.initBlock_table : s.initBlock.table = s.table := rfl
@[simp] theorem State.initBlock_base : s.initBlock.base = s.base := rfl
@[simp] theorem State.initBlock_bwt : s.initBlock.bwt = s.bwt := rfl
@[simp] theorem State.initBlock_lf : s.initBlock.lf = s.lf := rfl
@[simp] theorem State.initBlock_out : s.initBlock.out = s.out := rfl
@[simp] theorem State.initBlock_input : s.initBlock.input = s.input := rfl
@[simp] theorem State.initBlock_lent : s.initBlock.lent = s.lent := rfl
@[simp] theorem State.initBlock_bwtCap : s.initBlock.bwtCap = s.bwtCap := rfl
@[simp] theorem State.initBlock_powerDraw : s.initBlock.powerDraw = s.powerDraw := rfl
@[simp] theorem State.initBlock_bus : s.initBlock.bus = s.bus := rfl
@[simp] theorem State.initBlock_rdata : s.initBlock.rdata = s.rdata := rfl

end initBlock

section runAdd

variable (s : State) (c : Nat)

@[simp] theorem State.runAdd_opa : (s.runAdd c).opa = s.opa := rfl
@[simp] theorem State.runAdd_res0 : (s.runAdd c).res0 = s.res0 := rfl
@[simp] theorem State.runAdd_res1 : (s.runAdd c).res1 = s.res1 := rfl
@[simp] theorem State.runAdd_inlen : (s.runAdd c).inlen = s.inlen := rfl
@[simp] theorem State.runAdd_pos : (s.runAdd c).pos = s.pos := rfl
@[simp] theorem State.runAdd_limit : (s.runAdd c).limit = s.limit := rfl
@[simp] theorem State.runAdd_ngroups : (s.runAdd c).ngroups = s.ngroups := rfl
@[simp] theorem State.runAdd_nsel : (s.runAdd c).nsel = s.nsel := rfl
@[simp] theorem State.runAdd_symused : (s.runAdd c).symused = s.symused := rfl
@[simp] theorem State.runAdd_nfav : (s.runAdd c).nfav = s.nfav := rfl
@[simp] theorem State.runAdd_origin : (s.runAdd c).origin = s.origin := rfl
@[simp] theorem State.runAdd_bwtlen : (s.runAdd c).bwtlen = s.bwtlen := rfl
@[simp] theorem State.runAdd_pend : (s.runAdd c).pend = BitVec.ofNat 25 (s.pend.toNat + 2 ^ (s.power.toNat + c)) := rfl
@[simp] theorem State.runAdd_power : (s.runAdd c).power = BitVec.ofNat 5 (s.power.toNat + 1) := rfl
@[simp] theorem State.runAdd_selidx : (s.runAdd c).selidx = s.selidx := rfl
@[simp] theorem State.runAdd_chunkcnt : (s.runAdd c).chunkcnt = s.chunkcnt := rfl
@[simp] theorem State.runAdd_outlen : (s.runAdd c).outlen = s.outlen := rfl
@[simp] theorem State.runAdd_walkptr : (s.runAdd c).walkptr = s.walkptr := rfl
@[simp] theorem State.runAdd_blkidx : (s.runAdd c).blkidx = s.blkidx := rfl
@[simp] theorem State.runAdd_err : (s.runAdd c).err = s.err := rfl
@[simp] theorem State.runAdd_errinfo : (s.runAdd c).errinfo = s.errinfo := rfl
@[simp] theorem State.runAdd_fault : (s.runAdd c).fault = s.fault := rfl
@[simp] theorem State.runAdd_eobf : (s.runAdd c).eobf = s.eobf := rfl
@[simp] theorem State.runAdd_favv : (s.runAdd c).favv = s.favv := rfl
@[simp] theorem State.runAdd_cntv : (s.runAdd c).cntv = s.cntv := rfl
@[simp] theorem State.runAdd_lfv : (s.runAdd c).lfv = s.lfv := rfl
@[simp] theorem State.runAdd_outv : (s.runAdd c).outv = s.outv := rfl
@[simp] theorem State.runAdd_tblv : (s.runAdd c).tblv = s.tblv := rfl
@[simp] theorem State.runAdd_used : (s.runAdd c).used = s.used := rfl
@[simp] theorem State.runAdd_len : (s.runAdd c).len = s.len := rfl
@[simp] theorem State.runAdd_sel : (s.runAdd c).sel = s.sel := rfl
@[simp] theorem State.runAdd_fav : (s.runAdd c).fav = s.fav := rfl
@[simp] theorem State.runAdd_table : (s.runAdd c).table = s.table := rfl
@[simp] theorem State.runAdd_base : (s.runAdd c).base = s.base := rfl
@[simp] theorem State.runAdd_bwt : (s.runAdd c).bwt = s.bwt := rfl
@[simp] theorem State.runAdd_lf : (s.runAdd c).lf = s.lf := rfl
@[simp] theorem State.runAdd_out : (s.runAdd c).out = s.out := rfl
@[simp] theorem State.runAdd_input : (s.runAdd c).input = s.input := rfl
@[simp] theorem State.runAdd_lent : (s.runAdd c).lent = s.lent := rfl
@[simp] theorem State.runAdd_bwtCap : (s.runAdd c).bwtCap = s.bwtCap := rfl
@[simp] theorem State.runAdd_powerDraw : (s.runAdd c).powerDraw = s.powerDraw := rfl
@[simp] theorem State.runAdd_bus : (s.runAdd c).bus = s.bus := rfl
@[simp] theorem State.runAdd_rdata : (s.runAdd c).rdata = s.rdata := rfl

end runAdd

section flush

variable (s : State)

@[simp] theorem State.flush_opa : s.flush.opa = s.opa := rfl
@[simp] theorem State.flush_res0 : s.flush.res0 = s.res0 := rfl
@[simp] theorem State.flush_res1 : s.flush.res1 = s.res1 := rfl
@[simp] theorem State.flush_inlen : s.flush.inlen = s.inlen := rfl
@[simp] theorem State.flush_pos : s.flush.pos = s.pos := rfl
@[simp] theorem State.flush_limit : s.flush.limit = s.limit := rfl
@[simp] theorem State.flush_ngroups : s.flush.ngroups = s.ngroups := rfl
@[simp] theorem State.flush_nsel : s.flush.nsel = s.nsel := rfl
@[simp] theorem State.flush_symused : s.flush.symused = s.symused := rfl
@[simp] theorem State.flush_nfav : s.flush.nfav = s.nfav := rfl
@[simp] theorem State.flush_origin : s.flush.origin = s.origin := rfl
@[simp] theorem State.flush_bwtlen : s.flush.bwtlen = BitVec.ofNat 25 (s.bwtlen.toNat + s.pend.toNat) := rfl
@[simp] theorem State.flush_pend : s.flush.pend = 0 := rfl
@[simp] theorem State.flush_power : s.flush.power = 0 := rfl
@[simp] theorem State.flush_selidx : s.flush.selidx = s.selidx := rfl
@[simp] theorem State.flush_chunkcnt : s.flush.chunkcnt = s.chunkcnt := rfl
@[simp] theorem State.flush_outlen : s.flush.outlen = s.outlen := rfl
@[simp] theorem State.flush_walkptr : s.flush.walkptr = s.walkptr := rfl
@[simp] theorem State.flush_blkidx : s.flush.blkidx = s.blkidx := rfl
@[simp] theorem State.flush_err : s.flush.err = s.err := rfl
@[simp] theorem State.flush_errinfo : s.flush.errinfo = s.errinfo := rfl
@[simp] theorem State.flush_fault : s.flush.fault = s.fault := rfl
@[simp] theorem State.flush_eobf : s.flush.eobf = s.eobf := rfl
@[simp] theorem State.flush_favv : s.flush.favv = s.favv := rfl
@[simp] theorem State.flush_cntv : s.flush.cntv = s.cntv := rfl
@[simp] theorem State.flush_lfv : s.flush.lfv = s.lfv := rfl
@[simp] theorem State.flush_outv : s.flush.outv = s.outv := rfl
@[simp] theorem State.flush_tblv : s.flush.tblv = s.tblv := rfl
@[simp] theorem State.flush_used : s.flush.used = s.used := rfl
@[simp] theorem State.flush_len : s.flush.len = s.len := rfl
@[simp] theorem State.flush_sel : s.flush.sel = s.sel := rfl
@[simp] theorem State.flush_fav : s.flush.fav = s.fav := rfl
@[simp] theorem State.flush_table : s.flush.table = s.table := rfl
@[simp] theorem State.flush_base : s.flush.base = s.base := rfl
@[simp] theorem State.flush_bwt : s.flush.bwt = s.bwt.splice s.bwtlen.toNat (List.replicate s.pend.toNat (s.favAt 0)) := rfl
@[simp] theorem State.flush_lf : s.flush.lf = s.lf := rfl
@[simp] theorem State.flush_out : s.flush.out = s.out := rfl
@[simp] theorem State.flush_input : s.flush.input = s.input := rfl
@[simp] theorem State.flush_lent : s.flush.lent = s.lent := rfl
@[simp] theorem State.flush_bwtCap : s.flush.bwtCap = s.bwtCap := rfl
@[simp] theorem State.flush_powerDraw : s.flush.powerDraw = s.powerDraw := rfl
@[simp] theorem State.flush_bus : s.flush.bus = s.bus := rfl
@[simp] theorem State.flush_rdata : s.flush.rdata = s.rdata := rfl

end flush

section emitAndPromote

variable (s : State) (c : Nat)

@[simp] theorem State.emitAndPromote_opa : (s.emitAndPromote c).opa = s.opa := rfl
@[simp] theorem State.emitAndPromote_res0 : (s.emitAndPromote c).res0 = s.res0 := rfl
@[simp] theorem State.emitAndPromote_res1 : (s.emitAndPromote c).res1 = s.res1 := rfl
@[simp] theorem State.emitAndPromote_inlen : (s.emitAndPromote c).inlen = s.inlen := rfl
@[simp] theorem State.emitAndPromote_pos : (s.emitAndPromote c).pos = s.pos := rfl
@[simp] theorem State.emitAndPromote_limit : (s.emitAndPromote c).limit = s.limit := rfl
@[simp] theorem State.emitAndPromote_ngroups : (s.emitAndPromote c).ngroups = s.ngroups := rfl
@[simp] theorem State.emitAndPromote_nsel : (s.emitAndPromote c).nsel = s.nsel := rfl
@[simp] theorem State.emitAndPromote_symused : (s.emitAndPromote c).symused = s.symused := rfl
@[simp] theorem State.emitAndPromote_nfav : (s.emitAndPromote c).nfav = s.nfav := rfl
@[simp] theorem State.emitAndPromote_origin : (s.emitAndPromote c).origin = s.origin := rfl
@[simp] theorem State.emitAndPromote_bwtlen : (s.emitAndPromote c).bwtlen = BitVec.ofNat 25 (s.bwtlen.toNat + 1) := rfl
@[simp] theorem State.emitAndPromote_pend : (s.emitAndPromote c).pend = s.pend := rfl
@[simp] theorem State.emitAndPromote_power : (s.emitAndPromote c).power = s.power := rfl
@[simp] theorem State.emitAndPromote_selidx : (s.emitAndPromote c).selidx = s.selidx := rfl
@[simp] theorem State.emitAndPromote_chunkcnt : (s.emitAndPromote c).chunkcnt = s.chunkcnt := rfl
@[simp] theorem State.emitAndPromote_outlen : (s.emitAndPromote c).outlen = s.outlen := rfl
@[simp] theorem State.emitAndPromote_walkptr : (s.emitAndPromote c).walkptr = s.walkptr := rfl
@[simp] theorem State.emitAndPromote_blkidx : (s.emitAndPromote c).blkidx = s.blkidx := rfl
@[simp] theorem State.emitAndPromote_err : (s.emitAndPromote c).err = s.err := rfl
@[simp] theorem State.emitAndPromote_errinfo : (s.emitAndPromote c).errinfo = s.errinfo := rfl
@[simp] theorem State.emitAndPromote_fault : (s.emitAndPromote c).fault = s.fault := rfl
@[simp] theorem State.emitAndPromote_eobf : (s.emitAndPromote c).eobf = s.eobf := rfl
@[simp] theorem State.emitAndPromote_favv : (s.emitAndPromote c).favv = s.favv := rfl
@[simp] theorem State.emitAndPromote_cntv : (s.emitAndPromote c).cntv = s.cntv := rfl
@[simp] theorem State.emitAndPromote_lfv : (s.emitAndPromote c).lfv = s.lfv := rfl
@[simp] theorem State.emitAndPromote_outv : (s.emitAndPromote c).outv = s.outv := rfl
@[simp] theorem State.emitAndPromote_tblv : (s.emitAndPromote c).tblv = s.tblv := rfl
@[simp] theorem State.emitAndPromote_used : (s.emitAndPromote c).used = s.used := rfl
@[simp] theorem State.emitAndPromote_len : (s.emitAndPromote c).len = s.len := rfl
@[simp] theorem State.emitAndPromote_sel : (s.emitAndPromote c).sel = s.sel := rfl
@[simp] theorem State.emitAndPromote_fav : (s.emitAndPromote c).fav = s.fav.splice 0 (s.favAt (c - 1) :: (List.range (c - 1)).map s.favAt) := rfl
@[simp] theorem State.emitAndPromote_table : (s.emitAndPromote c).table = s.table := rfl
@[simp] theorem State.emitAndPromote_base : (s.emitAndPromote c).base = s.base := rfl
@[simp] theorem State.emitAndPromote_bwt : (s.emitAndPromote c).bwt = s.bwt.write s.bwtlen.toNat (s.favAt (c - 1)) := rfl
@[simp] theorem State.emitAndPromote_lf : (s.emitAndPromote c).lf = s.lf := rfl
@[simp] theorem State.emitAndPromote_out : (s.emitAndPromote c).out = s.out := rfl
@[simp] theorem State.emitAndPromote_input : (s.emitAndPromote c).input = s.input := rfl
@[simp] theorem State.emitAndPromote_lent : (s.emitAndPromote c).lent = s.lent := rfl
@[simp] theorem State.emitAndPromote_bwtCap : (s.emitAndPromote c).bwtCap = s.bwtCap := rfl
@[simp] theorem State.emitAndPromote_powerDraw : (s.emitAndPromote c).powerDraw = s.powerDraw := rfl
@[simp] theorem State.emitAndPromote_bus : (s.emitAndPromote c).bus = s.bus := rfl
@[simp] theorem State.emitAndPromote_rdata : (s.emitAndPromote c).rdata = s.rdata := rfl

end emitAndPromote

section countSymbol

variable (s : State) (i : Nat)

@[simp] theorem State.countSymbol_opa : (s.countSymbol i).opa = s.opa := rfl
@[simp] theorem State.countSymbol_res0 : (s.countSymbol i).res0 = s.res0 := rfl
@[simp] theorem State.countSymbol_res1 : (s.countSymbol i).res1 = s.res1 := rfl
@[simp] theorem State.countSymbol_inlen : (s.countSymbol i).inlen = s.inlen := rfl
@[simp] theorem State.countSymbol_pos : (s.countSymbol i).pos = s.pos := rfl
@[simp] theorem State.countSymbol_limit : (s.countSymbol i).limit = s.limit := rfl
@[simp] theorem State.countSymbol_ngroups : (s.countSymbol i).ngroups = s.ngroups := rfl
@[simp] theorem State.countSymbol_nsel : (s.countSymbol i).nsel = s.nsel := rfl
@[simp] theorem State.countSymbol_symused : (s.countSymbol i).symused = s.symused := rfl
@[simp] theorem State.countSymbol_nfav : (s.countSymbol i).nfav = s.nfav := rfl
@[simp] theorem State.countSymbol_origin : (s.countSymbol i).origin = s.origin := rfl
@[simp] theorem State.countSymbol_bwtlen : (s.countSymbol i).bwtlen = s.bwtlen := rfl
@[simp] theorem State.countSymbol_pend : (s.countSymbol i).pend = s.pend := rfl
@[simp] theorem State.countSymbol_power : (s.countSymbol i).power = s.power := rfl
@[simp] theorem State.countSymbol_selidx : (s.countSymbol i).selidx = BitVec.ofNat 15 i := rfl
@[simp] theorem State.countSymbol_chunkcnt : (s.countSymbol i).chunkcnt = BitVec.ofNat 6 ((if s.chunkcnt.toNat = Config.chunk then 0 else s.chunkcnt.toNat) + 1) := rfl
@[simp] theorem State.countSymbol_outlen : (s.countSymbol i).outlen = s.outlen := rfl
@[simp] theorem State.countSymbol_walkptr : (s.countSymbol i).walkptr = s.walkptr := rfl
@[simp] theorem State.countSymbol_blkidx : (s.countSymbol i).blkidx = s.blkidx := rfl
@[simp] theorem State.countSymbol_err : (s.countSymbol i).err = s.err := rfl
@[simp] theorem State.countSymbol_errinfo : (s.countSymbol i).errinfo = s.errinfo := rfl
@[simp] theorem State.countSymbol_fault : (s.countSymbol i).fault = s.fault := rfl
@[simp] theorem State.countSymbol_eobf : (s.countSymbol i).eobf = s.eobf := rfl
@[simp] theorem State.countSymbol_favv : (s.countSymbol i).favv = s.favv := rfl
@[simp] theorem State.countSymbol_cntv : (s.countSymbol i).cntv = s.cntv := rfl
@[simp] theorem State.countSymbol_lfv : (s.countSymbol i).lfv = s.lfv := rfl
@[simp] theorem State.countSymbol_outv : (s.countSymbol i).outv = s.outv := rfl
@[simp] theorem State.countSymbol_tblv : (s.countSymbol i).tblv = s.tblv := rfl
@[simp] theorem State.countSymbol_used : (s.countSymbol i).used = s.used := rfl
@[simp] theorem State.countSymbol_len : (s.countSymbol i).len = s.len := rfl
@[simp] theorem State.countSymbol_sel : (s.countSymbol i).sel = s.sel := rfl
@[simp] theorem State.countSymbol_fav : (s.countSymbol i).fav = s.fav := rfl
@[simp] theorem State.countSymbol_table : (s.countSymbol i).table = s.table := rfl
@[simp] theorem State.countSymbol_base : (s.countSymbol i).base = s.base := rfl
@[simp] theorem State.countSymbol_bwt : (s.countSymbol i).bwt = s.bwt := rfl
@[simp] theorem State.countSymbol_lf : (s.countSymbol i).lf = s.lf := rfl
@[simp] theorem State.countSymbol_out : (s.countSymbol i).out = s.out := rfl
@[simp] theorem State.countSymbol_input : (s.countSymbol i).input = s.input := rfl
@[simp] theorem State.countSymbol_lent : (s.countSymbol i).lent = s.lent := rfl
@[simp] theorem State.countSymbol_bwtCap : (s.countSymbol i).bwtCap = s.bwtCap := rfl
@[simp] theorem State.countSymbol_powerDraw : (s.countSymbol i).powerDraw = s.powerDraw := rfl
@[simp] theorem State.countSymbol_bus : (s.countSymbol i).bus = s.bus := rfl
@[simp] theorem State.countSymbol_rdata : (s.countSymbol i).rdata = s.rdata := rfl

end countSymbol

section placeIndex

variable (s : State) (b j i : Nat)

@[simp] theorem State.placeIndex_opa : (s.placeIndex b j i).opa = s.opa := rfl
@[simp] theorem State.placeIndex_res0 : (s.placeIndex b j i).res0 = s.res0 := rfl
@[simp] theorem State.placeIndex_res1 : (s.placeIndex b j i).res1 = s.res1 := rfl
@[simp] theorem State.placeIndex_inlen : (s.placeIndex b j i).inlen = s.inlen := rfl
@[simp] theorem State.placeIndex_pos : (s.placeIndex b j i).pos = s.pos := rfl
@[simp] theorem State.placeIndex_limit : (s.placeIndex b j i).limit = s.limit := rfl
@[simp] theorem State.placeIndex_ngroups : (s.placeIndex b j i).ngroups = s.ngroups := rfl
@[simp] theorem State.placeIndex_nsel : (s.placeIndex b j i).nsel = s.nsel := rfl
@[simp] theorem State.placeIndex_symused : (s.placeIndex b j i).symused = s.symused := rfl
@[simp] theorem State.placeIndex_nfav : (s.placeIndex b j i).nfav = s.nfav := rfl
@[simp] theorem State.placeIndex_origin : (s.placeIndex b j i).origin = s.origin := rfl
@[simp] theorem State.placeIndex_bwtlen : (s.placeIndex b j i).bwtlen = s.bwtlen := rfl
@[simp] theorem State.placeIndex_pend : (s.placeIndex b j i).pend = s.pend := rfl
@[simp] theorem State.placeIndex_power : (s.placeIndex b j i).power = s.power := rfl
@[simp] theorem State.placeIndex_selidx : (s.placeIndex b j i).selidx = s.selidx := rfl
@[simp] theorem State.placeIndex_chunkcnt : (s.placeIndex b j i).chunkcnt = s.chunkcnt := rfl
@[simp] theorem State.placeIndex_outlen : (s.placeIndex b j i).outlen = s.outlen := rfl
@[simp] theorem State.placeIndex_walkptr : (s.placeIndex b j i).walkptr = s.walkptr := rfl
@[simp] theorem State.placeIndex_blkidx : (s.placeIndex b j i).blkidx = s.blkidx := rfl
@[simp] theorem State.placeIndex_err : (s.placeIndex b j i).err = s.err := rfl
@[simp] theorem State.placeIndex_errinfo : (s.placeIndex b j i).errinfo = s.errinfo := rfl
@[simp] theorem State.placeIndex_fault : (s.placeIndex b j i).fault = s.fault := rfl
@[simp] theorem State.placeIndex_eobf : (s.placeIndex b j i).eobf = s.eobf := rfl
@[simp] theorem State.placeIndex_favv : (s.placeIndex b j i).favv = s.favv := rfl
@[simp] theorem State.placeIndex_cntv : (s.placeIndex b j i).cntv = s.cntv := rfl
@[simp] theorem State.placeIndex_lfv : (s.placeIndex b j i).lfv = s.lfv := rfl
@[simp] theorem State.placeIndex_outv : (s.placeIndex b j i).outv = s.outv := rfl
@[simp] theorem State.placeIndex_tblv : (s.placeIndex b j i).tblv = s.tblv := rfl
@[simp] theorem State.placeIndex_used : (s.placeIndex b j i).used = s.used := rfl
@[simp] theorem State.placeIndex_len : (s.placeIndex b j i).len = s.len := rfl
@[simp] theorem State.placeIndex_sel : (s.placeIndex b j i).sel = s.sel := rfl
@[simp] theorem State.placeIndex_fav : (s.placeIndex b j i).fav = s.fav := rfl
@[simp] theorem State.placeIndex_table : (s.placeIndex b j i).table = s.table := rfl
@[simp] theorem State.placeIndex_base : (s.placeIndex b j i).base = s.base.write b (BitVec.ofNat 25 (j + 1)) := rfl
@[simp] theorem State.placeIndex_bwt : (s.placeIndex b j i).bwt = s.bwt := rfl
@[simp] theorem State.placeIndex_lf : (s.placeIndex b j i).lf = s.lf.write j (BitVec.ofNat 24 i) := rfl
@[simp] theorem State.placeIndex_out : (s.placeIndex b j i).out = s.out := rfl
@[simp] theorem State.placeIndex_input : (s.placeIndex b j i).input = s.input := rfl
@[simp] theorem State.placeIndex_lent : (s.placeIndex b j i).lent = s.lent := rfl
@[simp] theorem State.placeIndex_bwtCap : (s.placeIndex b j i).bwtCap = s.bwtCap := rfl
@[simp] theorem State.placeIndex_powerDraw : (s.placeIndex b j i).powerDraw = s.powerDraw := rfl
@[simp] theorem State.placeIndex_bus : (s.placeIndex b j i).bus = s.bus := rfl
@[simp] theorem State.placeIndex_rdata : (s.placeIndex b j i).rdata = s.rdata := rfl

end placeIndex

section setOutput

variable (s : State) (e : Nat) (bs : List Byte)

@[simp] theorem State.setOutput_opa : (s.setOutput e bs).opa = s.opa := rfl
@[simp] theorem State.setOutput_res0 : (s.setOutput e bs).res0 = s.res0 := rfl
@[simp] theorem State.setOutput_res1 : (s.setOutput e bs).res1 = s.res1 := rfl
@[simp] theorem State.setOutput_inlen : (s.setOutput e bs).inlen = s.inlen := rfl
@[simp] theorem State.setOutput_pos : (s.setOutput e bs).pos = s.pos := rfl
@[simp] theorem State.setOutput_limit : (s.setOutput e bs).limit = s.limit := rfl
@[simp] theorem State.setOutput_ngroups : (s.setOutput e bs).ngroups = s.ngroups := rfl
@[simp] theorem State.setOutput_nsel : (s.setOutput e bs).nsel = s.nsel := rfl
@[simp] theorem State.setOutput_symused : (s.setOutput e bs).symused = s.symused := rfl
@[simp] theorem State.setOutput_nfav : (s.setOutput e bs).nfav = s.nfav := rfl
@[simp] theorem State.setOutput_origin : (s.setOutput e bs).origin = s.origin := rfl
@[simp] theorem State.setOutput_bwtlen : (s.setOutput e bs).bwtlen = s.bwtlen := rfl
@[simp] theorem State.setOutput_pend : (s.setOutput e bs).pend = s.pend := rfl
@[simp] theorem State.setOutput_power : (s.setOutput e bs).power = s.power := rfl
@[simp] theorem State.setOutput_selidx : (s.setOutput e bs).selidx = s.selidx := rfl
@[simp] theorem State.setOutput_chunkcnt : (s.setOutput e bs).chunkcnt = s.chunkcnt := rfl
@[simp] theorem State.setOutput_outlen : (s.setOutput e bs).outlen = s.bwtlen := rfl
@[simp] theorem State.setOutput_walkptr : (s.setOutput e bs).walkptr = BitVec.ofNat 24 e := rfl
@[simp] theorem State.setOutput_blkidx : (s.setOutput e bs).blkidx = s.blkidx := rfl
@[simp] theorem State.setOutput_err : (s.setOutput e bs).err = s.err := rfl
@[simp] theorem State.setOutput_errinfo : (s.setOutput e bs).errinfo = s.errinfo := rfl
@[simp] theorem State.setOutput_fault : (s.setOutput e bs).fault = s.fault := rfl
@[simp] theorem State.setOutput_eobf : (s.setOutput e bs).eobf = s.eobf := rfl
@[simp] theorem State.setOutput_favv : (s.setOutput e bs).favv = s.favv := rfl
@[simp] theorem State.setOutput_cntv : (s.setOutput e bs).cntv = s.cntv := rfl
@[simp] theorem State.setOutput_lfv : (s.setOutput e bs).lfv = s.lfv := rfl
@[simp] theorem State.setOutput_outv : (s.setOutput e bs).outv = true := rfl
@[simp] theorem State.setOutput_tblv : (s.setOutput e bs).tblv = s.tblv := rfl
@[simp] theorem State.setOutput_used : (s.setOutput e bs).used = s.used := rfl
@[simp] theorem State.setOutput_len : (s.setOutput e bs).len = s.len := rfl
@[simp] theorem State.setOutput_sel : (s.setOutput e bs).sel = s.sel := rfl
@[simp] theorem State.setOutput_fav : (s.setOutput e bs).fav = s.fav := rfl
@[simp] theorem State.setOutput_table : (s.setOutput e bs).table = s.table := rfl
@[simp] theorem State.setOutput_base : (s.setOutput e bs).base = s.base := rfl
@[simp] theorem State.setOutput_bwt : (s.setOutput e bs).bwt = s.bwt := rfl
@[simp] theorem State.setOutput_lf : (s.setOutput e bs).lf = s.lf := rfl
@[simp] theorem State.setOutput_out : (s.setOutput e bs).out = s.out.splice 0 bs := rfl
@[simp] theorem State.setOutput_input : (s.setOutput e bs).input = s.input := rfl
@[simp] theorem State.setOutput_lent : (s.setOutput e bs).lent = s.lent := rfl
@[simp] theorem State.setOutput_bwtCap : (s.setOutput e bs).bwtCap = s.bwtCap := rfl
@[simp] theorem State.setOutput_powerDraw : (s.setOutput e bs).powerDraw = s.powerDraw := rfl
@[simp] theorem State.setOutput_bus : (s.setOutput e bs).bus = s.bus := rfl
@[simp] theorem State.setOutput_rdata : (s.setOutput e bs).rdata = s.rdata := rfl

end setOutput

end Sys2Proof.Machine
end

