-- ==== Sys2Proof/Laws/Ops.lean ====
section
/-! SUPPORT. What each shared operation can do: the gate of the Failed state, the operand forms, chaining, the element
reads, and the host's accesses. Proofs cite these instead of unfolding the operations. -/

namespace Sys2Proof.Machine

/-! ## The gate and the chaining -/

theorem whenRunning_failed {s : State} (h : s.fault = true) (k : Result) : whenRunning s k = .next s := by
  simp [whenRunning, h]

theorem whenRunning_running {s : State} (h : s.fault = false) (k : Result) : whenRunning s k = k := by
  simp [whenRunning, h]

/-- A gated command that answers a next state left a failed block alone or ran its body. -/
theorem whenRunning_next {s t : State} {k : Result} (h : whenRunning s k = .next t) :
    (s.fault = true ∧ t = s) ∨ (s.fault = false ∧ k = .next t) := by
  unfold whenRunning at h
  split at h
  · rename_i hf
    injection h with h
    exact .inl ⟨hf, h.symm⟩
  · rename_i hf
    exact .inr ⟨by simpa using hf, h⟩

/-- A gated command that stops the machine ran its body. -/
theorem whenRunning_fault {s : State} {k : Result} {f : Fault} (h : whenRunning s k = .fault f) :
    s.fault = false ∧ k = .fault f := by
  unfold whenRunning at h
  split at h
  · cases h
  · rename_i hf
    exact ⟨by simpa using hf, h⟩

theorem andThen_next {r : Result} {k : State → Result} {t : State} :
    Result.andThen r k = .next t ↔ ∃ s, r = .next s ∧ k s = .next t := by
  cases r <;> simp [Result.andThen]

theorem andThen_fault {r : Result} {k : State → Result} {f : Fault} :
    Result.andThen r k = .fault f ↔ r = .fault f ∨ ∃ s, r = .next s ∧ k s = .fault f := by
  cases r <;> simp [Result.andThen]

/-! ## Operand forms -/

theorem withBitCount_legal (i : Instr) {n : BitVec 5} (s : State) (k : Nat → Result) (h1 : 1 ≤ n.toNat)
    (h2 : n.toNat ≤ 24) : withBitCount i n s k = k n.toNat := by
  simp [withBitCount, bitCountLegal, Config.window, h1, h2]

/-- The bit-count form either runs its body on a legal count or raises IllegalCommand. -/
theorem withBitCount_cases (i : Instr) (n : BitVec 5) (s : State) (k : Nat → Result) :
    (1 ≤ n.toNat ∧ n.toNat ≤ 24 ∧ withBitCount i n s k = k n.toNat) ∨
      withBitCount i n s k = .next (s.raise i.op .illegalCommand i.arg) := by
  unfold withBitCount
  split
  · rename_i h
    unfold bitCountLegal at h
    rw [Bool.and_eq_true] at h
    exact .inl ⟨of_decide_eq_true h.1, of_decide_eq_true h.2, rfl⟩
  · exact .inr rfl

theorem withGroup_legal (i : Instr) {g : BitVec 3} (s : State) (k : Fin 6 → Result) (h : g.toNat < 6) :
    withGroup i g s k = k ⟨g.toNat, h⟩ := by
  simp [withGroup, h]

/-- The group form either runs its body on a legal group or raises IllegalCommand. -/
theorem withGroup_cases (i : Instr) (g : BitVec 3) (s : State) (k : Fin 6 → Result) :
    (∃ h : g.toNat < 6, withGroup i g s k = k ⟨g.toNat, h⟩) ∨
      withGroup i g s k = .next (s.raise i.op .illegalCommand i.arg) := by
  unfold withGroup
  split
  · rename_i h
    exact .inl ⟨h, rfl⟩
  · exact .inr rfl

/-! ## Element reads depend on their memory and the draw only -/

section congr

variable {s t : State} (hd : t.powerDraw = s.powerDraw)
include hd

theorem State.usedAt_congr (h : t.used = s.used) (b : Nat) : t.usedAt b = s.usedAt b := by
  unfold State.usedAt; rw [h, State.elem_congr hd]

theorem State.lenAt_congr (h : t.len = s.len) (g : Fin 6) (i : Nat) : t.lenAt g i = s.lenAt g i := by
  unfold State.lenAt; rw [h, State.elem_congr hd]

theorem State.selAt_congr (h : t.sel = s.sel) (i : Nat) : t.selAt i = s.selAt i := by
  unfold State.selAt; rw [h, State.elem_congr hd]

theorem State.favAt_congr (h : t.fav = s.fav) (i : Nat) : t.favAt i = s.favAt i := by
  unfold State.favAt; rw [h, State.elem_congr hd]

theorem State.tminOf_congr (g : Fin 6) (h : t.table[g] = s.table[g]) : t.tminOf g = s.tminOf g := by
  unfold State.tminOf; rw [h, State.elem_congr hd]

theorem State.tmaxOf_congr (g : Fin 6) (h : t.table[g] = s.table[g]) : t.tmaxOf g = s.tmaxOf g := by
  unfold State.tmaxOf; rw [h, State.elem_congr hd]

theorem State.firstAt_congr (g : Fin 6) (h : t.table[g] = s.table[g]) (l : Nat) : t.firstAt g l = s.firstAt g l := by
  unfold State.firstAt; rw [h, State.elem_congr hd]

theorem State.startAt_congr (g : Fin 6) (h : t.table[g] = s.table[g]) (l : Nat) : t.startAt g l = s.startAt g l := by
  unfold State.startAt; rw [h, State.elem_congr hd]

theorem State.symAt_congr (g : Fin 6) (h : t.table[g] = s.table[g]) (i : Nat) : t.symAt g i = s.symAt g i := by
  unfold State.symAt; rw [h, State.elem_congr hd]

theorem State.baseAt_congr (h : t.base = s.base) (b : Nat) : t.baseAt b = s.baseAt b := by
  unfold State.baseAt; rw [h, State.elem_congr hd]

theorem State.bwtAt_congr (h : t.bwt = s.bwt) (i : Nat) : t.bwtAt i = s.bwtAt i := by
  unfold State.bwtAt; rw [h, State.elem_congr hd]

theorem State.lfAt_congr (h : t.lf = s.lf) (i : Nat) : t.lfAt i = s.lfAt i := by
  unfold State.lfAt; rw [h, State.elem_congr hd]

theorem State.outAt_congr (h : t.out = s.out) (i : Nat) : t.outAt i = s.outAt i := by
  unfold State.outAt; rw [h, State.elem_congr hd]

theorem State.bwtBytes_congr (h : t.bwt = s.bwt) (hl : t.bwtlen = s.bwtlen) : t.bwtBytes = s.bwtBytes := by
  unfold State.bwtBytes
  rw [hl, show t.bwtAt = s.bwtAt from funext (State.bwtAt_congr hd h)]

/-- The lookup depends on its own table and the draw only (R106(e)). -/
theorem State.lookup_congr (g : Fin 6) (h : t.table[g] = s.table[g]) (w : Nat) : t.lookup g w = s.lookup g w := by
  unfold State.lookup State.scanLength
  simp only [State.tminOf_congr hd g h, State.tmaxOf_congr hd g h, State.firstAt_congr hd g h,
    State.startAt_congr hd g h, State.symAt_congr hd g h]

end congr

/-! ## The input space -/

/-- An input bit depends on IN and LIMIT only. -/
theorem State.inbit_congr {s t : State} (hi : t.input = s.input) (hl : t.limit = s.limit) (p : Nat) :
    t.inbit p = s.inbit p := by
  unfold State.inbit State.inByte; rw [hi, hl]

/-- `peek` is a function of IN, POS and LIMIT (R91). -/
theorem State.peek_congr {s t : State} (hi : t.input = s.input) (hl : t.limit = s.limit) (hp : t.pos = s.pos)
    (n : Nat) : t.peek n = s.peek n := by
  unfold State.peek
  rw [hp]
  congr 1
  exact List.map_congr_left fun k _ => by rw [State.inbit_congr hi hl]

theorem State.inbit_le_one (s : State) (p : Nat) : s.inbit p ≤ 1 := by
  unfold State.inbit
  split
  · exact Bool.toNat_le _
  · omega

/-! ## Host accesses -/

/-- What an aligned read does: only the word read changes. -/
theorem State.serve_read {s t : State} {size : Nat} {addr : BitVec 28} (h : s.serve (.read size addr) = .next t) :
    alignedWord size addr = true ∧ t = { s with rdata := s.hostRead addr } := by
  simp only [State.serve] at h
  split at h
  · rename_i ha
    injection h with h
    exact ⟨ha, h.symm⟩
  · cases h

/-- What an aligned write does: a command at CMD, a write of the map elsewhere. -/
theorem State.serve_write {s t : State} {size : Nat} {addr : BitVec 28} {v : Word}
    (h : s.serve (.write size addr v) = .next t) :
    alignedWord size addr = true ∧
      ((s.slotOf addr = .reg .cmd ∧ s.command v = .next t) ∨
        (s.slotOf addr ≠ .reg .cmd ∧ t = s.writeSlot v (s.slotOf addr))) := by
  simp only [State.serve] at h
  split at h
  · rename_i ha
    refine ⟨ha, ?_⟩
    unfold State.hostWrite at h
    split at h
    · rename_i hc
      exact .inl ⟨hc, h⟩
    · rename_i hc
      injection h with h
      exact .inr ⟨hc, h.symm⟩
  · cases h

/-- A word written to CMD runs the command it decodes to, or is illegal. -/
theorem State.command_cases (s : State) (v : Word) :
    (∃ i, decode v = .ok i ∧ s.command v = exec i s) ∨
      (∃ e, decode v = .error e ∧
        s.command v = whenRunning s (.next (s.raise (opField v) .illegalCommand (argField v)))) := by
  unfold State.command
  cases h : decode v with
  | ok i => exact .inl ⟨i, rfl, rfl⟩
  | error e => exact .inr ⟨e, rfl, rfl⟩

end Sys2Proof.Machine
end

