-- ==== Sys2Proof/Laws/Huffman.lean ====
section
/-! SUPPORT. The canonical code: bounds of the first codes and start indices, what a built table reads as, and what a
lookup that returns says about the scan. -/

namespace Sys2Proof.Machine

/-! ## First codes and start indices -/

theorem firstCode_one (lens : List Nat) : firstCode lens 1 = 0 := rfl

theorem firstCode_succ (lens : List Nat) {l : Nat} (h : 1 ≤ l) :
    firstCode lens (l + 1) = (firstCode lens l + lens.count l) * 2 := by
  obtain ⟨k, rfl⟩ : ∃ k, l = k + 1 := ⟨l - 1, by omega⟩
  simp [firstCode, Nat.shiftLeft_eq]

theorem startIndex_one (lens : List Nat) : startIndex lens 1 = 0 := rfl

theorem startIndex_succ (lens : List Nat) {l : Nat} (h : 1 ≤ l) :
    startIndex lens (l + 1) = startIndex lens l + lens.count l := by
  obtain ⟨k, rfl⟩ : ∃ k, l = k + 1 := ⟨l - 1, by omega⟩
  rfl

theorem count_lt_succ (lens : List Nat) (l : Nat) :
    lens.countP (fun x => decide (x < l + 1)) = lens.countP (fun x => decide (x < l)) + lens.count l := by
  induction lens with
  | nil => rfl
  | cons x xs ih =>
    simp only [List.countP_cons, List.count_cons, ih]
    by_cases h1 : x < l
    · simp [h1, show x < l + 1 by omega, show x ≠ l by omega]; omega
    · by_cases h2 : x = l
      · subst h2; simp; omega
      · simp [h1, h2, show ¬ x < l + 1 by omega]

/-- start(l) is the number of symbols with a shorter code, where no length is 0. -/
theorem startIndex_eq_countP (lens : List Nat) (h0 : ∀ x ∈ lens, 1 ≤ x) :
    ∀ l, 1 ≤ l → startIndex lens l = lens.countP (fun x => decide (x < l))
  | 0, h => by omega
  | 1, _ => by
    rw [startIndex_one, eq_comm, List.countP_eq_zero]
    intro x hx
    have := h0 x hx
    simp; omega
  | l + 2, _ => by
    rw [startIndex_succ lens (by omega : 1 ≤ l + 1), startIndex_eq_countP lens h0 (l + 1) (by omega),
      ← count_lt_succ]

theorem startIndex_le_length (lens : List Nat) (h0 : ∀ x ∈ lens, 1 ≤ x) {l : Nat} (hl : 1 ≤ l) :
    startIndex lens l ≤ lens.length := by
  rw [startIndex_eq_countP lens h0 l hl]
  exact List.countP_le_length

/-- R101: first(l) <= n × 2^(l-1). -/
theorem firstCode_le (lens : List Nat) (h0 : ∀ x ∈ lens, 1 ≤ x) :
    ∀ l, 1 ≤ l → firstCode lens l ≤ startIndex lens l * 2 ^ (l - 1)
  | 0, h => by omega
  | 1, _ => by simp [firstCode_one]
  | l + 2, _ => by
    have ih := firstCode_le lens h0 (l + 1) (by omega)
    rw [firstCode_succ lens (by omega : 1 ≤ l + 1), startIndex_succ lens (by omega : 1 ≤ l + 1)]
    have h2 : 1 ≤ 2 ^ l := Nat.one_le_two_pow
    have e : l + 2 - 1 = l + 1 := rfl
    have e1 : l + 1 - 1 = l := rfl
    rw [e, Nat.pow_succ]
    rw [e1] at ih
    calc (firstCode lens (l + 1) + lens.count (l + 1)) * 2
        ≤ (startIndex lens (l + 1) * 2 ^ l + lens.count (l + 1) * 2 ^ l) * 2 := by
          have := Nat.le_mul_of_pos_right (lens.count (l + 1)) (show 0 < 2 ^ l by omega)
          omega
      _ = (startIndex lens (l + 1) + lens.count (l + 1)) * (2 ^ l * 2) := by ring

/-! ## What a built table reads as -/

section build

variable {s : State} {g : Fin 6} {old : HuffTable} {lens : List Nat} (h : s.table[g] = old.build lens)
include h

theorem State.tminOf_build : s.tminOf g = BitVec.ofNat 5 (leastLength lens) := by
  unfold State.tminOf
  rw [h]
  simp [HuffTable.build, State.elem_write]

theorem State.tmaxOf_build : s.tmaxOf g = BitVec.ofNat 5 (greatestLength lens) := by
  unfold State.tmaxOf
  rw [h]
  simp [HuffTable.build, State.elem_write]

theorem State.firstAt_build {l : Nat} (h1 : 1 ≤ l) (h2 : l ≤ 21) :
    s.firstAt g l = BitVec.ofNat 32 (firstCode lens l) := by
  unfold State.firstAt
  rw [h]
  simp only [HuffTable.build, State.elem_splice, List.length_map, List.length_range']
  rw [dif_pos ⟨h1, by omega⟩]
  simp only [List.getElem_map, List.getElem_range']
  congr 2
  omega

theorem State.startAt_build {l : Nat} (h1 : 1 ≤ l) (h2 : l ≤ 21) :
    s.startAt g l = BitVec.ofNat 9 (startIndex lens l) := by
  unfold State.startAt
  rw [h]
  simp only [HuffTable.build, State.elem_splice, List.length_map, List.length_range']
  rw [dif_pos ⟨h1, by omega⟩]
  simp only [List.getElem_map, List.getElem_range']
  congr 2
  omega

theorem State.symAt_build {i : Nat} (hi : i < (sortedSymbols lens).length) :
    s.symAt g i = BitVec.ofNat 9 (sortedSymbols lens)[i] := by
  unfold State.symAt
  rw [h]
  simp only [HuffTable.build, State.elem_splice, List.length_map]
  rw [dif_pos ⟨by omega, by omega⟩]
  simp

end build

/-! ## What a returned lookup says -/

/-- A hit names a length of the scan, a window inside that length's codes' lower end, and an element of SYM. -/
theorem State.lookup_hit {s : State} {g : Fin 6} {w l sym : Nat} (h : s.lookup g w = .hit l sym) :
    s.scanLength g w = some l ∧ 1 ≤ (s.tminOf g).toNat ∧ (s.tmaxOf g).toNat ≤ 20 ∧
      (s.firstAt g l).toNat ≤ w >>> (24 - l) ∧
      (s.startAt g l).toNat + (w >>> (24 - l) - (s.firstAt g l).toNat) < 258 ∧
      sym = (s.symAt g ((s.startAt g l).toNat + (w >>> (24 - l) - (s.firstAt g l).toNat))).toNat := by
  unfold State.lookup at h
  split at h
  · cases h
  · rename_i h1
    split at h
    · cases h
    · rename_i h2
      split at h
      · cases h
      · rename_i l' hl
        split at h
        · cases h
        · rename_i h3
          dsimp only at h
          split at h
          · rename_i h4
            injection h with ha hb
            subst ha
            simp only [Config.lenMin, Config.lenMax, Config.symusedMax] at h1 h2 h4
            exact ⟨hl, by omega, by omega, by omega, h4, hb.symm⟩
          · cases h

/-- The scan returns the least length from TMIN to TMAX whose next first code exceeds the window. -/
theorem State.scanLength_some {s : State} {g : Fin 6} {w l : Nat} (h : s.scanLength g w = some l) :
    (s.tminOf g).toNat ≤ l ∧ l ≤ (s.tmaxOf g).toNat ∧ w < (s.firstAt g (l + 1)).toNat <<< (23 - l) := by
  unfold State.scanLength at h
  have h1 := List.mem_of_find?_eq_some h
  have h2 := List.find?_some h
  rw [List.mem_range'_1] at h1
  exact ⟨by omega, by omega, by simpa using h2⟩

end Sys2Proof.Machine
end

