-- ==== Sys2Proof/Laws/Lfu.lean ====
section
/-! SUPPORT. What the three phases of the LF unit can do, and what each leaves alone. -/

namespace Sys2Proof.Machine

/-- What LCOUNT's operation can do. -/
theorem State.lcountBody_next {s t : State} (h : s.lcountBody = .next t) :
    s.bwtlen.toNat ≤ s.bwtCap ∧
      t = State.markCounted { s with
        base := s.base.splice 0 ((List.range 256).map (fun b => BitVec.ofNat 25 (countBelow s.bwtBytes b))) } := by
  unfold State.lcountBody at h
  split at h
  · cases h
  · rename_i hc
    injection h with h
    exact ⟨by omega, h.symm⟩

theorem countBelow_le_length (bs : List Byte) (b : Nat) : countBelow bs b ≤ bs.length :=
  List.countP_le_length

theorem State.bwtBytes_length (s : State) : s.bwtBytes.length = s.bwtlen.toNat := by
  simp [State.bwtBytes]

/-- The loop of LMAP as an induction: what placing one index keeps, the loop keeps. -/
theorem lmapLoop_keeps {P : State → Prop}
    (hplace : ∀ s i, P s → (s.baseAt (s.bwtAt i).toNat).toNat < s.bwtCap →
      P (s.placeIndex (s.bwtAt i).toNat (s.baseAt (s.bwtAt i).toNat).toNat i)) :
    ∀ {is : List Nat} {s t : State}, P s → lmapLoop is s = some t → P t
  | [], s, t, hs, h => by
    injection h with h
    exact h ▸ hs
  | i :: is, s, t, hs, h => by
    unfold lmapLoop at h
    split at h
    · rename_i hi
      exact lmapLoop_keeps hplace (hplace s i hs hi) h
    · cases h

/-- The loop of LMAP writes LF and BASE and nothing else. -/
theorem lmapLoop_frame {is : List Nat} {s t : State} (h : lmapLoop is s = some t) :
    t = { s with lf := t.lf, base := t.base } :=
  lmapLoop_keeps (P := fun t => t = { s with lf := t.lf, base := t.base })
    (fun u i hu _ => by rw [hu]; rfl) rfl h

/-- What LMAP's operation can do. -/
theorem State.lmapBody_next {s t : State} (h : s.lmapBody = .next t) :
    s.bwtlen.toNat ≤ s.bwtCap ∧ ∃ u, lmapLoop (List.range s.bwtlen.toNat) s = some u ∧ t = u.markMapped := by
  unfold State.lmapBody at h
  split at h
  · cases h
  · rename_i hc
    split at h
    · cases h
    · rename_i u hu
      injection h with h
      exact ⟨by omega, u, hu, h.symm⟩

/-- The walk emits one byte per step. -/
theorem State.walk_length {s : State} :
    ∀ {k p e : Nat} {bs : List Byte}, s.walk k p = some (e, bs) → bs.length = k
  | 0, p, e, bs, h => by
    unfold State.walk at h
    injection h with h
    injection h with _ h
    simp [← h]
  | k + 1, p, e, bs, h => by
    unfold State.walk at h
    split at h
    · split at h
      · cases h
      · rename_i e' bs' hw
        injection h with h
        injection h with _ h
        have := State.walk_length hw
        simp [← h, this]
    · cases h

/-- A walk over a map whose entries all name elements stays inside (R142). -/
theorem State.walk_isSome {s : State} {n : Nat} (hn : n ≤ s.bwtCap) (hlf : ∀ j, j < n → (s.lfAt j).toNat < n) :
    ∀ (k p : Nat), p < n → ∃ r, s.walk k p = some r
  | 0, p, _ => ⟨_, rfl⟩
  | k + 1, p, hp => by
    have h1 := hlf p hp
    obtain ⟨r, hr⟩ := State.walk_isSome hn hlf k _ h1
    unfold State.walk
    rw [if_pos (by omega), hr]
    exact ⟨_, rfl⟩

/-- What LWALK's operation can do. -/
theorem State.lwalkBody_next {s t : State} (h : s.lwalkBody = .next t) :
    s.bwtlen.toNat ≤ s.bwtCap ∧ ∃ e bs, s.walk s.bwtlen.toNat s.origin.toNat = some (e, bs) ∧ t = s.setOutput e bs := by
  unfold State.lwalkBody at h
  split at h
  · cases h
  · rename_i hc
    split at h
    · cases h
    · rename_i e bs hw
      injection h with h
      exact ⟨by omega, e, bs, hw, h.symm⟩

end Sys2Proof.Machine
end

