-- ==== Sys2Proof/Laws/Mtf.lean ====
section
/-! SUPPORT. What processing a symbol and one MSTEP can do, said once. -/

namespace Sys2Proof.Machine

/-! ## Symbols -/

/-- A run code that raises nothing fits the capacity (R122 check 3). -/
theorem State.symFault_run {s : State} {c : Nat} (hc : symClass s.symused.toNat c = .run) (h : s.symFault c = none) :
    s.bwtlen.toNat + s.pend.toNat + 2 ^ (s.power.toNat + c) ≤ s.bwtCap := by
  unfold State.symFault at h
  rw [hc] at h
  dsimp only at h
  split at h
  · cases h
  · omega

/-- A literal that raises nothing fits the capacity (R122 check 4). -/
theorem State.symFault_literal {s : State} {c : Nat} (hc : symClass s.symused.toNat c = .literal)
    (h : s.symFault c = none) : s.bwtlen.toNat + s.pend.toNat + 1 ≤ s.bwtCap := by
  unfold State.symFault at h
  rw [hc] at h
  dsimp only at h
  split at h
  · cases h
  · omega

/-- A code that raises nothing is a symbol (R122 check 2). -/
theorem State.symFault_none {s : State} {c : Nat} (h : s.symFault c = none) : symClass s.symused.toNat c ≠ .notSymbol := by
  intro hc
  unfold State.symFault at h
  rw [hc] at h
  cases h

/-- The fault checks of MSYM raise InvalidSymbol or BufferOverflow and nothing else. -/
theorem State.symFault_some {s : State} {c : Nat} {k : FaultKind} {d : BitVec 24} (h : s.symFault c = some (k, d)) :
    (k = .invalidSymbol ∧ d = BitVec.ofNat 24 c) ∨ (k = .bufferOverflow ∧ d = 0) := by
  unfold State.symFault at h
  split at h
  · injection h with h; injection h with h1 h2; exact .inl ⟨h1.symm, h2.symm⟩
  · split at h
    · injection h with h; injection h with h1 h2; exact .inr ⟨h1.symm, h2.symm⟩
    · cases h
  · split at h
    · injection h with h; injection h with h1 h2; exact .inr ⟨h1.symm, h2.symm⟩
    · cases h
  · cases h

/-- Processing a symbol that needs no missing element: a literal's favourite exists. -/
theorem State.symOutside_literal {s : State} {c : Nat} (hc : symClass s.symused.toNat c = .literal)
    (h : s.symOutside c = none) : c - 1 < 256 := by
  unfold State.symOutside at h
  rw [hc] at h
  dsimp only at h
  split at h
  · cases h
  · rename_i hn
    simp only [Config.nfavMax] at hn
    omega

/-- What processing a symbol can do (R122): one of the three operations, then CNTV, LFV, OUTV cleared. -/
theorem State.symApply_cases (s : State) {c : Nat} (h : symClass s.symused.toNat c ≠ .notSymbol) :
    (symClass s.symused.toNat c = .run ∧ s.symApply c = (s.runAdd c).clearInverse) ∨
      (symClass s.symused.toNat c = .endOfBlock ∧ s.symApply c = { s.flush with eobf := true }.clearInverse) ∨
        (symClass s.symused.toNat c = .literal ∧ s.symApply c = (s.flush.emitAndPromote c).clearInverse) := by
  unfold State.symApply
  cases hc : symClass s.symused.toNat c
  · exact .inl ⟨rfl, rfl⟩
  · exact .inr (.inl ⟨rfl, rfl⟩)
  · exact .inr (.inr ⟨rfl, rfl⟩)
  · exact absurd hc h

theorem symClass_run {n c : Nat} : symClass n c = .run ↔ c < n ∧ c ≤ 1 := by
  unfold symClass
  split
  · simp; omega
  · split
    · simp; omega
    · split <;> simp <;> omega

theorem symClass_endOfBlock {n c : Nat} : symClass n c = .endOfBlock ↔ 2 ≤ c ∧ c + 1 = n := by
  unfold symClass
  split
  · simp; omega
  · split
    · simp; omega
    · split <;> simp <;> omega

theorem symClass_literal {n c : Nat} : symClass n c = .literal ↔ 2 ≤ c ∧ c + 1 < n := by
  unfold symClass
  split
  · simp; omega
  · split
    · simp; omega
    · split <;> simp <;> omega

/-! ## One MSTEP -/

/-- The state an MSTEP commits (R126): cursor, chunk position, result, then the symbol. -/
def State.commitStep (s : State) (i l sym : Nat) : State :=
  (((s.setPos (s.pos.toNat + l)).countSymbol i).setResult sym l).symApply sym

/-- What checks (6) to (8) and the operation of MSTEP can do. -/
theorem State.decodeAndProcess_next {s t : State} {op : BitVec 8} {g : Fin 6} {i : Nat}
    (h : s.decodeAndProcess op g i = .next t) :
    (∃ k d, t = s.raise op k d ∧
      (k = .invalidCode ∨ k = .truncation ∨ k = .invalidSymbol ∨ k = .bufferOverflow)) ∨
    (∃ l sym, s.lookup g (s.peek Config.window) = .hit l sym ∧ s.pos.toNat + l ≤ s.limit.toNat ∧
      s.symFault sym = none ∧ s.symOutside sym = none ∧ t = s.commitStep i l sym) := by
  unfold State.decodeAndProcess at h
  split at h
  · injection h with h
    exact .inl ⟨_, _, h.symm, .inl rfl⟩
  · cases h
  · rename_i l sym hl
    split at h
    · injection h with h
      exact .inl ⟨_, _, h.symm, .inr (.inl rfl)⟩
    · rename_i hlim
      split at h
      · rename_i k d hk
        injection h with h
        rcases State.symFault_some hk with ⟨hk', -⟩ | ⟨hk', -⟩
        · exact .inl ⟨_, _, h.symm, .inr (.inr (.inl hk'))⟩
        · exact .inl ⟨_, _, h.symm, .inr (.inr (.inr hk'))⟩
      · rename_i hf
        split at h
        · cases h
        · rename_i ho
          injection h with h
          exact .inr ⟨l, sym, hl, by omega, hf, ho, h.symm⟩

/-- What one MSTEP can do: raise one of its faults, or pass every check of R126 and commit. -/
theorem State.mstepWith_next {s t : State} {op : BitVec 8} (h : s.mstepWith op = .next t) :
    (∃ k d, t = s.raise op k d ∧
      (k = .sequence ∨ k = .invalidGroupCount ∨ k = .missingEndSymbol ∨ k = .invalidSelector ∨
        k = .invalidCode ∨ k = .truncation ∨ k = .invalidSymbol ∨ k = .bufferOverflow)) ∨
    (s.favv = true ∧ s.eobf = false ∧ 2 ≤ s.ngroups.toNat ∧ s.ngroups.toNat ≤ 6 ∧
      s.nextSelector < s.nsel.toNat ∧ (s.selAt s.nextSelector).toNat < s.ngroups.toNat ∧
      ∃ (g : Fin 6) (l sym : Nat), g.val = (s.selAt s.nextSelector).toNat ∧ s.tblv[g] = true ∧
        s.lookup g (s.peek Config.window) = .hit l sym ∧ s.pos.toNat + l ≤ s.limit.toNat ∧
        s.symFault sym = none ∧ s.symOutside sym = none ∧ t = s.commitStep s.nextSelector l sym) := by
  unfold State.mstepWith at h
  split at h
  · injection h with h
    exact .inl ⟨_, _, h.symm, .inl rfl⟩
  · rename_i h1
    split at h
    · injection h with h
      exact .inl ⟨_, _, h.symm, .inr (.inl rfl)⟩
    · rename_i h2
      split at h
      · injection h with h
        exact .inl ⟨_, _, h.symm, .inr (.inr (.inl rfl))⟩
      · rename_i h3
        split at h
        · injection h with h
          exact .inl ⟨_, _, h.symm, .inr (.inr (.inr (.inl rfl)))⟩
        · rename_i h4
          dsimp only at h
          split at h
          · injection h with h
            exact .inl ⟨_, _, h.symm, .inl rfl⟩
          · rename_i h5
            simp only [Bool.or_eq_true, Bool.not_eq_true', not_or, Bool.not_eq_false, Bool.not_eq_true] at h1
            simp only [Config.ngroupsMin, Config.ngroupsMax, not_or, Nat.not_lt] at h2
            rcases State.decodeAndProcess_next h with ⟨k, d, ht, hk⟩ | ⟨l, sym, hl, hlim, hf, ho, ht⟩
            · refine .inl ⟨k, d, ht, ?_⟩
              rcases hk with hk | hk | hk | hk <;> simp [hk]
            · exact .inr ⟨h1.1, h1.2, h2.1, h2.2, by omega, by omega, _, l, sym, rfl,
                by simpa using h5, hl, hlim, hf, ho, ht⟩

/-- Processing a symbol leaves the fault record's flag alone. -/
@[simp] theorem State.symApply_fault (s : State) (c : Nat) : (s.symApply c).fault = s.fault := by
  unfold State.symApply
  split <;> rfl

@[simp] theorem State.commitStep_fault (s : State) (i l sym : Nat) : (s.commitStep i l sym).fault = s.fault := by
  simp [State.commitStep]

/-- The outcome of a part of MSTEP, as a function of the opcode byte of the issuing command: that byte shows in the
fault record alone (R16, R127). -/
def OpcodeShape (s : State) (r : BitVec 8 → Result) : Prop :=
  (∃ k d, ∀ op, r op = .next (s.raise op k d)) ∨ (∃ u, u.fault = s.fault ∧ ∀ op, r op = .next u) ∨
    ∃ f, ∀ op, r op = .fault f

theorem State.decodeAndProcess_shape (s : State) (g : Fin 6) (i : Nat) :
    OpcodeShape s fun op => s.decodeAndProcess op g i := by
  unfold OpcodeShape State.decodeAndProcess
  split
  · exact .inl ⟨_, _, fun _ => rfl⟩
  · exact .inr (.inr ⟨_, fun _ => rfl⟩)
  · split
    · exact .inl ⟨_, _, fun _ => rfl⟩
    · split
      · exact .inl ⟨_, _, fun _ => rfl⟩
      · split
        · exact .inr (.inr ⟨_, fun _ => rfl⟩)
        · exact .inr (.inl ⟨_, State.commitStep_fault .., fun _ => rfl⟩)

theorem State.mstepWith_shape (s : State) : OpcodeShape s s.mstepWith := by
  unfold OpcodeShape State.mstepWith
  split
  · exact .inl ⟨_, _, fun _ => rfl⟩
  · split
    · exact .inl ⟨_, _, fun _ => rfl⟩
    · split
      · exact .inl ⟨_, _, fun _ => rfl⟩
      · split
        · exact .inl ⟨_, _, fun _ => rfl⟩
        · dsimp only
          split
          · exact .inl ⟨_, _, fun _ => rfl⟩
          · exact State.decodeAndProcess_shape ..

/-! ## MBLOCK -/

theorem mblockLoop_succ (op : BitVec 8) (k : Nat) (s : State) :
    mblockLoop op (k + 1) s = Result.andThen (s.mstepWith op) fun t =>
      if t.eobf || t.fault then .next t else mblockLoop op k t := rfl

/-- MBLOCK as an induction over its completed MSTEPs: what every MSTEP keeps, the state MBLOCK leaves has. -/
theorem mblockLoop_keeps {op : BitVec 8} {P : State → Prop}
    (hstep : ∀ s t, P s → s.mstepWith op = .next t → P t) :
    ∀ {k : Nat} {s t : State}, P s → mblockLoop op k s = .next t → P t
  | 0, _, _, _, h => by cases h
  | k + 1, s, t, hs, h => by
    rw [mblockLoop_succ, andThen_next] at h
    obtain ⟨u, hu, h⟩ := h
    have hPu := hstep s u hs hu
    split at h
    · injection h with h
      exact h ▸ hPu
    · exact mblockLoop_keeps hstep hPu h

/-- MBLOCK stops only at the end-of-block code or at a fault. -/
theorem mblockLoop_ends {op : BitVec 8} :
    ∀ {k : Nat} {s t : State}, mblockLoop op k s = .next t → (t.eobf || t.fault) = true
  | 0, _, _, h => by cases h
  | k + 1, s, t, h => by
    rw [mblockLoop_succ, andThen_next] at h
    obtain ⟨u, -, h⟩ := h
    split at h
    · rename_i hu
      injection h with h
      exact h ▸ hu
    · exact mblockLoop_ends h

end Sys2Proof.Machine
end

