-- ==== Sys2Proof/Laws/PerInstr.lean ====
section
/-! SUPPORT. Statements about every command as syntax, one lemma per constructor (LAWS.json). -/

namespace Sys2Proof.Laws.WordFields

/-- The command's word carries its opcode byte and its arg where R60 puts them. -/
def Statement (i : Instr) : Prop := opField (encode i) = i.op ∧ argField (encode i) = i.arg

theorem nop : Statement .nop := by unfold Statement; decide
theorem start : Statement .start := by unfold Statement; decide
theorem blkend : Statement .blkend := by unfold Statement; decide
theorem bseek : Statement .bseek := by unfold Statement; decide
theorem bpeek (n : BitVec 5) : Statement (.bpeek n) := by revert n; unfold Statement; decide
theorem bcons (n : BitVec 5) : Statement (.bcons n) := by revert n; unfold Statement; decide
theorem hbuild (g : BitVec 3) : Statement (.hbuild g) := by revert g; unfold Statement; decide
theorem hlook (g : BitVec 3) : Statement (.hlook g) := by revert g; unfold Statement; decide
theorem hdec (g : BitVec 3) : Statement (.hdec g) := by revert g; unfold Statement; decide
theorem minit : Statement .minit := by unfold Statement; decide
theorem msym : Statement .msym := by unfold Statement; decide
theorem mstep : Statement .mstep := by unfold Statement; decide
theorem mblock : Statement .mblock := by unfold Statement; decide
theorem lcount : Statement .lcount := by unfold Statement; decide
theorem lmap : Statement .lmap := by unfold Statement; decide
theorem lwalk : Statement .lwalk := by unfold Statement; decide
theorem linv : Statement .linv := by unfold Statement; decide

end Sys2Proof.Laws.WordFields
end

