-- ==== Sys2Proof/Tests/Slice0.lean ====
section
/-! SUPPORT. The model's own tests. Expected results come from the vectors and examples of the spec (95_test_vectors.md and
the Example parts of the rules); each theorem names its source. Every test is one decode or one step. -/

-- Many kernel evaluations at once, each on a thread with a large stack, do not fit in memory.
set_option Elab.async false

namespace Sys2Proof.Machine.Tests

/-! ## Helpers -/

/-- Some fields of the next state, or none where the outcome is a stop. -/
def seen {α : Type} (r : Result) (f : State → α) : Option α :=
  match r with
  | .next t => some (f t)
  | .fault _ => none
  | .refused _ => none

/-- The refusal of a step that is refused. -/
def refusal? : Result → Option Refusal
  | .next _ => none
  | .fault _ => none
  | .refused r => some r

/-- A running call over the bytes `bs` with the cursor at `p` (as START leaves it). -/
def onInput (bs : List Byte) (p : Nat) : State :=
  { State.reset with
    input := ⟨bs, 0⟩
    inlen := BitVec.ofNat 29 bs.length
    limit := BitVec.ofNat 32 (8 * bs.length)
    pos := BitVec.ofNat 32 p }

/-- Table 0 built by HBUILD from code lengths, in a block with FAVV = 1 and as many symbols as lengths. -/
def withTable (s : State) (lens : List Nat) : State :=
  { s with
    favv := true
    nfav := BitVec.ofNat 9 (lens.length - 2)
    symused := BitVec.ofNat 9 lens.length
    table := s.table.set 0 (HuffTable.blank.build lens)
    tblv := s.tblv.set 0 true }

/-- LEN[0] holding code lengths, not built yet. -/
def withLengths (lens : List Nat) : State :=
  { State.reset with
    favv := true
    nfav := BitVec.ofNat 9 (lens.length - 2)
    symused := BitVec.ofNat 9 lens.length
    len := State.reset.len.set 0 (Memory.consecutive 0 (lens.map (BitVec.ofNat 8))) }

/-- A block in which MINIT has made the favourites list `favs`, with OPA = c. -/
def inBlock (favs : List Byte) (c : Word) : State :=
  { State.reset with
    favv := true
    nfav := BitVec.ofNat 9 favs.length
    symused := BitVec.ofNat 9 (favs.length + 2)
    fav := Memory.consecutive 0 favs
    opa := c }

/-- A BWT buffer loaded by the host, with an origin. -/
def withBuffer (bs : List Byte) (o : Nat) : State :=
  { State.reset with
    bwt := Memory.consecutive 0 bs
    bwtlen := BitVec.ofNat 25 bs.length
    origin := BitVec.ofNat 24 o }

/-- The stream of B1 to B18: 42 5A 68 39. -/
def magic : List Byte := [0x42, 0x5A, 0x68, 0x39]

/-- "nnbaaa", the buffer of L1. -/
def nnbaaa : List Byte := [110, 110, 98, 97, 97, 97]

/-! ## Well-formedness and decoding (R61, R63, R64) -/

theorem test_wf_bit_count_zero : (Instr.bpeek 0).wf = false ∧ (Instr.bcons 0).wf = false := by decide
theorem test_wf_bit_count_25 : (Instr.bpeek 25).wf = false ∧ (Instr.bcons 25).wf = false := by decide
theorem test_wf_bit_count_edges : (Instr.bpeek 1).wf = true ∧ (Instr.bcons 24).wf = true := by decide
theorem test_wf_group_six :
    (Instr.hbuild 6).wf = false ∧ (Instr.hlook 7).wf = false ∧ (Instr.hdec 6).wf = false := by decide
theorem test_wf_group_edges : (Instr.hbuild 0).wf = true ∧ (Instr.hdec 5).wf = true := by decide

/-- R63, the words of the control and bit-cursor rows written out bit by bit (op, then arg). -/
theorem test_decode_control :
    decode 0b00000000_000000000000000000000000#32 = .ok .nop ∧
    decode 0b00000001_000000000000000000000000#32 = .ok .start ∧
    decode 0b00000010_000000000000000000000000#32 = .ok .blkend := by decide
theorem test_decode_bit_cursor :
    decode 0b00010000_000000000000000000000000#32 = .ok .bseek ∧
    decode 0b00010001_0000000000000000000_00001#32 = .ok (.bpeek 1) ∧
    decode 0b00010010_0000000000000000000_11000#32 = .ok (.bcons 24) := by decide
theorem test_decode_huffman :
    decode 0b00100000_000000000000000000000_101#32 = .ok (.hbuild 5) ∧
    decode 0b00100001_000000000000000000000_011#32 = .ok (.hlook 3) ∧
    decode 0b00100010_000000000000000000000_100#32 = .ok (.hdec 4) := by decide
theorem test_decode_mtf :
    decode 0b00110000_000000000000000000000000#32 = .ok .minit ∧
    decode 0b00110001_000000000000000000000000#32 = .ok .msym ∧
    decode 0b00110010_000000000000000000000000#32 = .ok .mstep ∧
    decode 0b00110011_000000000000000000000000#32 = .ok .mblock := by decide
theorem test_decode_lfu :
    decode 0b01000000_000000000000000000000000#32 = .ok .lcount ∧
    decode 0b01000001_000000000000000000000000#32 = .ok .lmap ∧
    decode 0b01000010_000000000000000000000000#32 = .ok .lwalk ∧
    decode 0b01000011_000000000000000000000000#32 = .ok .linv := by decide
/-- E1 to E8: every illegal word, by its reason. -/
theorem test_decode_illegal :
    decode 0x12000000 = .error .bitCountOutOfRange ∧ decode 0x12000019 = .error .bitCountOutOfRange ∧
    decode 0x11000028 = .error .bitCountReservedBits ∧ decode 0x00000001 = .error .operandNotZero ∧
    decode 0x13000000 = .error .unknownOpcode ∧ decode 0xFF123456 = .error .unknownOpcode ∧
    decode 0x20000006 = .error .groupOutOfRange ∧ decode 0x20000008 = .error .groupReservedBits := by decide
theorem test_decode_table_word : decodeTableWord 32 0x33000000 = some .mblock ∧ decodeTableWord 32 0x13000000 = none := by
  decide

/-! ## Control (40_control.md) -/

/-- K2: INLEN = 4, START gives LIMIT = 32. -/
theorem test_start : seen (exec .start { State.reset with inlen := 4 })
    (fun t => (t.limit, t.pos, t.status, t.blkidx)) = some (32, 0, 0, 0) := by decide
/-- P5: START leaves the Failed state. -/
theorem test_start_after_fault :
    seen (exec .start ((onInput magic 9).raise 0x12 .truncation 16)) (fun t => (t.status, t.errinfo, t.pos)) =
      some (0, 0, 0) := by decide
/-- R82's example and K4: BLKEND counts the block and keeps POS. -/
theorem test_blkend : seen (exec .blkend { withBuffer nnbaaa 3 with eobf := true, favv := true, pos := 231 })
    (fun t => (t.blkidx, t.status, t.bwtlen, t.pos, t.bwt.length)) = some (1, 0, 0, 231, 6) := by decide
theorem test_blkend_wraps : seen (exec .blkend { State.reset with blkidx := 0xFFFFFFFF }) (fun t => t.blkidx) =
    some 0 := by decide
/-- R80: NOP changes nothing. -/
theorem test_nop : seen (exec .nop State.reset) (fun t => decide (t = State.reset)) = some true := by decide

/-! ## Bit cursor (section 2.2) -/

set_option maxRecDepth 4000 in
/-- B8, B10: lookahead past the end is zero-padded. -/
theorem test_bpeek_padded :
    seen (exec (.bpeek 24) (onInput magic 24)) (fun t => (t.res0, t.res1, t.pos)) = some (0x390000, 24, 24) ∧
    seen (exec (.bpeek 5) (onInput magic 28)) (fun t => (t.res0, t.res1, t.pos)) = some (0x12, 5, 28) := by decide
set_option maxRecDepth 4000 in
/-- B7, B16: BCONS across byte boundaries. -/
theorem test_bcons :
    seen (exec (.bcons 24) (onInput magic 0)) (fun t => (t.res0, t.res1, t.pos)) = some (0x425A68, 24, 24) ∧
    seen (exec (.bcons 19) (onInput magic 13)) (fun t => (t.res0, t.res1, t.pos)) = some (0x26839, 19, 32) := by
  decide
/-- B13: consuming past LIMIT. -/
theorem test_bcons_truncation : seen (exec (.bcons 1) (onInput magic 32))
    (fun t => (t.status, t.errinfo, t.pos)) = some (0x00010001, 0x12000001, 32) := by decide
/-- B17, B18: BSEEK to LIMIT and past it. -/
theorem test_bseek :
    seen (exec .bseek { onInput magic 13 with opa := 32 }) (fun t => (t.pos, t.status)) = some (32, 0) ∧
    seen (exec .bseek { onInput magic 32 with opa := 33 }) (fun t => (t.pos, t.status, t.errinfo)) =
      some (32, 0x00010001, 0x10000000) := by decide

/-! ## Huffman (section 2.3) -/

/-- H1. -/
theorem test_hbuild : seen (exec (.hbuild 0) (withLengths [3, 3, 2, 2, 2]))
    (fun t => t.status == 0x104 && t.tminOf 0 == 2 && t.tmaxOf 0 == 3 &&
      (List.range' 1 4).map (t.firstAt 0) == [0, 0, 6, 16] && t.firstAt 0 21 == 2097152 &&
      (List.range' 1 4).map (t.startAt 0) == [0, 0, 3, 5] && (List.range 5).map (t.symAt 0) == [2, 3, 4, 0, 1]) =
    some true := by decide +kernel
/-- H7c: the least illegal length. -/
theorem test_hbuild_bad_length : seen (exec (.hbuild 0) (withLengths [21, 0, 2]))
    (fun t => (t.status, t.errinfo)) = some (0x00050005, 0x20000000) := by decide +kernel
/-- H1 and H4 lookups; OPA[31:24] is ignored. -/
theorem test_hlook :
    seen (exec (.hlook 0) { withTable State.reset [3, 3, 2, 2, 2] with opa := 0x01C00000 })
      (fun t => (t.res0, t.res1)) = some (0, 3) ∧
    seen (exec (.hlook 0) { withTable State.reset [1, 20, 20] with opa := 0x80001F })
      (fun t => (t.res0, t.res1)) = some (2, 20) := by decide +kernel
/-- H2: the unmatched region of an under-subscribed table. -/
theorem test_hlook_none : seen (exec (.hlook 0) { withTable State.reset [2, 2, 2] with opa := 0xC00000 })
    (fun t => (t.status, t.errinfo, t.res0)) = some (0x00100105, 0x21C00000, 0) := by decide +kernel
/-- D1, third symbol. -/
theorem test_hdec : seen (exec (.hdec 0) (withTable (onInput [0xCE, 0xC0] 5) [3, 3, 2, 2, 2]))
    (fun t => (t.res0, t.res1, t.pos)) = some (0, 3, 8) := by decide +kernel
/-- D1, seventh symbol: the code found is longer than what remains. -/
theorem test_hdec_truncation : seen (exec (.hdec 0) (withTable (onInput [0xCE, 0xC0] 15) [3, 3, 2, 2, 2]))
    (fun t => (t.status, t.errinfo, t.pos)) = some (0x00010105, 0x22000002, 15) := by decide +kernel

/-! ## MTF (section 2.4) -/

/-- M1a. -/
theorem test_minit :
    seen (exec .minit ({ State.reset with used := Memory.consecutive 0 ((List.range 256).map
        (fun b => if b = 97 ∨ b = 98 ∨ b = 110 then 1#1 else 0#1)) }))
      (fun t => (t.nfav, t.symused, t.fav, t.status)) = some (3, 5, [(0, 97), (1, 98), (2, 110)], 4) := by
  decide +kernel
/-- M2, third symbol: a literal flushes the run. -/
theorem test_msym_literal :
    seen (exec .msym { inBlock [110, 97, 98] 3 with pend := 1, power := 1, bwtlen := 1, bwt := [(0, 110)] })
      (fun t => (t.bwt, t.fav, t.pend, t.power)) =
      some ([(0, 110), (1, 110), (2, 98)], [(0, 98), (1, 110), (2, 97)], 0, 0) := by decide +kernel
/-- M3: RUNB then RUNA is a run of 4. -/
theorem test_msym_run : seen (exec .msym { inBlock [120] 0 with pend := 2, power := 1 })
    (fun t => (t.pend, t.power, t.bwtlen)) = some (4, 2, 0) := by decide
/-- M1b: with no byte used, code 1 is RUNB and not the end-of-block code. -/
theorem test_msym_empty_alphabet : seen (exec .msym (inBlock [] 1)) (fun t => (t.pend, t.eobf)) = some (2, false) := by
  decide
/-- M5b: the detail is OPA[23:0]. -/
theorem test_msym_invalid_symbol : seen (exec .msym (inBlock [97, 98, 110] 0x12345678))
    (fun t => (t.status, t.errinfo)) = some (0x00110005, 0x31345678) := by decide
/-- M6e: a run that fits BWT_CAP exactly, flushed by the end-of-block code. -/
theorem test_msym_end_of_block :
    seen (exec .msym { inBlock [97, 98] 3 with bwtCap := 4, pend := 4, power := 2 })
      (fun t => (t.bwt.map (·.2), t.status)) = some ([97, 97, 97, 97], 6) := by decide +kernel
/-- M6b: a literal that does not fit, nothing flushed. -/
theorem test_msym_overflow :
    seen (exec .msym { inBlock [97, 98] 2 with bwtCap := 4, pend := 4, power := 2 })
      (fun t => (t.status, t.bwtlen, t.pend)) = some (0x00120005, 0, 4) := by decide

/-- A block of P3's kind: two groups, group 0 with lengths 2,3,1,3 built, input of zero bytes. -/
def chunkState (cnt : BitVec 6) : State :=
  { withTable (onInput [0, 0] 0) [2, 3, 1, 3] with
    ngroups := 2, nsel := 1, sel := [(0, 0)], fav := [(0, 97), (1, 98)], chunkcnt := cnt }

/-- P3 step 1. -/
theorem test_mstep : seen (exec .mstep (chunkState 0))
    (fun t => t.pos == 1 && t.res0 == 2 && t.res1 == 1 && t.selidx == 0 && t.chunkcnt == 1 &&
      t.bwt == [(0, 98)] && t.fav == [(0, 98), (1, 97)]) = some true := by decide +kernel
/-- T1: after 50 symbols the next selector is missing. -/
theorem test_mstep_selectors_exhausted : seen (exec .mstep (chunkState 50))
    (fun t => (t.status, t.errinfo, t.selidx, t.chunkcnt)) = some (0x00070105, 0x32000001, 0, 50) := by decide +kernel
/-- P1's table 1 and its last two symbols (101 111): MBLOCK ends with the end-of-block code. -/
theorem test_mblock :
    seen (exec .mblock { withTable (onInput [0b10111100] 0) [3, 3, 3, 1, 3] with
        ngroups := 2, nsel := 1, sel := [(0, 0)], fav := [(0, 97), (1, 98), (2, 110)], chunkcnt := 4 })
      (fun t => t.pos == 6 && t.res0 == 4 && t.res1 == 3 && t.chunkcnt == 6 &&
        t.bwt.map (·.2) == [97, 97] && t.status == 0x106) = some true := by decide +kernel
/-- T5: input exhausted inside MBLOCK; the completed step stays and the opcode is MBLOCK's. -/
theorem test_mblock_truncation :
    seen (exec .mblock { chunkState 0 with limit := 1 }) (fun t => (t.pos, t.chunkcnt, t.bwtlen, t.status, t.errinfo)) =
      some (1, 1, 1, 0x00010105, 0x33000001) := by decide +kernel

/-! ## LF unit (section 2.5) -/

/-- L1, LCOUNT. -/
theorem test_lcount : seen (exec .lcount (withBuffer nnbaaa 3))
    (fun t => ([97, 98, 99, 110, 111, 255].map t.baseAt, t.status)) = some ([0, 3, 4, 4, 6, 6], 0x08) := by
  decide +kernel
/-- L1, LMAP: stable, and BASE ends inclusive. -/
theorem test_lmap :
    seen (exec .lmap { withBuffer nnbaaa 3 with cntv := true, base := [(97, 0), (98, 3), (110, 4)] })
      (fun t => (t.lf.map (·.2), t.base, t.status)) =
      some ([3, 4, 5, 2, 0, 1], [(97, 3), (98, 4), (110, 6)], 0x10) := by decide +kernel
/-- L1, LWALK: "banana". -/
theorem test_lwalk :
    seen (exec .lwalk { withBuffer nnbaaa 3 with lfv := true, lf := Memory.consecutive 0 [3, 4, 5, 2, 0, 1] })
      (fun t => (t.out.map (·.2), t.outlen, t.walkptr, t.status)) =
      some ([98, 97, 110, 97, 110, 97], 6, 3, 0x30) := by decide +kernel
/-- L12: a buffer whose walk stays on one cycle. -/
theorem test_linv : seen (exec .linv (withBuffer [97, 98, 97, 98] 0))
    (fun t => (t.out.map (·.2), t.lf.map (·.2), t.walkptr, t.status)) =
    some ([97, 97, 97, 97], [0, 2, 1, 3], 0, 0x30) := by decide +kernel
/-- L8c: the origin check comes first. -/
theorem test_linv_origin : seen (exec .linv (withBuffer nnbaaa 6))
    (fun t => t.status == 0x00090001 && t.errinfo == 0x43000006 && t.base.isEmpty && t.lf.isEmpty) = some true := by
  decide

/-! ## The host's side -/

/-- K3: INLEN is 29 bits wide. -/
theorem test_write_inlen : seen (step { State.reset with bus := [.write 4 0x018 0x20000004] }) (fun t => t.inlen) =
    some 4 := by decide
/-- L14: a BWTLEN above BWT_CAP is ignored. -/
theorem test_write_bwtlen :
    seen (step { State.reset with bwtCap := 4, bus := [.write 4 0x038 5] }) (fun t => t.bwtlen) = some 0 ∧
    seen (step { State.reset with bwtCap := 4, bus := [.write 4 0x038 4] }) (fun t => t.bwtlen) = some 4 := by decide
/-- L7: a host write to the BWT aperture clears CNTV, LFV, OUTV. -/
theorem test_write_bwt :
    seen (step { withBuffer nnbaaa 3 with lfv := true, outv := true, bus := [.write 4 0x4000000 97] })
      (fun t => (t.status, t.bwtAt 0)) = some (0, 97) := by decide
/-- P1: `WR USEDW[3], 0x00004006` sets 97, 98 and 110. -/
theorem test_write_used_word : seen (step { State.reset with bus := [.write 4 0x10C 0x00004006] })
    (fun t => ((List.range' 96 16).filter (fun b => t.usedAt b == 1))) = some [97, 98, 110] := by decide +kernel
/-- R45: SYM[g][i] at 0x8000 + 0x1000 g + 0x800 + 4 i. -/
theorem test_read_sym : seen (step { withTable State.reset [3, 3, 2, 2, 2] with bus := [.read 4 0x8808] })
    (fun t => t.rdata) = some 4 := by decide +kernel
/-- R44: a byte access and a misaligned one are refused. -/
theorem test_refused :
    refusal? (step { State.reset with bus := [.read 1 0x004] }) = some .notAlignedWord ∧
    refusal? (step { State.reset with bus := [.write 4 0x00E 0] }) = some .notAlignedWord := by decide
/-- E6: an unassigned opcode, the detail and the opcode byte. -/
theorem test_illegal_word : seen (step (State.reset.queueCommand 0xFF123456))
    (fun t => (t.status, t.errinfo)) = some (0x00140001, 0xFF123456) := by decide
/-- P5: in the Failed state a command and an illegal word are ignored. -/
theorem test_failed_ignores :
    seen (step (((onInput magic 9).raise 0x12 .truncation 16).queueCommand 0x11000008)) (fun t => (t.res0, t.errinfo)) =
      some (0, 0x12000010) ∧
    seen (step (((onInput magic 9).raise 0x12 .truncation 16).queueCommand 0xFF000000)) (fun t => (t.err, t.errinfo)) =
      some (1, 0x12000010) := by decide

/-! ## Witnesses: for every statement with hypotheses, a state and operands that meet all of them

Each is named after its statement; a statement of several clauses has a witness for each, at the edges of its ranges. -/

/-- The outcome is a next state. -/
def isNext : Result → Bool
  | .next _ => true
  | .fault _ => false
  | .refused _ => false

/-- The outcome is a machine fault. -/
def isFault : Result → Bool
  | .next _ => false
  | .fault _ => true
  | .refused _ => false

/-- The next state, where there is one. -/
def nextOf : Result → State
  | .next t => t
  | .fault _ => State.reset
  | .refused _ => State.reset

theorem isNext_nextOf {r : Result} (h : isNext r = true) : r = .next (nextOf r) := by
  cases r <;> simp_all [isNext, nextOf]

/-- A latched fault. -/
def failed : State := (onInput magic 9).raise 0x12 .truncation 16

theorem witness_DecodeOfEncode : (Instr.bcons 24).wf = true ∧ (Instr.hdec 5).wf = true := by decide
theorem witness_EncodeOfDecode : decode 0x12000018 = .ok (.bcons 24) ∧ decode 0x22000005 = .ok (.hdec 5) := by decide
theorem witness_StepRunsDecodedCommand :
    (State.reset.queueCommand 0x12000018).bus = .write 4 0 0x12000018 :: [] ∧
      decode 0x12000018 = .ok (.bcons 24) := by decide

/-- An unassigned opcode, and n one past its range. -/
theorem witness_IllegalWordRaises :
    (∀ i : Instr, i.wf = true → encode i ≠ 0x13000000) ∧ (∀ i : Instr, i.wf = true → encode i ≠ 0x12000019) ∧
      (State.reset.queueCommand 0x13000000).fault = false ∧ (failed.queueCommand 0x12000019).fault = true := by
  refine ⟨fun i => ?_, fun i => ?_, by decide, by decide⟩ <;> cases i <;> first | decide | (rename_i x; revert x; decide)

theorem witness_FailedIgnoresAllButStart :
    (failed.queueCommand 0x01000001).fault = true ∧ (0x01000001 : Word) ≠ 0x01000000 ∧
      (failed.queueCommand 0x01000000).bus = .write 4 0 0x01000000 :: [] ∧
      (failed.queueCommand 0x01000000).fault = true := by decide
theorem witness_BlkendDiscardsBlock : { withBuffer nnbaaa 3 with favv := true }.fault = false := by decide
theorem witness_BseekSetsCursor :
    (let s := { onInput magic 13 with opa := 32 }; s.fault = false ∧ s.opa.toNat ≤ s.limit.toNat) ∧
    (let s := { onInput magic 13 with opa := 33 }; s.fault = false ∧ s.limit.toNat < s.opa.toNat) := by decide
theorem witness_BpeekReadsAhead : (onInput magic 30).fault = false ∧ 1 ≤ (1 : BitVec 5).toNat ∧ (1 : BitVec 5).toNat ≤ 24 ∧
    1 ≤ (24 : BitVec 5).toNat ∧ (24 : BitVec 5).toNat ≤ 24 := by decide
/-- The last clause with r = 2 and n = 3. -/
theorem witness_PeekIsZeroPaddedPrefix :
    (onInput magic 32).limit.toNat ≤ (onInput magic 32).pos.toNat ∧
      (onInput magic 30).limit.toNat = (onInput magic 30).pos.toNat + 2 := by decide
theorem witness_BconsConsumes :
    (let s := onInput magic 8; s.fault = false ∧ s.pos.toNat + (24 : BitVec 5).toNat ≤ s.limit.toNat) ∧
    (let s := onInput magic 9; s.fault = false ∧ s.limit.toNat < s.pos.toNat + (24 : BitVec 5).toNat) := by decide
theorem witness_AlignedBconsReadsByte :
    (onInput magic 24).fault = false ∧ (onInput magic 24).pos.toNat = 8 * 3 ∧
      8 * 3 + 8 ≤ (onInput magic 24).limit.toNat := by decide

/-- Two symbols, with the least and the greatest length, and the largest alphabet. -/
theorem witness_HbuildBuildsCanonicalTable :
    (let s := withLengths [1, 20]; s.fault = false ∧ s.favv = true ∧ 2 ≤ s.symused.toNat ∧ s.symused.toNat ≤ 258 ∧
      ∀ i, i < s.symused.toNat → 1 ≤ (s.lenAt 0 i).toNat ∧ (s.lenAt 0 i).toNat ≤ 20) ∧
    (let s := withLengths (List.replicate 258 20); s.fault = false ∧ s.favv = true ∧ s.symused.toNat ≤ 258 ∧
      ∀ i, i < s.symused.toNat → 1 ≤ (s.lenAt 0 i).toNat ∧ (s.lenAt 0 i).toNat ≤ 20) := by decide +kernel
/-- The least illegal symbol: above 20 at index 0, and below 1 at index 1. -/
theorem witness_HbuildFaults :
    (State.reset.fault = false ∧ State.reset.favv = false) ∧
    (let s := withLengths [21, 0, 2]; s.fault = false ∧ s.favv = true ∧ s.symused.toNat ≤ 258 ∧ 0 < s.symused.toNat ∧
      20 < (s.lenAt 0 0).toNat) ∧
    (let s := withLengths [1, 0]; s.fault = false ∧ s.favv = true ∧ s.symused.toNat ≤ 258 ∧ 1 < s.symused.toNat ∧
      (s.lenAt 0 1).toNat < 1 ∧ ∀ j, j < 1 → 1 ≤ (s.lenAt 0 j).toNat ∧ (s.lenAt 0 j).toNat ≤ 20) := by decide +kernel
/-- H1's table at the first window of length 3, and H2's at the first window without a code. -/
theorem witness_LookupTakesLeastLength :
    (let s := withTable State.reset [3, 3, 2, 2, 2]
     1 ≤ (s.tminOf 0).toNat ∧ (s.tmaxOf 0).toNat ≤ 20 ∧ (s.tminOf 0).toNat ≤ 3 ∧ 3 ≤ (s.tmaxOf 0).toNat ∧
      0xC00000 < (s.firstAt 0 4).toNat * 2 ^ 20 ∧
      (∀ m, m < 3 → (s.tminOf 0).toNat ≤ m → (s.firstAt 0 (m + 1)).toNat * 2 ^ (23 - m) ≤ 0xC00000) ∧
      (s.firstAt 0 3).toNat ≤ 0xC00000 / 2 ^ 21 ∧
      (s.startAt 0 3).toNat + (0xC00000 / 2 ^ 21 - (s.firstAt 0 3).toNat) ≤ 257) ∧
    (let s := withTable State.reset [2, 2, 2]
     1 ≤ (s.tminOf 0).toNat ∧ (s.tmaxOf 0).toNat ≤ 20 ∧
      ∀ l, l < 21 → (s.tminOf 0).toNat ≤ l → l ≤ (s.tmaxOf 0).toNat →
        (s.firstAt 0 (l + 1)).toNat * 2 ^ (23 - l) ≤ 0xC00000) := by decide +kernel
/-- H2's lengths: the last window with a code and the first without. -/
theorem witness_BuiltTableDecodesBelowKraft :
    let s := withLengths [2, 2, 2]
    s.fault = false ∧ s.favv = true ∧ 2 ≤ s.symused.toNat ∧ s.symused.toNat ≤ 258 ∧
      (∀ i, i < s.symused.toNat → 1 ≤ (s.lenAt 0 i).toNat ∧ (s.lenAt 0 i).toNat ≤ 20) ∧
      isNext (exec (.hbuild 0) s) = true ∧ 0xBFFFFF < s.kraft 0 ∧ s.kraft 0 ≤ 0xC00000 := by decide +kernel
/-- H1's lengths, whose Kraft sum is 1: symbol 0 with the largest window of its code. -/
theorem witness_BuiltTableIsPrefixUnambiguous :
    let s := withLengths [3, 3, 2, 2, 2]
    let t := nextOf (exec (.hbuild 0) s)
    s.fault = false ∧ s.favv = true ∧ 2 ≤ s.symused.toNat ∧ s.symused.toNat ≤ 258 ∧
      (∀ i, i < s.symused.toNat → 1 ≤ (s.lenAt 0 i).toNat ∧ (s.lenAt 0 i).toNat ≤ 20) ∧ s.kraft 0 = 2 ^ 24 ∧
      isNext (exec (.hbuild 0) s) = true ∧ 0 < s.symused.toNat ∧
      0xDFFFFF / 2 ^ (24 - (s.lenAt 0 0).toNat) = (t.firstAt 0 (s.lenAt 0 0).toNat).toNat + s.lenRank 0 0 := by
  decide +kernel
theorem witness_HlookLooksUpWindow :
    (State.reset.fault = false ∧ State.reset.tblv[(5 : Fin 6)] = false) ∧
    (let s := { withTable State.reset [2, 2, 2] with opa := 0xC00000 }
     s.fault = false ∧ s.tblv[(0 : Fin 6)] = true ∧ s.lookup 0 (s.opa.toNat % 2 ^ 24) = .miss) ∧
    (let s := { withTable State.reset [2, 2, 2] with opa := 0xFFBFFFFF }
     s.fault = false ∧ s.tblv[(0 : Fin 6)] = true ∧ s.lookup 0 (s.opa.toNat % 2 ^ 24) = .hit 2 2) := by decide +kernel
/-- D1's stream: its last symbol that fits exactly, the next that does not, and H2's table on an unmatched window. -/
theorem witness_HdecDecodesAtCursor :
    ((onInput magic 0).fault = false ∧ (onInput magic 0).tblv[(5 : Fin 6)] = false) ∧
    (let s := withTable (onInput [0xC0] 0) [2, 2, 2]
     s.fault = false ∧ s.tblv[(0 : Fin 6)] = true ∧ s.lookup 0 (s.peek 24) = .miss) ∧
    (let s := withTable (onInput [0xCE, 0xC0] 15) [3, 3, 2, 2, 2]
     s.fault = false ∧ s.tblv[(0 : Fin 6)] = true ∧ s.lookup 0 (s.peek 24) = .hit 2 2 ∧
      s.limit.toNat < s.pos.toNat + 2) ∧
    (let s := withTable (onInput [0xCE, 0xC0] 14) [3, 3, 2, 2, 2]
     s.fault = false ∧ s.tblv[(0 : Fin 6)] = true ∧ s.lookup 0 (s.peek 24) = .hit 2 2 ∧
      s.pos.toNat + 2 ≤ s.limit.toNat) := by decide +kernel
theorem witness_MinitListsUsedBytes : { State.reset with used := [(255, 1)] }.fault = false ∧
    { State.reset with used := [(255, 1)] }.usedAt 255 = 1 := by decide

/-- RUNB whose run fills the buffer exactly, with no byte in the alphabet. -/
theorem witness_MsymAccumulatesRun :
    let s := { inBlock [] 1 with bwtCap := 4, bwtlen := 1, pend := 1 }
    s.fault = false ∧ s.favv = true ∧ s.eobf = false ∧ s.opa.toNat ≤ 1 ∧ s.opa.toNat < s.symused.toNat ∧
      s.bwtCap ≤ 2 ^ 24 ∧ s.bwtlen.toNat + s.pend.toNat + 2 ^ (s.power.toNat + s.opa.toNat) ≤ s.bwtCap := by
  decide +kernel
/-- The first literal, and the last of the largest alphabet at the largest capacity. -/
theorem witness_MsymEmitsLiteral :
    (let s := { inBlock [97, 98] 2 with bwtCap := 5, bwtlen := 2, pend := 2 }
     s.fault = false ∧ s.favv = true ∧ s.eobf = false ∧ 2 ≤ s.opa.toNat ∧ s.opa.toNat + 1 < s.symused.toNat ∧
      s.symused.toNat ≤ 258 ∧ s.bwtCap ≤ 2 ^ 24 ∧ s.bwtlen.toNat + s.pend.toNat + 1 ≤ s.bwtCap) ∧
    (let s := { inBlock [] 256 with bwtCap := 2 ^ 24, nfav := 256, symused := 258 }
     s.fault = false ∧ s.favv = true ∧ s.eobf = false ∧ 2 ≤ s.opa.toNat ∧ s.opa.toNat + 1 < s.symused.toNat ∧
      s.symused.toNat ≤ 258 ∧ s.bwtCap ≤ 2 ^ 24 ∧ s.bwtlen.toNat + s.pend.toNat + 1 ≤ s.bwtCap) := by decide +kernel
theorem witness_MsymEndsBlock :
    let s := { inBlock [97] 2 with bwtCap := 4, bwtlen := 2, pend := 2 }
    s.fault = false ∧ s.favv = true ∧ s.eobf = false ∧ 2 ≤ s.opa.toNat ∧ s.opa.toNat + 1 = s.symused.toNat ∧
      s.bwtCap ≤ 2 ^ 24 ∧ s.bwtlen.toNat + s.pend.toNat ≤ s.bwtCap := by decide +kernel
theorem witness_MsymFaults :
    (State.reset.fault = false ∧ State.reset.favv = false) ∧
    (let s := { inBlock [97] 0 with eobf := true }; s.fault = false ∧ s.eobf = true) ∧
    (let s := inBlock [97] 3
     s.fault = false ∧ s.favv = true ∧ s.eobf = false ∧ s.symused.toNat ≤ s.opa.toNat) ∧
    (let s := { inBlock [97] 1 with bwtCap := 1 }
     s.fault = false ∧ s.favv = true ∧ s.eobf = false ∧ s.opa.toNat < s.symused.toNat ∧ s.opa.toNat ≤ 1 ∧
      s.bwtCap < s.bwtlen.toNat + s.pend.toNat + 2 ^ (s.power.toNat + s.opa.toNat)) ∧
    (let s := { inBlock [97, 98] 2 with bwtCap := 1, bwtlen := 1 }
     s.fault = false ∧ s.favv = true ∧ s.eobf = false ∧ 2 ≤ s.opa.toNat ∧ s.opa.toNat + 1 < s.symused.toNat ∧
      s.bwtCap < s.bwtlen.toNat + s.pend.toNat + 1) := by decide +kernel

/-- P3's first step; and the first step of a second chunk. -/
theorem witness_MstepCommitsOneSymbol :
    (let s := chunkState 0
     s.fault = false ∧ s.favv = true ∧ s.eobf = false ∧ 2 ≤ s.ngroups.toNat ∧ s.ngroups.toNat ≤ 6 ∧
      0 = (if s.chunkcnt = 50 then s.selidx.toNat + 1 else s.selidx.toNat) ∧ 0 < s.nsel.toNat ∧
      (0 : Fin 6).val = (s.selAt 0).toNat ∧ (0 : Fin 6).val < s.ngroups.toNat ∧ s.tblv[(0 : Fin 6)] = true ∧
      s.lookup 0 (s.peek 24) = .hit 1 2 ∧ s.pos.toNat + 1 ≤ s.limit.toNat ∧ s.symFault 2 = none ∧
      s.symOutside 2 = none) ∧
    (let s := { chunkState 50 with nsel := 2, sel := [(0, 0), (1, 0)] }
     s.fault = false ∧ 1 = (if s.chunkcnt = 50 then s.selidx.toNat + 1 else s.selidx.toNat) ∧ 1 < s.nsel.toNat ∧
      (0 : Fin 6).val = (s.selAt 1).toNat ∧ s.tblv[(0 : Fin 6)] = true ∧ s.lookup 0 (s.peek 24) = .hit 1 2 ∧
      s.pos.toNat + 1 ≤ s.limit.toNat ∧ s.symFault 2 = none ∧ s.symOutside 2 = none) := by decide +kernel
/-- Clauses (1) to (4): no block, too few and too many groups, no selector left, a selector that names no group. -/
theorem witness_MstepFaults_configuration :
    (State.reset.fault = false ∧ State.reset.favv = false) ∧
    (let s := { chunkState 0 with ngroups := 1 }
     s.fault = false ∧ s.favv = true ∧ s.eobf = false ∧ s.ngroups.toNat < 2) ∧
    (let s := { chunkState 0 with ngroups := 7 }
     s.fault = false ∧ s.favv = true ∧ s.eobf = false ∧ 6 < s.ngroups.toNat) ∧
    (let s := chunkState 50
     s.fault = false ∧ 2 ≤ s.ngroups.toNat ∧ s.ngroups.toNat ≤ 6 ∧
      1 = (if s.chunkcnt = 50 then s.selidx.toNat + 1 else s.selidx.toNat) ∧ s.nsel.toNat ≤ 1) ∧
    (let s := { chunkState 0 with sel := [(0, 2)] }
     s.fault = false ∧ 2 ≤ s.ngroups.toNat ∧ 0 < s.nsel.toNat ∧ s.ngroups.toNat ≤ (s.selAt 0).toNat) := by
  decide +kernel
/-- Clauses (5) to (8): a table not built, a window without a code, a code past LIMIT, a literal and a run that do not
fit. -/
theorem witness_MstepFaults_decoding :
    (let s := { chunkState 0 with sel := [(0, 1)] }
     s.fault = false ∧ s.favv = true ∧ 0 < s.nsel.toNat ∧ (1 : Fin 6).val = (s.selAt 0).toNat ∧
      (1 : Fin 6).val < s.ngroups.toNat ∧ s.tblv[(1 : Fin 6)] = false) ∧
    (let s := { withTable (chunkState 0) [2, 2, 2] with input := ⟨[0xC0, 0], 0⟩ }
     s.fault = false ∧ (0 : Fin 6).val = (s.selAt 0).toNat ∧ s.tblv[(0 : Fin 6)] = true ∧
      s.lookup 0 (s.peek 24) = .miss) ∧
    (let s := { chunkState 0 with limit := 0 }
     s.fault = false ∧ s.tblv[(0 : Fin 6)] = true ∧ s.lookup 0 (s.peek 24) = .hit 1 2 ∧
      s.limit.toNat < s.pos.toNat + 1) ∧
    (let s := { chunkState 0 with bwtCap := 1, bwtlen := 1 }
     s.fault = false ∧ s.lookup 0 (s.peek 24) = .hit 1 2 ∧ s.pos.toNat + 1 ≤ s.limit.toNat ∧ 2 < s.symused.toNat ∧
      2 + 1 < s.symused.toNat ∧ s.bwtCap < s.bwtlen.toNat + s.pend.toNat + 1) ∧
    (let s := { chunkState 0 with bwtCap := 1, bwtlen := 1, input := ⟨[0x80, 0], 0⟩ }
     s.fault = false ∧ s.lookup 0 (s.peek 24) = .hit 2 0 ∧ s.pos.toNat + 2 ≤ s.limit.toNat ∧ 0 < s.symused.toNat ∧
      s.bwtCap < s.bwtlen.toNat + s.pend.toNat + 2 ^ (s.power.toNat + 0)) := by decide +kernel
theorem witness_MstepIsHdecThenMsym :
    let s := chunkState 0
    let u := nextOf (exec (.hdec 0) s)
    let v := nextOf (exec .msym { u with opa := u.res0 })
    s.fault = false ∧ s.favv = true ∧ s.eobf = false ∧ 2 ≤ s.ngroups.toNat ∧ s.ngroups.toNat ≤ 6 ∧
      0 = (if s.chunkcnt = 50 then s.selidx.toNat + 1 else s.selidx.toNat) ∧ 0 < s.nsel.toNat ∧ s.selAt 0 = 0 ∧
      (0 : BitVec 3).toNat < s.ngroups.toNat ∧ s.tblv[(0 : Fin 6)] = true ∧ isNext (exec (.hdec 0) s) = true ∧
      u.fault = false ∧ isNext (exec .msym { u with opa := u.res0 }) = true ∧ v.fault = false := by decide +kernel

/-- P1's table 1 at its end-of-block code (111), the last symbol of a chunk. -/
def endState : State :=
  { withTable (onInput [0b11100000] 0) [3, 3, 3, 1, 3] with
    ngroups := 2, nsel := 1, sel := [(0, 0)], fav := [(0, 97), (1, 98), (2, 110)], chunkcnt := 49
    bwtCap := 4, bwtlen := 2, pend := 2, power := 1 }

theorem witness_MblockStopsAtEndOfBlock :
    let s := endState
    s.fault = false ∧ s.favv = true ∧ s.eobf = false ∧ 2 ≤ s.ngroups.toNat ∧ s.ngroups.toNat ≤ 6 ∧
      0 = (if s.chunkcnt = 50 then s.selidx.toNat + 1 else s.selidx.toNat) ∧ 0 < s.nsel.toNat ∧
      (0 : Fin 6).val = (s.selAt 0).toNat ∧ (0 : Fin 6).val < s.ngroups.toNat ∧ s.tblv[(0 : Fin 6)] = true ∧
      s.lookup 0 (s.peek 24) = .hit 3 4 ∧ s.pos.toNat + 3 ≤ s.limit.toNat ∧ 2 ≤ 4 ∧ 4 + 1 = s.symused.toNat ∧
      s.bwtCap ≤ 2 ^ 24 ∧ s.bwtlen.toNat + s.pend.toNat ≤ s.bwtCap := by decide +kernel
/-- A step that goes on, the end-of-block code, a code past LIMIT, and a table whose TMIN is 0. -/
theorem witness_MblockContinuesAfterMstep :
    ((chunkState 0).fault = false ∧ isNext (exec .mstep (chunkState 0)) = true ∧
      (nextOf (exec .mstep (chunkState 0))).fault = false ∧ (nextOf (exec .mstep (chunkState 0))).eobf = false) ∧
    (endState.fault = false ∧ isNext (exec .mstep endState) = true ∧ (nextOf (exec .mstep endState)).fault = false ∧
      (nextOf (exec .mstep endState)).eobf = true) ∧
    (let s := { chunkState 0 with limit := 0 }
     s.fault = false ∧ isNext (exec .mstep s) = true ∧ (nextOf (exec .mstep s)).fault = true) ∧
    (let s := { chunkState 0 with table := Vector.replicate 6 { HuffTable.blank with tmin := [(0, 0)] } }
     s.fault = false ∧ isFault (exec .mstep s) = true) := by decide +kernel
theorem witness_MblockAlwaysTerminates : endState.fault = false ∧ isNext (exec .mblock endState) = true := by
  decide +kernel

/-- A buffer that fills its memory. -/
theorem witness_LcountSetsBases :
    let s := { withBuffer nnbaaa 3 with bwtCap := 6 }
    s.fault = false ∧ s.bwtlen.toNat ≤ s.bwtCap ∧ s.bwtCap ≤ 2 ^ 24 := by decide
theorem witness_LmapSortsIndices :
    let s := nextOf (exec .lcount { withBuffer nnbaaa 3 with bwtCap := 6 })
    s.fault = false ∧ s.cntv = true ∧ s.bwtlen.toNat ≤ s.bwtCap ∧ s.bwtCap ≤ 2 ^ 24 ∧
      ∀ b, b < 256 → (s.baseAt b).toNat = s.bytesBelow b := by decide +kernel
theorem witness_LfuSequenceAndOriginFaults :
    State.reset.fault = false ∧ State.reset.cntv = false ∧ State.reset.lfv = false ∧
    (let s := { withBuffer nnbaaa 6 with lfv := true }
     s.fault = false ∧ s.lfv = true ∧ s.bwtlen.toNat ≤ s.origin.toNat) := by decide
/-- L1's map, its origin at the last index. -/
theorem witness_LwalkWalksFromOrigin :
    let s := { withBuffer nnbaaa 5 with bwtCap := 6, lfv := true, lf := Memory.consecutive 0 [3, 4, 5, 2, 0, 1] }
    s.fault = false ∧ s.lfv = true ∧ s.origin.toNat < s.bwtlen.toNat ∧ s.bwtlen.toNat ≤ s.bwtCap ∧
      ∀ j, j < s.bwtlen.toNat → (s.lfAt j).toNat < s.bwtlen.toNat := by decide +kernel
theorem witness_LinvInvertsBuffer :
    let s := { withBuffer nnbaaa 5 with bwtCap := 6 }
    s.fault = false ∧ s.origin.toNat < s.bwtlen.toNat ∧ s.bwtlen.toNat ≤ s.bwtCap ∧ s.bwtCap ≤ 2 ^ 24 := by decide
theorem witness_LinvIsThreePhases :
    (withBuffer nnbaaa 5).fault = false ∧ (withBuffer nnbaaa 5).origin.toNat < (withBuffer nnbaaa 5).bwtlen.toNat := by
  decide
/-- The same buffer, in two states that differ in BASE, LF, BWT_CAP and the bytes behind the buffer. -/
theorem witness_LinvOutputDependsOnBufferOnly :
    let s := withBuffer nnbaaa 3
    let s' := { withBuffer (nnbaaa ++ [1, 2]) 3 with bwtlen := 6, bwtCap := 8, base := [(0, 5)], lf := [(0, 7)] }
    s.fault = false ∧ s'.fault = false ∧ s.bwtlen = s'.bwtlen ∧ s.origin = s'.origin ∧
      s.origin.toNat < s.bwtlen.toNat ∧ s.bwtlen.toNat ≤ s.bwtCap ∧ s'.bwtlen.toNat ≤ s'.bwtCap ∧
      s.bwtCap ≤ 2 ^ 24 ∧ s'.bwtCap ≤ 2 ^ 24 ∧ (∀ i, i < s.bwtlen.toNat → s.bwtAt i = s'.bwtAt i) ∧
      isNext (exec .linv s) = true ∧ isNext (exec .linv s') = true := by decide +kernel

/-- A command that is one step, and MBLOCK with a completed MSTEP before the fault. -/
theorem witness_FaultsArePrecise :
    (Instr.bcons 1 ≠ .mblock ∧ (onInput magic 32).fault = false ∧
      isNext (exec (.bcons 1) (onInput magic 32)) = true ∧
      (nextOf (exec (.bcons 1) (onInput magic 32))).fault = true) ∧
    (let s := { chunkState 0 with limit := 1 }
     s.fault = false ∧ isNext (exec .mblock s) = true ∧ (nextOf (exec .mblock s)).fault = true) := by decide +kernel
theorem witness_CommandsKeepHostState : isNext (exec .mstep (chunkState 0)) = true := by decide +kernel
/-- MINIT may change none of the things named but FAV; and START. -/
theorem witness_OnlyTheseCommandsWrite :
    (isNext (exec .minit (chunkState 0)) = true ∧ (∀ n, Instr.minit ≠ .bcons n) ∧ (∀ g, Instr.minit ≠ .hdec g) ∧
      (∀ g, Instr.minit ≠ .hbuild g) ∧ Instr.minit ∉ [Instr.start, .bseek, .mstep, .mblock] ∧ Instr.minit ≠ .start ∧
      Instr.minit ∉ [Instr.msym, .mstep, .mblock] ∧ Instr.minit ∉ [Instr.lcount, .lmap, .linv]) ∧
    isNext (exec .start (chunkState 0)) = true ∧ Instr.start ∉ [Instr.minit, .msym, .mstep, .mblock] := by
  refine ⟨⟨by decide +kernel, by decide, by decide, by decide, by decide, by decide, by decide, by decide⟩,
    by decide +kernel, by decide⟩
/-- The lending of a buffer, and a host read, which is neither START nor the power-on reset. -/
theorem witness_OnlyTheseCommandsWrite_steps :
    { failed with bus := [.lend ⟨[1], 0⟩, .read 4 4] }.bus = .lend ⟨[1], 0⟩ :: [.read 4 4] ∧
    (let s := { failed with bus := [.read 4 4] }
     isNext (step s) = true ∧ s.bus.head? ≠ some (.write 4 0 0x01000000) ∧ s.bus.head? ≠ some .powerOn) := by decide
theorem witness_OnlyStartLeavesFailed :
    (failed.queueCommand 0x01000000).fault = true ∧ isNext (step (failed.queueCommand 0x01000000)) = true ∧
    (nextOf (step (failed.queueCommand 0x01000000))).fault = false ∧
    (let s := { failed with bus := [.powerOn] }
     s.fault = true ∧ isNext (step s) = true ∧ (nextOf (step s)).fault = false) ∧
    (let s := failed.queueCommand 0x11000008
     s.fault = true ∧ isNext (step s) = true ∧ (nextOf (step s)).fault = true) := by decide

theorem witness_StatusLayout : State.reset.FaultRecordOk ∧ State.reset.fault = false := by
  unfold State.FaultRecordOk
  decide
theorem witness_HostReadHasNoSideEffect :
    { failed with bus := [.read 4 0xFFFFFFC] }.bus = .read 4 0xFFFFFFC :: [] ∧ (0xFFFFFFC : BitVec 28).toNat % 4 = 0 := by
  decide
/-- BWTLEN at and one past the capacity, and the last element of BWT. -/
theorem witness_HostWritesOfBufferInvalidate :
    (let s := { State.reset with bwtCap := 4, bus := [.write 4 0x038 5] }; s.bwtCap < (5 : Word).toNat % 2 ^ 25) ∧
    (let s := { State.reset with bwtCap := 4, bus := [.write 4 0x038 4] }; (4 : Word).toNat % 2 ^ 25 ≤ s.bwtCap) ∧
    (let s := { State.reset with bwtCap := 4, bus := [.write 4 0x400000C 4] }
     3 < s.bwtCap ∧ s.bwtCap ≤ 2 ^ 24 ∧ s.bus = .write 4 (BitVec.ofNat 28 (0x4000000 + 4 * 3)) 4 :: []) := by decide
theorem witness_HostWriteReadsBack :
    ((Slot.sel 32767).inRange 4 = true ∧ 0 < (Slot.sel 32767).writableWidth) ∧
    ((Slot.usedWord 7).inRange 4 = true ∧ 0 < (Slot.usedWord 7).writableWidth) ∧
    ((Slot.len 5 257).inRange 4 = true ∧ 0 < (Slot.len 5 257).writableWidth) ∧
    ((Slot.bwt 3).inRange 4 = true ∧ 0 < (Slot.bwt 3).writableWidth) ∧
    ((Slot.reg .bwtlen).inRange 4 = true ∧ 0 < (Slot.reg .bwtlen).writableWidth ∧
      (0xFE000004 : Word).toNat % 2 ^ 25 ≤ 4) := by decide
/-- Through the bus: OPA, USED's last word, LEN's and SEL's last element; and BWTLEN, BWT's last element. -/
theorem witness_HostWriteReadsBack_step :
    let s := { failed with bwtCap := 4, bus := [.write 4 0x00C 7] }
    s.bus = .write 4 0x00C 7 :: [] ∧ (0x00C : BitVec 28).toNat % 4 = 0 ∧
      slotAt s.bwtCap ((0x00C : BitVec 28).toNat / 4) = .reg .opa ∧
      slotAt s.bwtCap ((0x11C : BitVec 28).toNat / 4) = .usedWord 7 ∧
      slotAt s.bwtCap ((0x6C04 : BitVec 28).toNat / 4) = .len 5 257 ∧
      slotAt s.bwtCap ((0x3FFFC : BitVec 28).toNat / 4) = .sel 32767 ∧
      slotAt s.bwtCap ((0x038 : BitVec 28).toNat / 4) = .reg .bwtlen ∧
      Slot.reg .opa ≠ .reg .bwtlen ∧ 0 < (Slot.reg .opa).writableWidth := by decide +kernel
theorem witness_HostWriteReadsBack_bwt : slotAt 4 ((0x400000C : BitVec 28).toNat / 4) = .bwt 3 := by
  rw [show (0x400000C : BitVec 28).toNat / 4 = 0x1000003 by decide]
  simp [slotAt]
/-- STATUS, the last reserved register and FIRST[0][0]. -/
theorem witness_HostWriteToReadOnlyIgnored :
    ((0x004 : BitVec 28).toNat % 4 = 0 ∧ (0x004 : BitVec 28) ≠ 0 ∧
      (slotAt 4 ((0x004 : BitVec 28).toNat / 4)).writableWidth = 0) ∧
    ((0x0FC : BitVec 28).toNat % 4 = 0 ∧ (0x0FC : BitVec 28) ≠ 0 ∧
      (slotAt 4 ((0x0FC : BitVec 28).toNat / 4)).writableWidth = 0) ∧
    ((0x8100 : BitVec 28).toNat % 4 = 0 ∧ (0x8100 : BitVec 28) ≠ 0 ∧
      (slotAt 4 ((0x8100 : BitVec 28).toNat / 4)).writableWidth = 0) := by decide +kernel
/-- BWT[BWT_CAP]. -/
theorem witness_HostWriteToReadOnlyIgnored_past_capacity :
    (0x4000010 : BitVec 28).toNat % 4 = 0 ∧ (0x4000010 : BitVec 28) ≠ 0 ∧
      (slotAt 4 ((0x4000010 : BitVec 28).toNat / 4)).writableWidth = 0 := by
  refine ⟨by decide, by decide, ?_⟩
  rw [show (0x4000010 : BitVec 28).toNat / 4 = 0x1000004 by decide]
  simp [slotAt, Slot.writableWidth]
theorem witness_MapNamesEachElementOnce :
    (2 ^ 24 : Nat) ≤ 2 ^ 24 ∧ (Slot.out (2 ^ 24 - 1)).inRange (2 ^ 24) = true ∧ (Slot.sym 5 257).inRange (2 ^ 24) = true ∧
      (Slot.reg .blkidx).inRange (2 ^ 24) = true := by decide +kernel
theorem witness_NonWordAccessRefused :
    ({ State.reset with bus := [.read 1 0] }.bus = .read 1 0 :: [] ∧ (1 : Nat) ≠ 4) ∧
    ({ State.reset with bus := [.write 4 3 7] }.bus = .write 4 3 7 :: [] ∧ (3 : BitVec 28).toNat % 4 ≠ 0) := by decide
theorem witness_PowerOnResetsBlock : { failed with bus := [.powerOn, .read 4 4] }.bus = .powerOn :: [.read 4 4] := by
  decide

/-- A block in progress, with an MSTEP for the next step. -/
def running : State := (chunkState 0).queueCommand 0x32000000

theorem running_spec : running.SpecInv where
  cursor := by unfold State.CursorOk; decide +kernel
  capacity := by unfold State.CapacityOk; decide +kernel
  alphabet := by unfold State.AlphabetOk; decide +kernel
  chunk := by unfold State.ChunkOk; decide +kernel
  inverseFlags := by unfold State.InverseFlagsOk; decide +kernel
  faultRecord := by unfold State.FaultRecordOk; decide +kernel
  tableFlags := by unfold State.TableFlagsOk; decide +kernel
  output := by unfold State.OutputOk; decide +kernel

theorem witness_SpecInvariantKept : running.SpecInv ∧ isNext (step running) = true :=
  ⟨running_spec, by decide +kernel⟩

theorem running_table (g : Fin 6) : running.table[g].MemoriesOk := by
  revert g
  have h : ∀ g : Fin 6, (running.table[g].tmin.wf ∧ running.table[g].tmin.below 1) ∧
      (running.table[g].tmax.wf ∧ running.table[g].tmax.below 1) ∧
      (running.table[g].first.wf ∧ running.table[g].first.below 22 ∧ ∀ c ∈ running.table[g].first, 1 ≤ c.1) ∧
      (running.table[g].start.wf ∧ running.table[g].start.below 22 ∧ ∀ c ∈ running.table[g].start, 1 ≤ c.1) ∧
      running.table[g].sym.wf ∧ running.table[g].sym.below Config.symusedMax := by decide +kernel
  exact fun g => ⟨(h g).1, (h g).2.1, (h g).2.2.1, (h g).2.2.2.1, (h g).2.2.2.2⟩

theorem witness_MemoriesStayCanonical : running.SpecInv ∧ running.MemoriesOk ∧ isNext (step running) = true := by
  refine ⟨running_spec, ?_, by decide +kernel⟩
  constructor
  case table => exact running_table
  all_goals decide +kernel

theorem witness_FavouritesStayDistinct :
    running.SpecInv ∧ running.FavouritesDistinct ∧ isNext (step running) = true := by
  refine ⟨running_spec, ?_, by decide +kernel⟩
  unfold State.FavouritesDistinct
  decide +kernel

/-- A block whose table 0 has the lengths 1, 1, with an HDEC for the next step, and a counted buffer beside it. -/
def full : State :=
  { (withTable (onInput [0x40] 0) [1, 1]).queueCommand 0x22000000 with
    bwt := [(0, 7)], bwtlen := 1, cntv := true
    base := Memory.consecutive 0 (List.replicate 8 0 ++ List.replicate 248 1) }

theorem full_spec : full.SpecInv where
  cursor := by unfold State.CursorOk; decide +kernel
  capacity := by unfold State.CapacityOk; decide +kernel
  alphabet := by unfold State.AlphabetOk; decide +kernel
  chunk := by unfold State.ChunkOk; decide +kernel
  inverseFlags := by unfold State.InverseFlagsOk; decide +kernel
  faultRecord := by unfold State.FaultRecordOk; decide +kernel
  tableFlags := by unfold State.TableFlagsOk; decide +kernel
  output := by unfold State.OutputOk; decide +kernel

theorem full_lookup (w : Nat) (hw : w < 2 ^ 24) : full.lookup 0 w = .hit 1 (w >>> 23) := by
  have h1 : full.tminOf 0 = 1 := by decide +kernel
  have h2 : full.tmaxOf 0 = 1 := by decide +kernel
  have h3 : full.firstAt 0 2 = 4 := by decide +kernel
  have h4 : full.firstAt 0 1 = 0 := by decide +kernel
  have h5 : full.startAt 0 1 = 0 := by decide +kernel
  have h6 : (full.symAt 0 0).toNat = 0 ∧ (full.symAt 0 1).toNat = 1 := by decide +kernel
  have h7 : full.scanLength 0 w = some 1 := by
    simp only [State.scanLength, h1, h2]
    simp [h3]
    omega
  have h8 : w >>> 23 = 0 ∨ w >>> 23 = 1 := by
    rw [Nat.shiftRight_eq_div_pow]; omega
  rcases h8 with h | h <;> simp [State.lookup, h1, h2, h4, h5, h7, h6, h, Config.lenMin, Config.lenMax, Config.symusedMax]

theorem full_table (g : Fin 6) : full.table[g].MemoriesOk := by
  revert g
  have h : ∀ g : Fin 6, (full.table[g].tmin.wf ∧ full.table[g].tmin.below 1) ∧
      (full.table[g].tmax.wf ∧ full.table[g].tmax.below 1) ∧
      (full.table[g].first.wf ∧ full.table[g].first.below 22 ∧ ∀ c ∈ full.table[g].first, 1 ≤ c.1) ∧
      (full.table[g].start.wf ∧ full.table[g].start.below 22 ∧ ∀ c ∈ full.table[g].start, 1 ≤ c.1) ∧
      full.table[g].sym.wf ∧ full.table[g].sym.below Config.symusedMax := by decide +kernel
  exact fun g => ⟨(h g).1, (h g).2.1, (h g).2.2.1, (h g).2.2.2.1, (h g).2.2.2.2⟩

theorem full_memories : full.MemoriesOk := by
  constructor
  case table => exact full_table
  all_goals decide +kernel

theorem full_built : ∀ g : Fin 6, full.tblv[g] = true → g = 0 := by decide +kernel

theorem full_inv : full.Inv where
  spec := full_spec
  power := by unfold State.PowerOk; decide +kernel
  tables := by
    intro g hg w hw
    obtain rfl : g = 0 := full_built g hg
    rw [full_lookup w hw]
    have h : full.symused = 2 := by decide +kernel
    simp [h, Nat.shiftRight_eq_div_pow]
    omega
  bases := by unfold State.BasesOk; decide +kernel
  map := by unfold State.MapOk; decide +kernel
  memories := full_memories

theorem witness_FullInvariantKept : full.Inv ∧ isNext (step full) = true := ⟨full_inv, by decide +kernel⟩
theorem witness_GoodStatesNeverStop : full.Inv ∧ full.nextAccessAligned = true := ⟨full_inv, by decide⟩

end Sys2Proof.Machine.Tests
end

section
/-! SUPPORT. A step of the block as a chain of elementary updates. A command is a chain of the updates named in
`CommandUpdate`, each under what its checks have established; a host access is a chain of `HostUpdate`. An invariant of
10_state.md is then proved update by update, and `step_keeps` carries it over every step. -/

namespace Sys2Proof.Machine

open Relation (ReflTransGen)

/-! ## The updates of commands -/

/-- The commands that move the cursor without beginning a call (R92, R94, R105, R126). -/
def movesCursor : Instr → Bool
  | .bseek | .bcons _ | .hdec _ | .mstep | .mblock => true
  | _ => false

/-- The commands that process symbol codes (R122, R126, R127). -/
def processesSymbols : Instr → Bool
  | .msym | .mstep | .mblock => true
  | _ => false

/-- LCOUNT's update (R140): BASE holds the exclusive sums of the buffer's bytes. -/
def State.countBuffer (s : State) : State :=
  State.markCounted { s with
    base := s.base.splice 0 ((List.range 256).map (fun b => BitVec.ofNat 25 (countBelow s.bwtBytes b))) }

/-- One elementary update that command `i` may make, with what the command has checked before it. -/
inductive CommandUpdate (i : Instr) (s : State) : State → Prop
  | raise (op : BitVec 8) (k : FaultKind) (d : BitVec 24) : CommandUpdate i s (s.raise op k d)
  | clearFault : i = .start → CommandUpdate i s s.clearFault
  | beginCall : i = .start → CommandUpdate i s s.beginCall
  | discardBlock : CommandUpdate i s s.discardBlock
  | countBlock (n : BitVec 32) : i = .blkend → CommandUpdate i s { s with blkidx := n }
  | setPos (p : Nat) : movesCursor i = true → p ≤ s.limit.toNat → CommandUpdate i s (s.setPos p)
  | setResult (v n : Nat) : CommandUpdate i s (s.setResult v n)
  | buildTable (g : BitVec 3) (k : Fin 6) : i = .hbuild g → s.favv = true → s.symused.toNat ≠ 0 →
      s.symused.toNat ≤ 258 → (∀ x ∈ s.lengths k, 1 ≤ x ∧ x ≤ 20) →
      CommandUpdate i s ((s.setTable k (s.table[k].build (s.lengths k))).markTable k)
  | initBlock : i = .minit → CommandUpdate i s s.initBlock
  | clearInverse : CommandUpdate i s s.clearInverse
  | runAdd (c : Nat) : s.bwtlen.toNat + s.pend.toNat + 2 ^ (s.power.toNat + c) ≤ s.bwtCap →
      CommandUpdate i s (s.runAdd c)
  | flush : processesSymbols i = true → s.cntv = false → s.lfv = false → s.outv = false → CommandUpdate i s s.flush
  | emitAndPromote (c : Nat) : processesSymbols i = true → s.cntv = false → s.lfv = false → s.outv = false →
      2 ≤ c → c + 1 < s.symused.toNat → s.bwtlen.toNat + s.pend.toNat + 1 ≤ s.bwtCap →
      CommandUpdate i s (s.emitAndPromote c)
  | endBlock : CommandUpdate i s { s with eobf := true }
  | countSymbol : s.nextSelector < s.nsel.toNat → CommandUpdate i s (s.countSymbol s.nextSelector)
  | countBuffer : i = .lcount ∨ i = .linv → s.bwtlen.toNat ≤ s.bwtCap → CommandUpdate i s s.countBuffer
  | mapBuffer (u : State) : i = .lmap ∨ i = .linv → s.cntv = true →
      lmapLoop (List.range s.bwtlen.toNat) s = some u →
      CommandUpdate i s (State.markMapped { s with lf := u.lf, base := u.base })
  | setOutput (e : Nat) (bs : List Byte) : i = .lwalk ∨ i = .linv → s.lfv = true → bs.length = s.bwtlen.toNat →
      CommandUpdate i s (s.setOutput e bs)

/-! ## What the updates of a chain keep, the chain keeps -/

/-- What every update keeps, a chain of updates keeps. -/
theorem keeps_of_chain {r : State → State → Prop} {P : State → Prop} (h : ∀ s t, r s t → P s → P t) {s t : State}
    (hst : ReflTransGen r s t) (hs : P s) : P t := by
  induction hst with
  | refl => exact hs
  | tail _ hu ih => exact h _ _ hu ih

/-! ## Every command is a chain of its updates -/

/-- A gated command is a chain of updates where its body is one: in the Failed state nothing changes (R166). -/
theorem whenRunning_chain {r : State → State → Prop} {s t : State} {k : Result} (h : whenRunning s k = .next t)
    (hk : k = .next t → ReflTransGen r s t) : ReflTransGen r s t := by
  rcases whenRunning_next h with ⟨-, rfl⟩ | ⟨-, h⟩
  · exact .refl
  · exact hk h

/-- A fault is one update. -/
theorem raise_chain {i : Instr} {s t : State} {op : BitVec 8} {k : FaultKind} {d : BitVec 24}
    (h : Host.Outcome.next (s.raise op k d) = (.next t : Result)) : ReflTransGen (CommandUpdate i) s t := by
  injection h with h
  exact h ▸ .single (.raise op k d)

theorem withBitCount_chain {i : Instr} {n : BitVec 5} {s t : State} {k : Nat → Result}
    (h : withBitCount i n s k = .next t) (hk : k n.toNat = .next t → ReflTransGen (CommandUpdate i) s t) :
    ReflTransGen (CommandUpdate i) s t := by
  rcases withBitCount_cases i n s k with ⟨-, -, e⟩ | e
  · exact hk (e ▸ h)
  · exact raise_chain (e ▸ h)

theorem withGroup_chain {i : Instr} {g : BitVec 3} {s t : State} {k : Fin 6 → Result}
    (h : withGroup i g s k = .next t) (hk : ∀ j, k j = .next t → ReflTransGen (CommandUpdate i) s t) :
    ReflTransGen (CommandUpdate i) s t := by
  rcases withGroup_cases i g s k with ⟨hg, e⟩ | e
  · exact hk _ (e ▸ h)
  · exact raise_chain (e ▸ h)

theorem execStart_chain {s t : State} (h : execStart s = .next t) : ReflTransGen (CommandUpdate .start) s t := by
  injection h with h
  subst h
  exact ((ReflTransGen.single (.clearFault rfl)).tail (.beginCall rfl)).tail .discardBlock

theorem execBlkend_chain {s t : State} (h : execBlkend s = .next t) : ReflTransGen (CommandUpdate .blkend) s t := by
  refine whenRunning_chain h fun h => ?_
  injection h with h
  subst h
  exact (ReflTransGen.single .discardBlock).tail (.countBlock _ rfl)

theorem execBseek_chain {s t : State} (h : execBseek s = .next t) : ReflTransGen (CommandUpdate .bseek) s t := by
  refine whenRunning_chain h fun h => ?_
  split at h
  · exact raise_chain h
  · injection h with h
    subst h
    exact .single (.setPos _ rfl (by omega))

theorem execBpeek_chain {n : BitVec 5} {s t : State} (h : execBpeek n s = .next t) :
    ReflTransGen (CommandUpdate (.bpeek n)) s t := by
  refine whenRunning_chain h fun h => withBitCount_chain h fun h => ?_
  injection h with h
  subst h
  exact .single (.setResult _ _)

theorem execBcons_chain {n : BitVec 5} {s t : State} (h : execBcons n s = .next t) :
    ReflTransGen (CommandUpdate (.bcons n)) s t := by
  refine whenRunning_chain h fun h => withBitCount_chain h fun h => ?_
  split at h
  · exact raise_chain h
  · rename_i hlim
    injection h with h
    subst h
    exact (ReflTransGen.single (.setResult _ _)).tail (.setPos _ rfl (Nat.not_lt.mp hlim))

/-- HBUILD's check of the lengths (R102): where no length is illegal, all are in 1..20. -/
theorem lengths_legal_of_findIdx?_none {lens : List Nat} (h : lens.findIdx? badLength = none) :
    ∀ x ∈ lens, 1 ≤ x ∧ x ≤ 20 := by
  intro x hx
  have hb := List.findIdx?_eq_none_iff.mp h x hx
  rw [badLength, Bool.or_eq_false_iff, decide_eq_false_iff_not, decide_eq_false_iff_not] at hb
  exact ⟨Nat.not_lt.mp hb.1, Nat.not_lt.mp hb.2⟩

theorem execHbuild_chain {g : BitVec 3} {s t : State} (h : execHbuild g s = .next t) :
    ReflTransGen (CommandUpdate (.hbuild g)) s t := by
  refine whenRunning_chain h fun h => withGroup_chain h fun k h => ?_
  split at h
  · exact raise_chain h
  · rename_i hfav
    split at h
    · cases h
    · rename_i hsym
      split at h
      · exact raise_chain h
      · rename_i hlen
        injection h with h
        subst h
        simp only [Config.symusedMax, not_or, Nat.not_lt] at hsym
        exact .single (.buildTable g k rfl (by simpa using hfav) hsym.1 hsym.2 (lengths_legal_of_findIdx?_none hlen))

theorem execHlook_chain {g : BitVec 3} {s t : State} (h : execHlook g s = .next t) :
    ReflTransGen (CommandUpdate (.hlook g)) s t := by
  refine whenRunning_chain h fun h => withGroup_chain h fun k h => ?_
  split at h
  · exact raise_chain h
  · split at h
    · exact raise_chain h
    · cases h
    · injection h with h
      subst h
      exact .single (.setResult _ _)

theorem execHdec_chain {g : BitVec 3} {s t : State} (h : execHdec g s = .next t) :
    ReflTransGen (CommandUpdate (.hdec g)) s t := by
  refine whenRunning_chain h fun h => withGroup_chain h fun k h => ?_
  split at h
  · exact raise_chain h
  · split at h
    · exact raise_chain h
    · cases h
    · split at h
      · exact raise_chain h
      · rename_i hlim
        injection h with h
        subst h
        exact (ReflTransGen.single (.setPos _ rfl (Nat.not_lt.mp hlim))).tail (.setResult _ _)

theorem execMinit_chain {s t : State} (h : execMinit s = .next t) : ReflTransGen (CommandUpdate .minit) s t := by
  refine whenRunning_chain h fun h => ?_
  injection h with h
  subst h
  exact .single (.initBlock rfl)

/-- Processing a symbol that passed MSYM's checks (R122): CNTV, LFV, OUTV cleared, then the operation of its class. -/
theorem State.symApply_chain {i : Instr} (hi : processesSymbols i = true) {s : State} {c : Nat}
    (hf : s.symFault c = none) : ReflTransGen (CommandUpdate i) s (s.symApply c) := by
  have hclear : ReflTransGen (CommandUpdate i) s s.clearInverse := .single .clearInverse
  have hflush : ReflTransGen (CommandUpdate i) s s.clearInverse.flush := hclear.tail (.flush hi rfl rfl rfl)
  rcases s.symApply_cases (State.symFault_none hf) with ⟨hc, e⟩ | ⟨-, e⟩ | ⟨hc, e⟩
  · rw [e]
    exact hclear.tail (.runAdd c (State.symFault_run hc hf))
  · rw [e]
    exact hflush.tail .endBlock
  · rw [e]
    obtain ⟨h2, hsym⟩ := symClass_literal.mp hc
    have hfit := State.symFault_literal hc hf
    have hlen : (BitVec.ofNat 25 (s.bwtlen.toNat + s.pend.toNat)).toNat ≤ s.bwtlen.toNat + s.pend.toNat := by
      rw [BitVec.toNat_ofNat]; exact Nat.mod_le _ _
    exact hflush.tail (.emitAndPromote c hi rfl rfl rfl h2 hsym (by simp; omega))

theorem execMsym_chain {s t : State} (h : execMsym s = .next t) : ReflTransGen (CommandUpdate .msym) s t := by
  refine whenRunning_chain h fun h => ?_
  split at h
  · exact raise_chain h
  · split at h
    · exact raise_chain h
    · rename_i hf
      split at h
      · cases h
      · injection h with h
        subst h
        exact State.symApply_chain rfl hf

/-- One MSTEP, issued by the host or inside MBLOCK, is a chain of updates. -/
theorem State.mstepWith_chain {i : Instr} (hm : movesCursor i = true) (hp : processesSymbols i = true) {s t : State}
    {op : BitVec 8} (h : s.mstepWith op = .next t) : ReflTransGen (CommandUpdate i) s t := by
  rcases State.mstepWith_next h with ⟨k, d, rfl, -⟩ | ⟨-, -, -, -, hsel, -, g, l, sym, -, -, -, hlim, hf, -, rfl⟩
  · exact .single (.raise op k d)
  · have hmoved : ReflTransGen (CommandUpdate i) s
        (((s.setPos (s.pos.toNat + l)).countSymbol s.nextSelector).setResult sym l) :=
      ((ReflTransGen.single (.setPos _ hm hlim)).tail (.countSymbol hsel)).tail (.setResult _ _)
    exact hmoved.trans (State.symApply_chain hp hf)

theorem execMstep_chain {s t : State} (h : execMstep s = .next t) : ReflTransGen (CommandUpdate .mstep) s t :=
  whenRunning_chain h fun h => State.mstepWith_chain rfl rfl h

theorem execMblock_chain {s t : State} (h : execMblock s = .next t) : ReflTransGen (CommandUpdate .mblock) s t :=
  whenRunning_chain h fun h => mblockLoop_keeps (P := ReflTransGen (CommandUpdate .mblock) s)
    (fun _ _ hs hu => hs.trans (State.mstepWith_chain rfl rfl hu)) .refl h

theorem State.lcountBody_chain {i : Instr} (hi : i = .lcount ∨ i = .linv) {s t : State} (h : s.lcountBody = .next t) :
    ReflTransGen (CommandUpdate i) s t := by
  obtain ⟨hcap, rfl⟩ := State.lcountBody_next h
  exact .single (.countBuffer hi hcap)

theorem State.lmapBody_chain {i : Instr} (hi : i = .lmap ∨ i = .linv) {s t : State} (hc : s.cntv = true)
    (h : s.lmapBody = .next t) : ReflTransGen (CommandUpdate i) s t := by
  obtain ⟨-, u, hu, rfl⟩ := State.lmapBody_next h
  rw [lmapLoop_frame hu]
  exact .single (.mapBuffer u hi hc hu)

theorem State.lwalkBody_chain {i : Instr} (hi : i = .lwalk ∨ i = .linv) {s t : State} (hl : s.lfv = true)
    (h : s.lwalkBody = .next t) : ReflTransGen (CommandUpdate i) s t := by
  obtain ⟨-, e, bs, hw, rfl⟩ := State.lwalkBody_next h
  exact .single (.setOutput e bs hi hl (State.walk_length hw))

theorem execLcount_chain {s t : State} (h : execLcount s = .next t) : ReflTransGen (CommandUpdate .lcount) s t :=
  whenRunning_chain h fun h => State.lcountBody_chain (.inl rfl) h

theorem execLmap_chain {s t : State} (h : execLmap s = .next t) : ReflTransGen (CommandUpdate .lmap) s t := by
  refine whenRunning_chain h fun h => ?_
  split at h
  · exact raise_chain h
  · rename_i hc
    exact State.lmapBody_chain (.inl rfl) (by simpa using hc) h

theorem execLwalk_chain {s t : State} (h : execLwalk s = .next t) : ReflTransGen (CommandUpdate .lwalk) s t := by
  refine whenRunning_chain h fun h => ?_
  split at h
  · exact raise_chain h
  · rename_i hl
    split at h
    · exact raise_chain h
    · exact State.lwalkBody_chain (.inl rfl) (by simpa using hl) h

theorem execLinv_chain {s t : State} (h : execLinv s = .next t) : ReflTransGen (CommandUpdate .linv) s t := by
  refine whenRunning_chain h fun h => ?_
  split at h
  · exact raise_chain h
  · obtain ⟨s1, h1, h⟩ := andThen_next.mp h
    obtain ⟨s2, h2, h3⟩ := andThen_next.mp h
    have hcntv : s1.cntv = true := by
      obtain ⟨-, rfl⟩ := State.lcountBody_next h1
      rfl
    have hlfv : s2.lfv = true := by
      obtain ⟨-, u, -, rfl⟩ := State.lmapBody_next h2
      rfl
    exact ((State.lcountBody_chain (.inr rfl) h1).trans (State.lmapBody_chain (.inr rfl) hcntv h2)).trans
      (State.lwalkBody_chain (.inr rfl) hlfv h3)

/-- Every command that answers a next state is a chain of the updates it may make. -/
theorem exec_chain {i : Instr} {s t : State} (h : exec i s = .next t) : ReflTransGen (CommandUpdate i) s t := by
  cases i with
  | nop =>
    refine whenRunning_chain h fun h => ?_
    injection h with h
    exact h ▸ .refl
  | start => exact execStart_chain h
  | blkend => exact execBlkend_chain h
  | bseek => exact execBseek_chain h
  | bpeek n => exact execBpeek_chain h
  | bcons n => exact execBcons_chain h
  | hbuild g => exact execHbuild_chain h
  | hlook g => exact execHlook_chain h
  | hdec g => exact execHdec_chain h
  | minit => exact execMinit_chain h
  | msym => exact execMsym_chain h
  | mstep => exact execMstep_chain h
  | mblock => exact execMblock_chain h
  | lcount => exact execLcount_chain h
  | lmap => exact execLmap_chain h
  | lwalk => exact execLwalk_chain h
  | linv => exact execLinv_chain h

/-! ## Host accesses -/

/-- One elementary update of a host access other than a command and the power-on reset (R17 to R19, R46). -/
inductive HostUpdate (s : State) : State → Prop
  | takeAccess (rest : List HostAccess) : HostUpdate s { s with bus := rest }
  | readWord (v : Word) : HostUpdate s { s with rdata := v }
  | lend (buf : InputBuffer) : HostUpdate s { s with lent := buf }
  | illegal (op : BitVec 8) (d : BitVec 24) : HostUpdate s (s.raise op .illegalCommand d)
  | writeOpa (v : Word) : HostUpdate s { s with opa := v }
  | writeInlen (v : BitVec 29) : HostUpdate s { s with inlen := v }
  | writeNgroups (v : BitVec 3) : HostUpdate s { s with ngroups := v }
  | writeNsel (v : BitVec 15) : HostUpdate s { s with nsel := v }
  | writeOrigin (v : BitVec 24) : HostUpdate s { s with origin := v }
  | writeBwtlen (v : BitVec 25) : v.toNat ≤ s.bwtCap →
      HostUpdate s { s with bwtlen := v, pend := 0, power := 0 }.clearInverse
  | writeUsedWord (k : Nat) (v : Word) : k < 8 → HostUpdate s (s.writeUsedWord k v)
  | writeLen (g : Fin 6) (i : Nat) (v : Word) : i < 258 → HostUpdate s (s.writeLen g i v)
  | writeSel (i : Nat) (v : Word) : i < 32768 → HostUpdate s (s.writeSel i v)
  | writeBwt (i : Nat) (v : Word) : i < s.bwtCap → HostUpdate s (s.writeBwt i v)

/-- A word of the map is unmapped or names an element that exists (R45). -/
def Slot.NamesElement (cap : Nat) (slot : Slot) : Prop := slot = .unmapped ∨ slot.inRange cap = true

theorem Slot.namesElement_ite {cap : Nat} {c : Prop} [Decidable c] {a b : Slot}
    (ha : c → a = .unmapped ∨ a.inRange cap = true) (hb : ¬c → b.NamesElement cap) :
    (if c then a else b).NamesElement cap :=
  iteInduction (motive := Slot.NamesElement cap) ha hb

theorem tableSlot_namesElement (cap : Nat) (g : Fin 6) (o : Nat) : (tableSlot g o).NamesElement cap := by
  unfold tableSlot
  refine Slot.namesElement_ite (fun _ => .inr rfl) fun _ => ?_
  refine Slot.namesElement_ite (fun _ => .inr rfl) fun _ => ?_
  refine Slot.namesElement_ite (fun _ => .inr (by simp [Slot.inRange]; omega)) fun _ => ?_
  refine Slot.namesElement_ite (fun _ => .inr (by simp [Slot.inRange]; omega)) fun _ => ?_
  refine Slot.namesElement_ite (fun h => .inr ?_) fun _ => .inl rfl
  simp only [Config.symusedMax] at h
  simp [Slot.inRange]
  omega

theorem slotAt_namesElement (cap w : Nat) : (slotAt cap w).NamesElement cap := by
  unfold slotAt
  refine Slot.namesElement_ite (fun _ => ?_) fun _ => ?_
  · split
    · exact .inr rfl
    · exact .inl rfl
  refine Slot.namesElement_ite (fun _ => .inr (by simp [Slot.inRange]; omega)) fun _ => ?_
  refine Slot.namesElement_ite (fun _ => .inl rfl) fun _ => ?_
  refine Slot.namesElement_ite (fun _ => .inr (by simp [Slot.inRange]; omega)) fun _ => ?_
  refine Slot.namesElement_ite (fun _ => .inr (by simp [Slot.inRange]; omega)) fun _ => ?_
  refine Slot.namesElement_ite (fun _ => .inl rfl) fun _ => ?_
  split
  · exact Slot.namesElement_ite (fun h => .inr (by simpa [Slot.inRange, Config.symusedMax] using h)) fun _ => .inl rfl
  refine Slot.namesElement_ite (fun _ => .inl rfl) fun _ => ?_
  split
  · exact tableSlot_namesElement cap _ _
  refine Slot.namesElement_ite (fun _ => .inl rfl) fun _ => ?_
  refine Slot.namesElement_ite (fun _ => .inr (by simp [Slot.inRange]; omega)) fun _ => ?_
  refine Slot.namesElement_ite (fun _ => .inl rfl) fun _ => ?_
  have hbuffer {c : Prop} [Decidable c] {slot : Slot} (h : c → slot.inRange cap = true) :
      (if c then slot else .unmapped).NamesElement cap :=
    Slot.namesElement_ite (fun hc => .inr (h hc)) fun _ => .inl rfl
  refine Slot.namesElement_ite (fun _ => hbuffer decide_eq_true) fun _ => ?_
  exact Slot.namesElement_ite (fun _ => hbuffer decide_eq_true) fun _ => hbuffer decide_eq_true

/-- A host write to a register other than CMD is at most one update (R14, R17, R18). -/
theorem State.writeReg_chain (s : State) (v : Word) (r : Reg) : ReflTransGen HostUpdate s (s.writeReg v r) := by
  cases r with
  | opa => exact .single (.writeOpa _)
  | inlen => exact .single (.writeInlen _)
  | ngroups => exact .single (.writeNgroups _)
  | nsel => exact .single (.writeNsel _)
  | origin => exact .single (.writeOrigin _)
  | bwtlen =>
    simp only [State.writeReg, State.writeBwtlen]
    split
    · exact .refl
    · rename_i h
      exact .single (.writeBwtlen _ (Nat.not_lt.mp h))
  | _ => exact .refl

theorem State.writeSlot_chain (s : State) (v : Word) {slot : Slot}
    (h : slot.NamesElement s.bwtCap) : ReflTransGen HostUpdate s (s.writeSlot v slot) := by
  rcases h with rfl | h
  · exact .refl
  · cases slot with
    | reg r => exact s.writeReg_chain v r
    | usedWord k => exact .single (.writeUsedWord k v (by simpa [Slot.inRange] using h))
    | len g i => exact .single (.writeLen g i v (by simpa [Slot.inRange] using h))
    | sel i => exact .single (.writeSel i v (by simpa [Slot.inRange] using h))
    | bwt i => exact .single (.writeBwt i v (by simpa [Slot.inRange] using h))
    | _ => exact .refl

/-- What a step can do: a chain of host updates, the power-on reset, or a write to CMD whose word decodes to a command
that answers a next state. -/
theorem step_next {s t : State} (h : step s = .next t) :
    ReflTransGen HostUpdate s t ∨ (∃ rest, s.bus = .powerOn :: rest ∧ t = State.powerOnReset { s with bus := rest }) ∨
      ∃ addr v rest i, s.bus = .write 4 addr v :: rest ∧ addr.toNat % 4 = 0 ∧ s.slotOf addr = .reg .cmd ∧
        decode v = .ok i ∧ exec i { s with bus := rest } = .next t := by
  unfold step State.serveNext at h
  split at h
  · injection h with h
    exact .inl (h ▸ .refl)
  · rename_i a rest hbus
    have htake : ReflTransGen HostUpdate s { s with bus := rest } := .single (.takeAccess rest)
    cases a with
    | read size addr =>
      obtain ⟨-, rfl⟩ := State.serve_read h
      exact .inl (htake.tail (.readWord _))
    | lend buf =>
      injection h with h
      exact .inl (h ▸ htake.tail (.lend buf))
    | powerOn =>
      injection h with h
      exact .inr (.inl ⟨rest, hbus, h.symm⟩)
    | write size addr v =>
      obtain ⟨haligned, ⟨hslot, hcmd⟩ | ⟨-, rfl⟩⟩ := State.serve_write h
      · rcases State.command_cases { s with bus := rest } v with ⟨i, hi, e⟩ | ⟨_, -, e⟩
        · simp only [alignedWord, Bool.and_eq_true, decide_eq_true_eq] at haligned
          obtain ⟨rfl, haddr⟩ := haligned
          exact .inr (.inr ⟨addr, v, rest, i, hbus, haddr, hslot, hi, e ▸ hcmd⟩)
        · rcases whenRunning_next (e ▸ hcmd) with ⟨-, rfl⟩ | ⟨-, h⟩
          · exact .inl htake
          · injection h with h
            exact .inl (h ▸ htake.tail (.illegal _ _))
      · exact .inl (htake.trans (State.writeSlot_chain _ v (slotAt_namesElement _ _)))

/-- What every command's updates, every host update and the power-on reset keep, a step keeps. -/
theorem step_keeps {P : State → Prop} (hcommand : ∀ i s t, CommandUpdate i s t → P s → P t)
    (hhost : ∀ s t, HostUpdate s t → P s → P t) (hreset : ∀ s, P s → P s.powerOnReset) {s t : State} (hs : P s)
    (h : step s = .next t) : P t := by
  rcases step_next h with h | ⟨rest, -, rfl⟩ | ⟨addr, v, rest, i, -, -, -, -, h⟩
  · exact keeps_of_chain hhost h hs
  · exact hreset _ (hhost _ _ (.takeAccess rest) hs)
  · exact keeps_of_chain (hcommand i) (exec_chain h) (hhost _ _ (.takeAccess rest) hs)

end Sys2Proof.Machine
end

section
/-! SUPPORT. The invariants of 10_state.md R24, update by update (O54, O55). -/

namespace Sys2Proof.Machine

/-- A number within a bound that fits in `w` bits is kept when it is stored in `w` bits. -/
theorem toNat_ofNat_of_le {w n m : Nat} (h : n ≤ m) (hm : m < 2 ^ w) : (BitVec.ofNat w n).toNat = n := by
  rw [BitVec.toNat_ofNat, Nat.mod_eq_of_lt (by omega)]

theorem State.usedBytes_length_le (s : State) : s.usedBytes.length ≤ 256 := by
  simpa [State.usedBytes, Config.nfavMax] using List.length_filter_le (fun b => s.usedAt b == 1) (List.range 256)

theorem State.initBlock_nfav_toNat (s : State) : s.initBlock.nfav.toNat = s.usedBytes.length :=
  toNat_ofNat_of_le s.usedBytes_length_le (by decide)

theorem State.initBlock_symused_toNat (s : State) : s.initBlock.symused.toNat = s.usedBytes.length + 2 :=
  toNat_ofNat_of_le (Nat.add_le_add_right s.usedBytes_length_le 2) (by decide)

theorem FaultKind.code_ne_zero (k : FaultKind) : k.code ≠ 0 := by cases k <;> decide

theorem State.SpecInv.raise {s : State} (hs : s.SpecInv) (op : BitVec 8) (k : FaultKind) (d : BitVec 24) :
    (s.raise op k d).SpecInv :=
  { hs with faultRecord := ⟨by simp, fun _ => k.code_ne_zero⟩ }

/-- With CNTV, LFV and OUTV cleared, R24(e) and the second half of R24(h) claim nothing. -/
theorem State.SpecInv.clearInverse {s : State} (hs : s.SpecInv) : s.clearInverse.SpecInv :=
  { hs with
    inverseFlags := ⟨by simp, by simp⟩
    output := ⟨hs.output.1, by simp⟩ }

theorem State.SpecInv.discardBlock {s : State} (hs : s.SpecInv) : s.discardBlock.SpecInv :=
  { hs with
    capacity := ⟨hs.capacity.1, hs.capacity.2.1, Nat.zero_le _⟩
    alphabet := ⟨Nat.zero_le _, by simp, fun _ => ⟨rfl, rfl⟩⟩
    chunk := ⟨Nat.zero_le _, Nat.zero_le _⟩
    inverseFlags := ⟨by simp, by simp⟩
    tableFlags := fun g hg => by simp at hg
    output := ⟨Nat.zero_le _, by simp⟩ }

theorem State.SpecInv.initBlock {s : State} (hs : s.SpecInv) : s.initBlock.SpecInv :=
  { hs with
    capacity := ⟨hs.capacity.1, hs.capacity.2.1, Nat.zero_le _⟩
    alphabet := by
      refine ⟨?_, fun _ => ?_, by simp⟩
      · rw [s.initBlock_nfav_toNat]
        exact s.usedBytes_length_le
      · rw [s.initBlock_nfav_toNat, s.initBlock_symused_toNat]
    chunk := ⟨Nat.zero_le _, Nat.zero_le _⟩
    inverseFlags := ⟨by simp, by simp⟩
    tableFlags := fun _ _ => rfl
    output := ⟨hs.output.1, by simp⟩ }

theorem State.SpecInv.runAdd {s : State} (hs : s.SpecInv) {c : Nat}
    (hfit : s.bwtlen.toNat + s.pend.toNat + 2 ^ (s.power.toNat + c) ≤ s.bwtCap) : (s.runAdd c).SpecInv := by
  obtain ⟨hcap1, hcap2, -⟩ := hs.capacity
  refine { hs with capacity := ⟨hcap1, hcap2, ?_⟩ }
  rw [State.runAdd_bwtlen, State.runAdd_pend, State.runAdd_bwtCap,
    toNat_ofNat_of_le (m := 2 ^ 24) (by omega) (by decide)]
  omega

theorem State.SpecInv.flush_bwtlen {s : State} (hs : s.SpecInv) :
    s.flush.bwtlen.toNat = s.bwtlen.toNat + s.pend.toNat := by
  obtain ⟨-, hcap, hlen⟩ := hs.capacity
  exact toNat_ofNat_of_le (m := 2 ^ 24) (by omega) (by decide)

theorem State.SpecInv.flush {s : State} (hs : s.SpecInv) (ho : s.outv = false) : s.flush.SpecInv := by
  obtain ⟨hcap1, hcap2, hlen⟩ := hs.capacity
  refine { hs with capacity := ⟨hcap1, hcap2, ?_⟩, output := ⟨hs.output.1, by simp [ho]⟩ }
  rw [hs.flush_bwtlen]
  exact hlen

theorem State.SpecInv.emitAndPromote_bwtlen {s : State} (hs : s.SpecInv) {c : Nat}
    (hfit : s.bwtlen.toNat + s.pend.toNat + 1 ≤ s.bwtCap) :
    (s.emitAndPromote c).bwtlen.toNat = s.bwtlen.toNat + 1 := by
  obtain ⟨-, hcap, -⟩ := hs.capacity
  exact toNat_ofNat_of_le (m := 2 ^ 24) (by omega) (by decide)

theorem State.SpecInv.emitAndPromote {s : State} (hs : s.SpecInv) (ho : s.outv = false) {c : Nat}
    (hfit : s.bwtlen.toNat + s.pend.toNat + 1 ≤ s.bwtCap) : (s.emitAndPromote c).SpecInv := by
  obtain ⟨hcap1, hcap2, -⟩ := hs.capacity
  refine { hs with capacity := ⟨hcap1, hcap2, ?_⟩, output := ⟨hs.output.1, by simp [ho]⟩ }
  rw [hs.emitAndPromote_bwtlen hfit]
  simp
  omega

/-- R24(d): the selector index of a counted symbol is one of 0..32766, and its chunk holds at most 50 symbols. -/
theorem State.SpecInv.countSymbol {s : State} (hs : s.SpecInv) (hsel : s.nextSelector < s.nsel.toNat) :
    (s.countSymbol s.nextSelector).SpecInv := by
  have hnsel := s.nsel.isLt
  obtain ⟨hchunk, -⟩ := hs.chunk
  simp only [Config.chunk] at hchunk
  refine { hs with chunk := ⟨?_, ?_⟩ }
  · rw [State.countSymbol_chunkcnt, Config.chunk, toNat_ofNat_of_le (m := 50) (by split <;> omega) (by decide)]
    split <;> omega
  · rw [State.countSymbol_selidx, toNat_ofNat_of_le (m := 32766) (by omega) (by decide)]
    omega

/-- With CNTV = 1 the tables of the inverse are not valid (R24(e), R140). -/
theorem State.SpecInv.countBuffer {s : State} (hs : s.SpecInv) : s.countBuffer.SpecInv :=
  { hs with
    inverseFlags := ⟨by simp [State.countBuffer], by simp [State.countBuffer]⟩
    output := ⟨hs.output.1, by simp [State.countBuffer]⟩ }

theorem State.SpecInv.mapBuffer {s : State} (hs : s.SpecInv) (lf : Memory 24) (base : Memory 25) :
    (State.markMapped { s with lf := lf, base := base }).SpecInv :=
  { hs with
    inverseFlags := ⟨by simp, by simp⟩
    output := ⟨hs.output.1, by simp⟩ }

theorem State.SpecInv.setOutput {s : State} (hs : s.SpecInv) (hl : s.lfv = true) (e : Nat) (bs : List Byte) :
    (s.setOutput e bs).SpecInv := by
  obtain ⟨-, hcap2, hlen⟩ := hs.capacity
  have hcntv : s.cntv = false := by
    cases hc : s.cntv
    · rfl
    · have := (hs.inverseFlags.2 hc).1
      simp [hl] at this
  exact { hs with
    inverseFlags := ⟨fun _ => hl, by simp [hcntv]⟩
    output := ⟨by simp; omega, fun _ => rfl⟩ }

theorem CommandUpdate.specInv {i : Instr} {s t : State} (h : CommandUpdate i s t) (hs : s.SpecInv) : t.SpecInv := by
  cases h with
  | raise op k d => exact hs.raise op k d
  | clearFault => exact { hs with faultRecord := ⟨fun _ => ⟨rfl, rfl⟩, by simp⟩ }
  | beginCall =>
    refine { hs with cursor := ⟨Nat.zero_le _, ?_⟩ }
    rw [State.beginCall_limit, BitVec.toNat_ofNat]
    omega
  | discardBlock => exact hs.discardBlock
  | setPos p _ hp =>
    refine { hs with cursor := ⟨?_, hs.cursor.2⟩ }
    rw [State.setPos_pos, State.setPos_limit, toNat_ofNat_of_le hp s.limit.isLt]
    exact hp
  | buildTable _ k _ hfav => exact { hs with tableFlags := fun _ _ => hfav }
  | initBlock => exact hs.initBlock
  | clearInverse => exact hs.clearInverse
  | runAdd c hfit => exact hs.runAdd hfit
  | flush _ _ _ ho => exact hs.flush ho
  | emitAndPromote c _ _ _ ho _ _ hfit => exact hs.emitAndPromote ho hfit
  | countSymbol hsel => exact hs.countSymbol hsel
  | countBuffer => exact hs.countBuffer
  | mapBuffer u => exact hs.mapBuffer u.lf u.base
  | setOutput e bs _ hl => exact hs.setOutput hl e bs
  | countBlock | setResult | endBlock => exact { hs with }

/-- Every register and flag is 0, and 900000 is a legal BWT_CAP. -/
theorem State.reset_specInv : State.reset.SpecInv where
  cursor := ⟨Nat.zero_le _, rfl⟩
  capacity := by unfold State.CapacityOk; decide
  alphabet := ⟨Nat.zero_le _, by simp [State.reset], fun _ => ⟨rfl, rfl⟩⟩
  chunk := ⟨Nat.zero_le _, Nat.zero_le _⟩
  inverseFlags := ⟨by simp [State.reset], by simp [State.reset]⟩
  faultRecord := ⟨fun _ => ⟨rfl, rfl⟩, by simp [State.reset]⟩
  tableFlags := fun g hg => by simp [State.reset] at hg
  output := ⟨Nat.zero_le _, by simp [State.reset]⟩

/-- A power-on reset keeps BWT_CAP; the rest of R24 is as at reset. -/
theorem State.SpecInv.powerOnReset {s : State} (hs : s.SpecInv) : s.powerOnReset.SpecInv :=
  { State.reset_specInv with
    capacity := ⟨hs.capacity.1, hs.capacity.2.1, Nat.zero_le _⟩
    output := ⟨Nat.zero_le _, State.reset_specInv.output.2⟩ }

theorem HostUpdate.specInv {s t : State} (h : HostUpdate s t) (hs : s.SpecInv) : t.SpecInv := by
  cases h with
  | illegal op d => exact hs.raise op .illegalCommand d
  | writeBwtlen v hv =>
    exact { hs.clearInverse with
      capacity := ⟨hs.capacity.1, hs.capacity.2.1, hv⟩
      output := ⟨hs.output.1, by simp⟩ }
  | writeBwt => exact { hs.clearInverse with }
  | _ => exact { hs with }

/-- Settles O54: each update of a command or a host access keeps the eight clauses. -/
theorem specInvariantKept : Obligations.SpecInvariantKept :=
  fun _ _ hs h => step_keeps (fun _ _ _ => CommandUpdate.specInv) (fun _ _ => HostUpdate.specInv)
    (fun _ => State.SpecInv.powerOnReset) hs h

/-- Settles O55: R24 holds at reset. -/
theorem specInvariantAtReset : Obligations.SpecInvariantAtReset := State.reset_specInv

end Sys2Proof.Machine
end

section
/-! SUPPORT. The sorted symbols of a code, and the canonical form of every memory, update by update (O56). -/

namespace Sys2Proof.Machine

/-! ## The symbols of a code, sorted (R100) -/

theorem symbolsOfLength_length (lens : List Nat) (l : Nat) : (symbolsOfLength lens l).length = lens.count l := by
  unfold symbolsOfLength
  rw [List.length_map, ← List.countP_eq_length_filter, List.count]
  conv_rhs => rw [← List.zipIdx_map_fst 0 lens, List.countP_map]
  rfl

/-- The symbols with the lengths 1..m fill the first start(m + 1) places (R100). -/
theorem flatMap_symbolsOfLength_length (lens : List Nat) (m : Nat) :
    ((List.range' 1 m).flatMap (symbolsOfLength lens)).length = startIndex lens (m + 1) := by
  induction m with
  | zero => rfl
  | succ m ih =>
    rw [List.range'_concat, List.flatMap_append, List.length_append, ih, startIndex_succ lens (Nat.succ_pos m)]
    simp [symbolsOfLength_length, Nat.add_comm 1 m]

/-- A code of legal lengths sorts every symbol. -/
theorem sortedSymbols_length {lens : List Nat} (h : ∀ x ∈ lens, 1 ≤ x ∧ x ≤ 20) :
    (sortedSymbols lens).length = lens.length := by
  rw [sortedSymbols, flatMap_symbolsOfLength_length, startIndex_eq_countP lens (fun x hx => (h x hx).1) 21 (by decide),
    List.countP_eq_length]
  intro x hx
  have := (h x hx).2
  simp
  omega

theorem State.lengths_length (s : State) (g : Fin 6) : (s.lengths g).length = s.symused.toNat := by
  simp [State.lengths]

/-! ## Canonical memories -/

theorem Memory.canonical_splice {w n base : Nat} {m : Memory w} {vs : List (BitVec w)} (h : m.wf ∧ m.below n)
    (hb : base + vs.length ≤ n) : (m.splice base vs).wf ∧ (m.splice base vs).below n :=
  ⟨Memory.wf_splice h.1 base vs, Memory.below_splice h.2 hb⟩

theorem Memory.canonical_write {w n i : Nat} {m : Memory w} (h : m.wf ∧ m.below n) (hi : i < n) (v : BitVec w) :
    (m.write i v).wf ∧ (m.write i v).below n :=
  ⟨Memory.wf_write h.1 i v, Memory.below_write h.2 hi⟩

/-- FIRST and START have the indices 1..21 (R19), which HBUILD fills. -/
theorem Memory.canonical_splice_one {w : Nat} {m : Memory w} {vs : List (BitVec w)}
    (h : m.wf ∧ m.below 22 ∧ ∀ c ∈ m, 1 ≤ c.1) (hv : vs.length = 21) :
    (m.splice 1 vs).wf ∧ (m.splice 1 vs).below 22 ∧ ∀ c ∈ m.splice 1 vs, 1 ≤ c.1 := by
  obtain ⟨hwf, hbelow, hone⟩ := h
  refine ⟨Memory.wf_splice hwf 1 vs, Memory.below_splice hbelow (by omega), fun c hc => ?_⟩
  rcases Memory.mem_splice hc with hc | ⟨hc, -⟩
  · exact hone c hc
  · exact hc

theorem HuffTable.MemoriesOk.build {old : HuffTable} (h : old.MemoriesOk) {lens : List Nat}
    (hlegal : ∀ x ∈ lens, 1 ≤ x ∧ x ≤ 20) (hlen : lens.length ≤ 258) : (old.build lens).MemoriesOk where
  tmin := Memory.canonical_write h.tmin Nat.one_pos _
  tmax := Memory.canonical_write h.tmax Nat.one_pos _
  first := Memory.canonical_splice_one h.first (by simp)
  start := Memory.canonical_splice_one h.start (by simp)
  sym := Memory.canonical_splice h.sym (by
    rw [List.length_map, sortedSymbols_length hlegal, Nat.zero_add]
    exact hlen)

theorem State.MemoriesOk.buildTable {s : State} (hm : s.MemoriesOk) {k : Fin 6} {t : HuffTable} (ht : t.MemoriesOk) :
    ((s.setTable k t).markTable k).MemoriesOk := by
  refine { hm with table := fun g => ?_ }
  by_cases hg : g = k
  · subst hg
    simpa [State.setTable] using ht
  · have := hm.table g
    simpa [State.setTable, Vector.getElem_set, Fin.val_ne_of_ne (Ne.symm hg)] using this

/-- LMAP writes LF where its check of the cursor allows it, and BASE at the bytes (R141). -/
theorem State.MemoriesOk.mapBuffer {s u : State} (hm : s.MemoriesOk) {is : List Nat} (hu : lmapLoop is s = some u) :
    u.markMapped.MemoriesOk := by
  have hu' : u.MemoriesOk := lmapLoop_keeps
    (fun v i hv hlf => { hv with
      lf := Memory.canonical_write hv.lf hlf _
      base := Memory.canonical_write hv.base (v.bwtAt i).isLt _ }) hm hu
  exact { hu' with }

/-- R24(c): at most 258 symbols. -/
theorem State.SpecInv.symused_le {s : State} (hs : s.SpecInv) : s.symused.toNat ≤ 258 := by
  obtain ⟨hnfav, hvalid, hinvalid⟩ := hs.alphabet
  simp only [Config.nfavMax] at hnfav
  cases hf : s.favv
  · simp [hinvalid hf]
  · have := hvalid hf
    omega

theorem CommandUpdate.memoriesOk {i : Instr} {s t : State} (h : CommandUpdate i s t) (hs : s.SpecInv)
    (hm : s.MemoriesOk) : t.MemoriesOk := by
  obtain ⟨-, hcap, hlen⟩ := hs.capacity
  cases h with
  | buildTable g k _ _ _ hsym hlegal =>
    exact hm.buildTable ((hm.table k).build hlegal (s.lengths_length k ▸ hsym))
  | initBlock =>
    exact { hm with fav := Memory.canonical_splice hm.fav (by simpa using s.usedBytes_length_le) }
  | flush => exact { hm with bwt := Memory.canonical_splice hm.bwt (by simpa using hlen) }
  | emitAndPromote c _ _ _ _ h2 hc hfit =>
    have hsym := hs.symused_le
    have hlt : s.bwtlen.toNat < s.bwtCap := by omega
    exact { hm with
      bwt := Memory.canonical_write hm.bwt hlt _
      fav := Memory.canonical_splice hm.fav (by simp; omega) }
  | countBuffer => exact { hm with base := Memory.canonical_splice hm.base (by simp) }
  | mapBuffer u _ _ hu =>
    rw [← lmapLoop_frame hu]
    exact hm.mapBuffer hu
  | setOutput e bs _ _ hbs =>
    have hfit : 0 + bs.length ≤ s.bwtCap := by omega
    exact { hm with out := Memory.canonical_splice hm.out hfit }
  | _ => exact { hm with }

theorem Memory.canonical_nil (w n : Nat) : Memory.wf ([] : Memory w) ∧ Memory.below ([] : Memory w) n :=
  ⟨List.Pairwise.nil, by simp⟩

theorem HuffTable.blank_memoriesOk : HuffTable.blank.MemoriesOk where
  tmin := Memory.canonical_nil _ _
  tmax := Memory.canonical_nil _ _
  first := ⟨List.Pairwise.nil, by simp [HuffTable.blank], by simp [HuffTable.blank]⟩
  start := ⟨List.Pairwise.nil, by simp [HuffTable.blank], by simp [HuffTable.blank]⟩
  sym := Memory.canonical_nil _ _

/-- Nothing is written in a memory that has just come up (R26). -/
theorem State.reset_memoriesOk : State.reset.MemoriesOk where
  used := Memory.canonical_nil _ _
  len g := by simp [State.reset]
  sel := Memory.canonical_nil _ _
  fav := Memory.canonical_nil _ _
  table g := by simpa [State.reset] using HuffTable.blank_memoriesOk
  base := Memory.canonical_nil _ _
  bwt := Memory.canonical_nil _ _
  lf := Memory.canonical_nil _ _
  out := Memory.canonical_nil _ _

theorem State.powerOnReset_memoriesOk (s : State) : s.powerOnReset.MemoriesOk :=
  { State.reset_memoriesOk with
    bwt := Memory.canonical_nil _ _
    lf := Memory.canonical_nil _ _
    out := Memory.canonical_nil _ _ }

theorem State.MemoriesOk.writeLen {s : State} (hm : s.MemoriesOk) (g : Fin 6) {i : Nat} (hi : i < 258) (v : Word) :
    (s.writeLen g i v).MemoriesOk := by
  refine { hm with len := fun j => ?_ }
  by_cases hj : j = g
  · subst hj
    simpa [State.writeLen, Config.symusedMax] using Memory.canonical_write (hm.len j) hi (v.setWidth 8)
  · simpa [State.writeLen, Vector.getElem_set, Fin.val_ne_of_ne (Ne.symm hj)] using hm.len j

theorem HostUpdate.memoriesOk {s t : State} (h : HostUpdate s t) (hm : s.MemoriesOk) : t.MemoriesOk := by
  cases h with
  | writeUsedWord k v hk => exact { hm with used := Memory.canonical_splice hm.used (by simp; omega) }
  | writeLen g i v hi => exact hm.writeLen g hi v
  | writeSel i v hi => exact { hm with sel := Memory.canonical_write hm.sel hi _ }
  | writeBwt i v hi => exact { hm with bwt := Memory.canonical_write hm.bwt hi _ }
  | _ => exact { hm with }

/-- Settles O56: R24 bounds every index an update writes. -/
theorem memoriesStayCanonical : Obligations.MemoriesStayCanonical :=
  fun _ _ hs hm h => (step_keeps (P := fun s => s.SpecInv ∧ s.MemoriesOk)
    (fun _ _ _ hu ⟨hs, hm⟩ => ⟨hu.specInv hs, hu.memoriesOk hs hm⟩)
    (fun _ _ hu ⟨hs, hm⟩ => ⟨hu.specInv hs, hu.memoriesOk hm⟩)
    (fun s ⟨hs, _⟩ => ⟨hs.powerOnReset, s.powerOnReset_memoriesOk⟩) ⟨hs, hm⟩ h).2

end Sys2Proof.Machine
end

section
/-! SUPPORT. The favourites list holds distinct bytes, update by update (O57). -/

namespace Sys2Proof.Machine

/-- Distinct bytes at distinct places of the list. -/
theorem State.favouritesDistinct_iff (s : State) : s.FavouritesDistinct ↔
    (s.favv = true → ∀ i, i < s.nfav.toNat → ∀ j, j < s.nfav.toNat → s.favAt i = s.favAt j → i = j) := by
  simp only [State.FavouritesDistinct, List.nodup_map_iff_inj_on List.nodup_range, List.mem_range]

/-- MINIT's list is the used bytes, ascending (R121). -/
theorem State.favAt_initBlock (s : State) {i : Nat} (hi : i < s.usedBytes.length) :
    s.initBlock.favAt i = BitVec.ofNat 8 s.usedBytes[i] := by
  change s.elem .fav (s.fav.splice 0 (s.usedBytes.map (BitVec.ofNat 8))) i = _
  rw [State.elem_splice, dif_pos (by simpa using hi)]
  simp

theorem State.usedBytes_lt (s : State) {b : Nat} (hb : b ∈ s.usedBytes) : b < 256 := by
  simpa [Config.nfavMax] using (List.mem_filter.mp hb).1

theorem State.initBlock_favouritesDistinct (s : State) : s.initBlock.FavouritesDistinct := by
  rw [State.favouritesDistinct_iff, s.initBlock_nfav_toNat]
  intro _ i hi j hj hij
  rw [s.favAt_initBlock hi, s.favAt_initBlock hj] at hij
  have hij : s.usedBytes[i] = s.usedBytes[j] := by
    have h := congrArg BitVec.toNat hij
    rwa [BitVec.toNat_ofNat, BitVec.toNat_ofNat, Nat.mod_eq_of_lt (s.usedBytes_lt (List.getElem_mem hi)),
      Nat.mod_eq_of_lt (s.usedBytes_lt (List.getElem_mem hj))] at h
  exact ((List.nodup_range.filter _).getElem_inj_iff).mp hij

/-- The place whose byte move-to-front of place `c - 1` brings to place `i` (R125). -/
def promotedFrom (c i : Nat) : Nat :=
  if i = 0 then c - 1 else if i < c then i - 1 else i

theorem promotedFrom_injective {c : Nat} (hc : 1 ≤ c) : Function.Injective (promotedFrom c) := by
  intro i j hij
  unfold promotedFrom at hij
  split_ifs at hij <;> omega

theorem promotedFrom_lt {c n i : Nat} (hc : 1 ≤ c) (hn : c ≤ n) (hi : i < n) : promotedFrom c i < n := by
  unfold promotedFrom
  split_ifs <;> omega

/-- Move-to-front only reorders the list (R125). -/
theorem State.favAt_emitAndPromote (s : State) {c : Nat} (hc : 1 ≤ c) (i : Nat) :
    (s.emitAndPromote c).favAt i = s.favAt (promotedFrom c i) := by
  change s.elem .fav (s.fav.splice 0 (s.favAt (c - 1) :: (List.range (c - 1)).map s.favAt)) i = _
  rw [State.elem_splice]
  unfold promotedFrom
  cases i with
  | zero => simp
  | succ i =>
    by_cases hi : i + 1 < c
    · rw [dif_pos (by simp; omega), if_neg (Nat.succ_ne_zero i), if_pos hi]
      simp
    · rw [dif_neg (by simp; omega), if_neg (Nat.succ_ne_zero i), if_neg hi]
      rfl

theorem State.FavouritesDistinct.emitAndPromote {s : State} (hd : s.FavouritesDistinct) {c : Nat} (hc : 1 ≤ c)
    (hn : s.favv = true → c ≤ s.nfav.toNat) : (s.emitAndPromote c).FavouritesDistinct := by
  rw [State.favouritesDistinct_iff] at hd ⊢
  intro hf i hi j hj hij
  have hcn := hn hf
  rw [s.favAt_emitAndPromote hc, s.favAt_emitAndPromote hc] at hij
  exact promotedFrom_injective hc (hd hf _ (promotedFrom_lt hc hcn hi) _ (promotedFrom_lt hc hcn hj) hij)

theorem CommandUpdate.favouritesDistinct {i : Instr} {s t : State} (h : CommandUpdate i s t) (hs : s.SpecInv)
    (hd : s.FavouritesDistinct) : t.FavouritesDistinct := by
  cases h with
  | discardBlock => exact fun hf => absurd hf (by simp)
  | initBlock => exact s.initBlock_favouritesDistinct
  | emitAndPromote c _ _ _ _ h2 hsym =>
    refine hd.emitAndPromote (by omega) fun hf => ?_
    have := hs.alphabet.2.1 hf
    omega
  | _ => exact hd

theorem HostUpdate.favouritesDistinct {s t : State} (h : HostUpdate s t) (hd : s.FavouritesDistinct) :
    t.FavouritesDistinct := by
  cases h <;> exact hd

theorem State.powerOnReset_favouritesDistinct (s : State) : s.powerOnReset.FavouritesDistinct :=
  fun hf => absurd hf (by simp [State.powerOnReset, State.reset])

/-- Settles O57: MINIT lists distinct bytes and move-to-front permutes them. -/
theorem favouritesStayDistinct : Obligations.FavouritesStayDistinct :=
  fun _ _ hs hd h => (step_keeps (P := fun s => s.SpecInv ∧ s.FavouritesDistinct)
    (fun _ _ _ hu ⟨hs, hd⟩ => ⟨hu.specInv hs, hu.favouritesDistinct hs hd⟩)
    (fun _ _ hu ⟨hs, hd⟩ => ⟨hu.specInv hs, hu.favouritesDistinct hd⟩)
    (fun s ⟨hs, _⟩ => ⟨hs.powerOnReset, s.powerOnReset_favouritesDistinct⟩) ⟨hs, hd⟩ h).2

end Sys2Proof.Machine
end

section
/-! SUPPORT. Every lookup in a built table stays in range and gives a symbol of the code (R106(a)). -/

namespace Sys2Proof.Machine

/-! ## The least and the greatest length (R102) -/

/-- TMIN of a code with a legal length is a legal length, and no symbol has a shorter code. -/
theorem leastLength_spec {lens : List Nat} (hne : lens ≠ []) (hlegal : ∀ x ∈ lens, 1 ≤ x ∧ x ≤ 20) :
    1 ≤ leastLength lens ∧ leastLength lens ≤ 20 ∧ ∀ l, 1 ≤ l → l < leastLength lens → lens.count l = 0 := by
  obtain ⟨x, hx⟩ := List.exists_mem_of_ne_nil lens hne
  unfold leastLength
  cases hfind : (List.range' 1 20).find? (fun l => decide (0 < lens.count l)) with
  | none =>
    have hx20 := hlegal x hx
    have := List.find?_eq_none.mp hfind x (List.mem_range'_1.mpr ⟨hx20.1, by omega⟩)
    exact absurd (List.count_pos_iff.mpr hx) (by simpa using this)
  | some m =>
    obtain ⟨-, hm, hleast⟩ := List.find?_range'_eq_some.mp hfind
    rw [List.mem_range'_1] at hm
    refine ⟨hm.1, by simp; omega, fun l h1 hl => List.count_eq_zero.mpr ?_⟩
    simpa using hleast l h1 hl

theorem greatestLength_le (lens : List Nat) : greatestLength lens ≤ 20 := by
  unfold greatestLength
  cases hfind : (List.range' 1 20).reverse.find? (fun l => decide (0 < lens.count l)) with
  | none => simp
  | some m =>
    have := List.mem_range'_1.mp (List.mem_reverse.mp (List.mem_of_find?_eq_some hfind))
    simp
    omega

/-- The first code is 0 up to the first length that has symbols. -/
theorem firstCode_eq_zero {lens : List Nat} {l : Nat} (h : ∀ k, 1 ≤ k → k < l → lens.count k = 0) :
    firstCode lens l = 0 := by
  induction l with
  | zero => rfl
  | succ l ih =>
    rcases Nat.eq_zero_or_pos l with rfl | hl
    · rfl
    · rw [firstCode_succ lens hl, ih fun k h1 hk => h k h1 (by omega), h l hl (Nat.lt_succ_self l)]

/-- Only symbols of the code are sorted. -/
theorem lt_length_of_mem_sortedSymbols {lens : List Nat} {x : Nat} (h : x ∈ sortedSymbols lens) : x < lens.length := by
  obtain ⟨l, -, h⟩ := List.mem_flatMap.mp h
  obtain ⟨p, hp, rfl⟩ := List.mem_map.mp h
  have := List.snd_lt_of_mem_zipIdx (List.mem_filter.mp hp).1
  simpa using this

/-! ## A built table -/

section build

variable {s : State} {g : Fin 6} {old : HuffTable} {lens : List Nat} (h : s.table[g] = old.build lens)
  (hlegal : ∀ x ∈ lens, 1 ≤ x ∧ x ≤ 20) (hlen : lens.length ≤ 258)
include h

theorem State.tmaxOf_build_toNat : (s.tmaxOf g).toNat = greatestLength lens := by
  rw [State.tmaxOf_build h, toNat_ofNat_of_le (greatestLength_le lens) (by decide)]

include hlegal

theorem State.tminOf_build_toNat (hne : lens ≠ []) : (s.tminOf g).toNat = leastLength lens := by
  rw [State.tminOf_build h, toNat_ofNat_of_le (leastLength_spec hne hlegal).2.1 (by decide)]

include hlen

theorem State.startAt_build_toNat {l : Nat} (h1 : 1 ≤ l) (h2 : l ≤ 21) : (s.startAt g l).toNat = startIndex lens l := by
  have := startIndex_le_length lens (fun x hx => (hlegal x hx).1) h1
  rw [State.startAt_build h h1 h2, toNat_ofNat_of_le (m := 258) (by omega) (by decide)]

theorem State.firstAt_build_toNat {l : Nat} (h1 : 1 ≤ l) (h2 : l ≤ 21) : (s.firstAt g l).toNat = firstCode lens l := by
  have hstart := startIndex_le_length lens (fun x hx => (hlegal x hx).1) h1
  have hfirst : firstCode lens l ≤ 258 * 2 ^ 20 :=
    calc firstCode lens l ≤ startIndex lens l * 2 ^ (l - 1) := firstCode_le lens (fun x hx => (hlegal x hx).1) l h1
      _ ≤ 258 * 2 ^ 20 := Nat.mul_le_mul (by omega) (Nat.pow_le_pow_right (by decide) (by omega))
  rw [State.firstAt_build h h1 h2, toNat_ofNat_of_le hfirst (by decide)]

/-- The scan of a built table stops at a legal length whose codes include the window's first bits (R103, R106(a)). -/
theorem State.scanLength_build (hne : lens ≠ []) {w l : Nat} (hscan : s.scanLength g w = some l) :
    1 ≤ l ∧ l ≤ 20 ∧ firstCode lens l ≤ w >>> (24 - l) ∧ w >>> (24 - l) < firstCode lens l + lens.count l := by
  obtain ⟨hmin, -, hleast⟩ := leastLength_spec hne hlegal
  have hmax := greatestLength_le lens
  unfold State.scanLength at hscan
  rw [State.tminOf_build_toNat h hlegal hne, State.tmaxOf_build_toNat h] at hscan
  obtain ⟨hw, hl, hskipped⟩ := List.find?_range'_eq_some.mp hscan
  rw [List.mem_range'_1] at hl
  have hl1 : 1 ≤ l := by omega
  have hl20 : l ≤ 20 := by omega
  have hpow : 2 ^ (24 - l) = 2 * 2 ^ (23 - l) := by rw [← Nat.pow_succ', show (23 - l).succ = 24 - l by omega]
  refine ⟨hl1, hl20, ?_, ?_⟩
  · rcases Nat.lt_or_ge (leastLength lens) l with hlt | hge
    · have hprev := hskipped (l - 1) (by omega) (by omega)
      rw [show l - 1 + 1 = l by omega, State.firstAt_build_toNat h hlegal hlen hl1 (by omega),
        show 23 - (l - 1) = 24 - l by omega, Nat.shiftLeft_eq] at hprev
      rw [Nat.shiftRight_eq_div_pow, Nat.le_div_iff_mul_le (by positivity)]
      simpa using hprev
    · rw [firstCode_eq_zero fun k h1 hk => hleast k h1 (by omega)]
      exact Nat.zero_le _
  · rw [decide_eq_true_eq, State.firstAt_build_toNat h hlegal hlen (by omega) (by omega), firstCode_succ lens hl1,
      Nat.shiftLeft_eq, Nat.mul_assoc, ← hpow] at hw
    rwa [Nat.shiftRight_eq_div_pow, Nat.div_lt_iff_lt_mul (by positivity)]

/-- A lookup in a built table misses, or hits a symbol of the code at the length where the scan stops. -/
theorem State.lookup_build (hne : lens ≠ []) (w : Nat) :
    s.lookup g w = .miss ∨ ∃ l, s.scanLength g w = some l ∧ ∃ x ∈ sortedSymbols lens, s.lookup g w = .hit l x := by
  unfold State.lookup
  rw [if_neg (by rw [State.tminOf_build_toNat h hlegal hne]; exact Nat.not_lt.mpr (leastLength_spec hne hlegal).1),
    if_neg (by rw [State.tmaxOf_build_toNat h]; exact Nat.not_lt.mpr (greatestLength_le lens))]
  cases hscan : s.scanLength g w with
  | none => exact .inl rfl
  | some l =>
    obtain ⟨h1, h20, hlow, hhigh⟩ := State.scanLength_build h hlegal hlen hne hscan
    have hfirst := State.firstAt_build_toNat h hlegal hlen h1 (by omega)
    have hstart := State.startAt_build_toNat h hlegal hlen h1 (by omega)
    have hend : startIndex lens l + lens.count l ≤ lens.length :=
      startIndex_succ lens h1 ▸ startIndex_le_length lens (fun x hx => (hlegal x hx).1) (by omega)
    have hsorted := sortedSymbols_length hlegal
    have hidx : (s.startAt g l).toNat + (w >>> (24 - l) - (s.firstAt g l).toNat) < (sortedSymbols lens).length := by
      omega
    have hsym := lt_length_of_mem_sortedSymbols (List.getElem_mem hidx)
    refine .inr ⟨l, rfl, _, List.getElem_mem hidx, ?_⟩
    dsimp only
    rw [if_neg (by omega), if_pos (by simp only [Config.symusedMax]; omega), State.symAt_build h hidx,
      toNat_ofNat_of_le (m := 258) (by omega) (by decide)]

end build

/-- The clause of `State.TablesOk` for one lookup. -/
def Lookup.Within (n : Nat) : Lookup → Prop
  | .hit l sym => 1 ≤ l ∧ l ≤ 20 ∧ sym < n
  | .miss => True
  | .outside _ _ => False

theorem State.tablesOk_iff (s : State) : s.TablesOk ↔
    ∀ g : Fin 6, s.tblv[g] = true → ∀ w : Nat, w < 2 ^ 24 → (s.lookup g w).Within s.symused.toNat := Iff.rfl

theorem State.lookup_build_within {s : State} {g : Fin 6} {old : HuffTable} {lens : List Nat}
    (h : s.table[g] = old.build lens) (hlegal : ∀ x ∈ lens, 1 ≤ x ∧ x ≤ 20) (hlen : lens.length ≤ 258)
    (hne : lens ≠ []) (w : Nat) : (s.lookup g w).Within lens.length := by
  rcases State.lookup_build h hlegal hlen hne w with e | ⟨l, hscan, x, hx, e⟩
  · rw [e]
    exact trivial
  · obtain ⟨h1, h20, -⟩ := State.scanLength_build h hlegal hlen hne hscan
    rw [e]
    exact ⟨h1, h20, lt_length_of_mem_sortedSymbols hx⟩

end Sys2Proof.Machine
end

section
/-! SUPPORT. LCOUNT counts the bucket bases, and LMAP, started from them, fills LF with indices of the buffer (R140,
R141, R144(b)). -/

namespace Sys2Proof.Machine

/-! ## LCOUNT -/

theorem State.countBuffer_baseAt (s : State) {b : Nat} (hb : b < 256) :
    (s.countBuffer.baseAt b).toNat = countBelow s.bwtBytes b := by
  have hle : countBelow s.bwtBytes b ≤ s.bwtlen.toNat := s.bwtBytes_length ▸ countBelow_le_length s.bwtBytes b
  have hlt := s.bwtlen.isLt
  change (s.elem .base (s.base.splice 0
    ((List.range 256).map fun b => BitVec.ofNat 25 (countBelow s.bwtBytes b))) b).toNat = _
  rw [State.elem_splice, dif_pos (by simpa using hb)]
  simp only [List.getElem_map, List.getElem_range, Nat.sub_zero]
  exact toNat_ofNat_of_le hle hlt

/-- The inclusive sum of bucket `b` is the exclusive sum of bucket `b + 1`. -/
theorem State.countBelow_bwtBytes_succ (s : State) (b : Nat) :
    countBelow s.bwtBytes (b + 1) = countBelow s.bwtBytes b +
      (List.range s.bwtlen.toNat).countP (fun i => decide ((s.bwtAt i).toNat = b)) := by
  have h := count_lt_succ ((List.range s.bwtlen.toNat).map fun i => (s.bwtAt i).toNat) b
  rw [List.count, List.countP_map, List.countP_map, List.countP_map] at h
  rw [countBelow, countBelow, State.bwtBytes, List.countP_map, List.countP_map]
  exact h

/-- No byte is below 0, and every byte is below 256. -/
theorem countBelow_zero (bs : List Byte) : countBelow bs 0 = 0 := by
  simp [countBelow]

theorem countBelow_256 (bs : List Byte) : countBelow bs 256 = bs.length := by
  rw [countBelow, List.countP_eq_length]
  intro x _
  simpa using x.isLt

/-- A number between the ends of a sequence lies between two neighbours of it. -/
theorem exists_between_neighbours {f : Nat → Nat} {j : Nat} (h0 : f 0 ≤ j) :
    ∀ {m : Nat}, j < f m → ∃ b, b < m ∧ f b ≤ j ∧ j < f (b + 1)
  | 0, hm => absurd hm (Nat.not_lt.mpr h0)
  | m + 1, hm => by
    rcases Nat.lt_or_ge j (f m) with hj | hj
    · obtain ⟨b, hb, hbetween⟩ := exists_between_neighbours h0 hj
      exact ⟨b, by omega, hbetween⟩
    · exact ⟨m, by omega, hj, hm⟩

/-! ## LMAP -/

theorem State.placeIndex_baseAt (s : State) (b j i c : Nat) :
    (s.placeIndex b j i).baseAt c = if c = b then BitVec.ofNat 25 (j + 1) else s.baseAt c :=
  s.elem_write .base s.base b _ c

theorem State.placeIndex_lfAt (s : State) (b j i k : Nat) :
    (s.placeIndex b j i).lfAt k = if k = j then BitVec.ofNat 24 i else s.lfAt k :=
  s.elem_write .lf s.lf j _ k

theorem lmapLoop_cons {i : Nat} {is : List Nat} {s t : State} (h : lmapLoop (i :: is) s = some t) :
    (s.baseAt (s.bwtAt i).toNat).toNat < s.bwtCap ∧
      lmapLoop is (s.placeIndex (s.bwtAt i).toNat (s.baseAt (s.bwtAt i).toNat).toNat i) = some t := by
  unfold lmapLoop at h
  split at h
  · rename_i hlt
    exact ⟨hlt, h⟩
  · cases h

/-- Placing an index moves the cursor of its bucket, and no other, one place on. -/
theorem State.placeIndex_cursor {s : State} (hcap : s.bwtCap ≤ 2 ^ 24) {b : Nat}
    (hlt : (s.baseAt b).toNat < s.bwtCap) (i c : Nat) :
    ((s.placeIndex b (s.baseAt b).toNat i).baseAt c).toNat = (s.baseAt c).toNat + if b = c then 1 else 0 := by
  rw [State.placeIndex_baseAt]
  by_cases hc : c = b
  · subst hc
    rw [if_pos rfl, if_pos rfl, toNat_ofNat_of_le (m := 2 ^ 24) (by omega) (by decide)]
  · rw [if_neg hc, if_neg (Ne.symm hc), Nat.add_zero]

/-- The loop moves each bucket's cursor past as many places as the bucket has indices in the list (R141). -/
theorem lmapLoop_baseAt : ∀ {is : List Nat} {s t : State}, lmapLoop is s = some t → s.bwtCap ≤ 2 ^ 24 → ∀ b,
    (t.baseAt b).toNat = (s.baseAt b).toNat + is.countP (fun i => decide ((s.bwtAt i).toNat = b))
  | [], s, t, h, _, b => by
    injection h with h
    simp [h]
  | i :: is, s, t, h, hcap, b => by
    obtain ⟨hlt, h⟩ := lmapLoop_cons h
    rw [lmapLoop_baseAt h hcap b, State.placeIndex_cursor hcap hlt, List.countP_cons]
    simp only [decide_eq_true_eq]
    change _ + is.countP (fun i => decide ((s.bwtAt i).toNat = b)) = _
    omega

/-- Placing an index below `n` leaves an entry below `n` in its place, and every other entry as it was. -/
theorem State.placeIndex_lfAt_lt {s : State} {n i : Nat} (hi : i < n) {k : Nat} (b j : Nat)
    (h : k = j ∨ (s.lfAt k).toNat < n) : ((s.placeIndex b j i).lfAt k).toNat < n := by
  rw [State.placeIndex_lfAt]
  split
  · rw [BitVec.toNat_ofNat]
    exact Nat.lt_of_le_of_lt (Nat.mod_le _ _) hi
  · rename_i hk
    exact h.resolve_left hk

/-- The loop writes indices of its list only: an entry below `n` stays below `n`. -/
theorem lmapLoop_lfAt_keeps {n k : Nat} : ∀ {is : List Nat} {s t : State}, lmapLoop is s = some t →
    (∀ i ∈ is, i < n) → (s.lfAt k).toNat < n → (t.lfAt k).toNat < n
  | [], s, t, h, _, hk => by
    injection h with h
    exact h ▸ hk
  | i :: is, s, t, h, his, hk => by
    obtain ⟨-, h⟩ := lmapLoop_cons h
    exact lmapLoop_lfAt_keeps h (fun j hj => his j (.tail _ hj))
      (State.placeIndex_lfAt_lt (his i (.head _)) _ _ (.inr hk))

/-- The loop fills every place a bucket's cursor passes with an index of its list. -/
theorem lmapLoop_lfAt {n k b : Nat} : ∀ {is : List Nat} {s t : State}, lmapLoop is s = some t → s.bwtCap ≤ 2 ^ 24 →
    (∀ i ∈ is, i < n) → (s.baseAt b).toNat ≤ k → k < (t.baseAt b).toNat → (t.lfAt k).toNat < n
  | [], s, t, h, _, _, h1, h2 => by
    injection h with h
    subst h
    omega
  | i :: is, s, t, h, hcap, his, h1, h2 => by
    obtain ⟨hlt, h⟩ := lmapLoop_cons h
    have his' : ∀ j ∈ is, j < n := fun j hj => his j (.tail _ hj)
    by_cases hk : k = (s.baseAt (s.bwtAt i).toNat).toNat
    · exact lmapLoop_lfAt_keeps h his' (State.placeIndex_lfAt_lt (his i (.head _)) _ _ (.inl hk))
    · refine lmapLoop_lfAt h hcap his' ?_ h2
      rw [State.placeIndex_cursor hcap hlt]
      split
      · rename_i hb
        rw [hb] at hk
        omega
      · exact h1

/-- LMAP from counted bases: the cursors pass every place of the buffer, so every LF entry of it is an index of it. -/
theorem lmapLoop_fills {s t : State} (hcap : s.bwtCap ≤ 2 ^ 24)
    (hbases : ∀ b, b < 256 → (s.baseAt b).toNat = countBelow s.bwtBytes b)
    (h : lmapLoop (List.range s.bwtlen.toNat) s = some t) {j : Nat} (hj : j < s.bwtlen.toNat) :
    (t.lfAt j).toNat < s.bwtlen.toNat := by
  obtain ⟨b, hb, hlow, hhigh⟩ : ∃ b, b < 256 ∧ countBelow s.bwtBytes b ≤ j ∧ j < countBelow s.bwtBytes (b + 1) := by
    refine exists_between_neighbours (by simp [countBelow_zero]) ?_
    rwa [countBelow_256, s.bwtBytes_length]
  refine lmapLoop_lfAt (b := b) h hcap (fun i hi => List.mem_range.mp hi) ?_ ?_
  · rwa [hbases b hb]
  · rwa [lmapLoop_baseAt h hcap b, hbases b hb, ← s.countBelow_bwtBytes_succ]

end Sys2Proof.Machine
end

section
/-! SUPPORT. The whole invariant, update by update (O58, O59). -/

namespace Sys2Proof.Machine

theorem CommandUpdate.powerOk {i : Instr} {s t : State} (h : CommandUpdate i s t) (hs : s.SpecInv) (hp : s.PowerOk) :
    t.PowerOk := by
  cases h with
  | discardBlock | initBlock | flush => exact Nat.zero_le _
  | runAdd c hfit =>
    obtain ⟨-, hcap, -⟩ := hs.capacity
    have hpow : s.power.toNat + c ≤ 24 := (Nat.pow_le_pow_iff_right (by decide : 1 < 2)).mp (by omega)
    rw [State.PowerOk, State.runAdd_power, toNat_ofNat_of_le (m := 25) (by omega) (by decide)]
    omega
  | _ => exact hp

/-- Only HBUILD makes a table valid or changes one, and SYMUSED changes only where all tables are invalid. -/
theorem CommandUpdate.tablesOk {i : Instr} {s t : State} (h : CommandUpdate i s t) (ht : s.TablesOk) : t.TablesOk := by
  cases h with
  | discardBlock | initBlock => exact fun g hg => by simp at hg
  | buildTable g k _ _ hne hsym hlegal =>
    have hlen := s.lengths_length k
    rw [State.tablesOk_iff] at ht ⊢
    intro j hj w hw
    by_cases hjk : j = k
    · subst hjk
      have hbuilt : ((s.setTable j (s.table[j].build (s.lengths j))).markTable j).table[j] =
          s.table[j].build (s.lengths j) := by simp [State.setTable]
      have := State.lookup_build_within hbuilt hlegal (by omega) (fun h => hne (by simpa [h] using hlen.symm)) w
      rwa [hlen] at this
    · have htbl : ((s.setTable k (s.table[k].build (s.lengths k))).markTable k).table[j] = s.table[j] := by
        simp [State.setTable, Fin.val_ne_of_ne (Ne.symm hjk)]
      have hvalid : s.tblv[j] = true := by
        simpa [State.markTable, Vector.getElem_set, Fin.val_ne_of_ne (Ne.symm hjk)] using hj
      rw [State.lookup_congr (s := s) (t := (s.setTable k _).markTable k) rfl j htbl w]
      exact ht j hvalid w hw
  | _ => exact ht

/-- Whatever changes the buffer or BASE has cleared CNTV, but LCOUNT, which sets the bases. -/
theorem CommandUpdate.basesOk {i : Instr} {s t : State} (h : CommandUpdate i s t) (hb : s.BasesOk) : t.BasesOk := by
  cases h with
  | discardBlock | initBlock | clearInverse => exact fun hc => by simp at hc
  | flush _ hcntv | emitAndPromote _ _ hcntv => exact fun hc => by simp [hcntv] at hc
  | countBuffer => exact fun _ b hlt => s.countBuffer_baseAt hlt
  | mapBuffer u => exact fun hc => by simp at hc
  | _ => exact hb

/-- Whatever changes the buffer has cleared LFV, and LMAP fills LF from counted bases. -/
theorem CommandUpdate.mapOk {i : Instr} {s t : State} (h : CommandUpdate i s t) (hs : s.SpecInv) (hb : s.BasesOk)
    (hm : s.MapOk) : t.MapOk := by
  cases h with
  | discardBlock | initBlock | clearInverse | countBuffer => exact fun hl => by simp [State.countBuffer] at hl
  | flush _ _ hlfv | emitAndPromote _ _ _ hlfv => exact fun hl => by simp [hlfv] at hl
  | mapBuffer u _ hcntv hu =>
    intro _ j hj
    have hfilled := lmapLoop_fills hs.capacity.2.1 (hb hcntv) hu hj
    rw [lmapLoop_frame hu] at hfilled
    exact hfilled
  | _ => exact hm

theorem CommandUpdate.inv {i : Instr} {s t : State} (h : CommandUpdate i s t) (hs : s.Inv) : t.Inv where
  spec := h.specInv hs.spec
  power := h.powerOk hs.spec hs.power
  tables := h.tablesOk hs.tables
  bases := h.basesOk hs.bases
  map := h.mapOk hs.spec hs.bases hs.map
  memories := h.memoriesOk hs.spec hs.memories

/-- With POWER = 0 and TBLV, CNTV, LFV cleared, only R24 and the memories are left to claim. -/
theorem State.inv_of_cleared {s : State} (hspec : s.SpecInv) (hmemories : s.MemoriesOk) (hpower : s.power = 0)
    (htblv : s.tblv = Vector.replicate 6 false) (hcntv : s.cntv = false) (hlfv : s.lfv = false) : s.Inv where
  spec := hspec
  power := by simp [State.PowerOk, hpower]
  tables g hg := by simp [htblv] at hg
  bases hc := by simp [hcntv] at hc
  map hl := by simp [hlfv] at hl
  memories := hmemories

theorem State.Inv.powerOnReset {s : State} (hs : s.Inv) : s.powerOnReset.Inv :=
  State.inv_of_cleared hs.spec.powerOnReset s.powerOnReset_memoriesOk rfl rfl rfl rfl

theorem HostUpdate.inv {s t : State} (h : HostUpdate s t) (hs : s.Inv) : t.Inv := by
  have hspec := h.specInv hs.spec
  have hmemories := h.memoriesOk hs.memories
  cases h with
  | writeBwtlen =>
    exact { hs with
      spec := hspec
      power := Nat.zero_le _
      bases := fun hc => by simp at hc
      map := fun hl => by simp at hl
      memories := hmemories }
  | writeBwt =>
    exact { hs with
      spec := hspec
      bases := fun hc => by simp [State.writeBwt] at hc
      map := fun hl => by simp [State.writeBwt] at hl
      memories := hmemories }
  | _ => exact { hs with spec := hspec, memories := hmemories }

/-- Settles O58: each update keeps every part of the invariant. -/
theorem fullInvariantKept : Obligations.FullInvariantKept :=
  fun _ _ hs h => step_keeps (fun _ _ _ => CommandUpdate.inv) (fun _ _ => HostUpdate.inv)
    (fun _ => State.Inv.powerOnReset) hs h

/-- Settles O59: every register and flag is 0 and nothing is written. -/
theorem fullInvariantAtReset : Obligations.FullInvariantAtReset :=
  State.inv_of_cleared State.reset_specInv State.reset_memoriesOk rfl rfl rfl rfl

end Sys2Proof.Machine
end

section
/-! SUPPORT. What each command leaves alone (O42, O43): the fields an update may change, then the commands. -/

namespace Sys2Proof.Machine

/-- What the host writes, the parameter BWT_CAP, and the model's own fields (R11, R19). -/
def State.hostState (s : State) :=
  (s.opa, s.inlen, s.ngroups, s.nsel, s.origin, s.used, s.len, s.sel, s.bwtCap, s.lent, s.powerDraw, s.bus, s.rdata)

/-- A command leaves alone whatever none of its updates changes. -/
theorem exec_keeps {α : Type} {i : Instr} (f : State → α) (hf : ∀ u v, CommandUpdate i u v → f v = f u) {s t : State}
    (h : exec i s = .next t) : f t = f s :=
  keeps_of_chain (P := fun u => f u = f s) (fun u v huv e => (hf u v huv).trans e) (exec_chain h) rfl

theorem CommandUpdate.hostState {i : Instr} {s t : State} (h : CommandUpdate i s t) : t.hostState = s.hostState := by
  cases h <;> rfl

/-- Settles O42: no update of a command changes the host's state. -/
theorem commandsKeepHostState : Obligations.CommandsKeepHostState := by
  intro i s t h
  have e := exec_keeps State.hostState (fun _ _ => CommandUpdate.hostState) h
  simpa only [State.hostState, Prod.mk.injEq] using e

theorem mem_of_processesSymbols {i : Instr} (h : processesSymbols i = true) : i ∈ [Instr.msym, .mstep, .mblock] := by
  cases i <;> simp_all [processesSymbols]

/-! ## Which updates change which field -/

section updates

variable {i : Instr} {s t : State} (h : CommandUpdate i s t)
include h

theorem CommandUpdate.pos (hi : movesCursor i = false) (hstart : i ≠ .start) : t.pos = s.pos := by
  cases h with
  | beginCall hi' => exact absurd hi' hstart
  | setPos _ hi' => simp [hi] at hi'
  | _ => rfl

theorem CommandUpdate.limit_input (hstart : i ≠ .start) : t.limit = s.limit ∧ t.input = s.input := by
  cases h with
  | beginCall hi => exact absurd hi hstart
  | _ => exact ⟨rfl, rfl⟩

theorem CommandUpdate.blkidx (hi : i ∉ [Instr.start, .blkend]) : t.blkidx = s.blkidx := by
  cases h with
  | beginCall hi' => simp [hi'] at hi
  | countBlock _ hi' => simp [hi'] at hi
  | _ => rfl

theorem CommandUpdate.table (hi : ∀ g, i ≠ .hbuild g) : t.table = s.table := by
  cases h with
  | buildTable g _ hi' => exact absurd hi' (hi g)
  | _ => rfl

theorem CommandUpdate.fav (hi : i ∉ [Instr.minit, .msym, .mstep, .mblock]) : t.fav = s.fav := by
  cases h with
  | initBlock hi' => simp [hi'] at hi
  | emitAndPromote _ hi' => exact absurd (List.mem_cons_of_mem _ (mem_of_processesSymbols hi')) hi
  | _ => rfl

theorem CommandUpdate.bwt (hi : i ∉ [Instr.msym, .mstep, .mblock]) : t.bwt = s.bwt := by
  cases h with
  | flush hi' => exact absurd (mem_of_processesSymbols hi') hi
  | emitAndPromote _ hi' => exact absurd (mem_of_processesSymbols hi') hi
  | _ => rfl

theorem CommandUpdate.base (hi : i ∉ [Instr.lcount, .lmap, .linv]) : t.base = s.base := by
  cases h with
  | countBuffer hi' => rcases hi' with rfl | rfl <;> simp at hi
  | mapBuffer _ hi' => rcases hi' with rfl | rfl <;> simp at hi
  | _ => rfl

theorem CommandUpdate.lf (hi : i ∉ [Instr.lmap, .linv]) : t.lf = s.lf := by
  cases h with
  | mapBuffer _ hi' => rcases hi' with rfl | rfl <;> simp at hi
  | _ => rfl

theorem CommandUpdate.out (hi : i ∉ [Instr.lwalk, .linv]) : t.out = s.out := by
  cases h with
  | setOutput _ _ hi' => rcases hi' with rfl | rfl <;> simp at hi
  | _ => rfl

end updates

/-- The commands that may move the cursor are those R12 lists for POS. -/
theorem movesCursor_eq_false {i : Instr} (hbcons : ∀ n, i ≠ .bcons n) (hhdec : ∀ g, i ≠ .hdec g)
    (h : i ∉ [Instr.start, .bseek, .mstep, .mblock]) : movesCursor i = false := by
  cases i with
  | bcons n => exact absurd rfl (hbcons n)
  | hdec g => exact absurd rfl (hhdec g)
  | bseek | mstep | mblock => simp at h
  | _ => rfl

theorem HostUpdate.input {s t : State} (h : HostUpdate s t) : t.input = s.input := by
  cases h <;> rfl

/-! ## START's word and CMD's address -/

/-- Format Z's operand is 0 and its row's command is the result (R61). -/
theorem decodeZ_ok {arg : BitVec 24} {i j : Instr} (h : decodeZ arg i = .ok j) : arg = 0 ∧ j = i := by
  unfold decodeZ at h
  split at h
  · rename_i harg
    injection h with h
    exact ⟨harg, h.symm⟩
  · cases h

theorem decodeN_ok {arg : BitVec 24} {mk : BitVec 5 → Instr} {j : Instr} (h : decodeN arg mk = .ok j) :
    ∃ n, j = mk n := by
  unfold decodeN at h
  split_ifs at h
  injection h with h
  exact ⟨_, h.symm⟩

theorem decodeG_ok {arg : BitVec 24} {mk : BitVec 3 → Instr} {j : Instr} (h : decodeG arg mk = .ok j) :
    ∃ g, j = mk g := by
  unfold decodeG at h
  split_ifs at h
  injection h with h
  exact ⟨_, h.symm⟩

/-- The op byte of a word is its command's (R63). -/
theorem opField_toNat_of_decode {w : Word} {i : Instr} (h : decode w = .ok i) : (opField w).toNat = i.op.toNat := by
  unfold decode at h
  split at h
  case h_5 hop | h_6 hop => obtain ⟨n, rfl⟩ := decodeN_ok h; exact hop
  case h_7 hop | h_8 hop | h_9 hop => obtain ⟨g, rfl⟩ := decodeG_ok h; exact hop
  case h_18 => cases h
  all_goals
    rename_i hop
    obtain ⟨-, rfl⟩ := decodeZ_ok h
    exact hop

/-- 0x01000000 is START's only word (R63). -/
theorem decode_eq_start {w : Word} (h : decode w = .ok .start) : w = 0x01000000 := by
  have hop : (opField w).toNat = 1 := opField_toNat_of_decode h
  have harg : (argField w).toNat = 0 := by
    have hz : decode w = decodeZ (argField w) .start := by
      unfold decode
      rw [hop]
      rfl
    obtain ⟨h0, -⟩ := decodeZ_ok (hz.symm.trans h)
    simp [h0]
  rw [opField, BitVec.extractLsb'_toNat, Nat.shiftRight_eq_div_pow] at hop
  rw [argField, BitVec.extractLsb'_toNat, Nat.shiftRight_eq_div_pow] at harg
  have := w.isLt
  apply BitVec.eq_of_toNat_eq
  change w.toNat = 0x01000000
  omega

section registers

variable {r : Reg}

theorem Slot.ne_reg_ite {c : Prop} [Decidable c] {a b : Slot} (ha : a ≠ .reg r) (hb : b ≠ .reg r) :
    (if c then a else b) ≠ .reg r :=
  iteInduction (motive := fun slot => slot ≠ Slot.reg r) (fun _ => ha) fun _ => hb

theorem tableSlot_ne_reg (g : Fin 6) (o : Nat) : tableSlot g o ≠ .reg r := by
  unfold tableSlot
  exact Slot.ne_reg_ite nofun <| Slot.ne_reg_ite nofun <| Slot.ne_reg_ite nofun <| Slot.ne_reg_ite nofun <|
    Slot.ne_reg_ite nofun nofun

/-- The registers lie below word 0x40, in the order of R14 (R45). -/
theorem slotAt_eq_reg {cap w : Nat} (h : slotAt cap w = .reg r) : Reg.inOrder[w]? = some r := by
  revert h
  unfold slotAt
  refine iteInduction (motive := fun slot => slot = Slot.reg r → Reg.inOrder[w]? = some r)
    (fun _ h => ?_) fun _ h => absurd h ?_
  · split at h
    · rename_i hr
      injection h with h
      exact h ▸ hr
    · cases h
  refine Slot.ne_reg_ite nofun <| Slot.ne_reg_ite nofun <| Slot.ne_reg_ite nofun <| Slot.ne_reg_ite nofun <|
    Slot.ne_reg_ite nofun ?_
  split
  · exact Slot.ne_reg_ite nofun nofun
  refine Slot.ne_reg_ite nofun ?_
  split
  · exact tableSlot_ne_reg _ _
  exact Slot.ne_reg_ite nofun <| Slot.ne_reg_ite nofun <| Slot.ne_reg_ite nofun <|
    Slot.ne_reg_ite (Slot.ne_reg_ite nofun nofun) <| Slot.ne_reg_ite (Slot.ne_reg_ite nofun nofun) <|
      Slot.ne_reg_ite nofun nofun

end registers

/-- Word 0 of the map is CMD, and no other is (R45). -/
theorem slotAt_eq_cmd {cap w : Nat} (h : slotAt cap w = .reg .cmd) : w = 0 := by
  have hget := slotAt_eq_reg h
  have hw : w < 22 := (List.getElem?_eq_some_iff.mp hget).1
  have hfirst : ∀ v < 22, Reg.inOrder[v]? = some .cmd → v = 0 := by decide
  exact hfirst w hw hget

/-- A step that is neither START's nor the power-on reset's leaves IN as it was (R49, U2). -/
theorem step_input {s t : State} (h : step s = .next t)
    (hstart : ∀ rest, s.bus ≠ .write 4 0 0x01000000 :: rest) (hreset : ∀ rest, s.bus ≠ .powerOn :: rest) :
    t.input = s.input := by
  rcases step_next h with h | ⟨rest, hbus, -⟩ | ⟨addr, v, rest, i, hbus, haligned, hcmd, hdecode, h⟩
  · exact keeps_of_chain (P := fun u => u.input = s.input) (fun _ _ hu e => hu.input.trans e) h rfl
  · exact absurd hbus (hreset rest)
  · have hne : i ≠ .start := by
      rintro rfl
      have haddr : addr = 0 := BitVec.eq_of_toNat_eq (by
        have := slotAt_eq_cmd hcmd
        simp
        omega)
      exact hstart rest (by rw [hbus, haddr, decode_eq_start hdecode])
    have hkept := exec_keeps State.input (fun _ _ hu => (hu.limit_input hne).2) h
    exact hkept

/-- Settles O43: the update that changes a field names the commands that may make it. -/
theorem onlyTheseCommandsWrite : Obligations.OnlyTheseCommandsWrite := by
  refine ⟨fun i s t h => ⟨fun hb hh hi => ?_, fun hi => ?_, ?_, fun hi => ?_, fun hi => ?_, fun hi => ?_, fun hi => ?_,
    fun hi => ?_, fun hi => ?_, fun hi => ?_⟩, fun s => ⟨_, rfl, rfl⟩, fun s rest buf hbus => ?_, fun s t => step_input⟩
  · have hstart : i ≠ .start := fun e => by simp [e] at hi
    exact exec_keeps State.pos (fun _ _ hu => hu.pos (movesCursor_eq_false hb hh hi) hstart) h
  · exact ⟨exec_keeps State.limit (fun _ _ hu => (hu.limit_input hi).1) h,
      exec_keeps State.input (fun _ _ hu => (hu.limit_input hi).2) h⟩
  · rintro rfl
    injection h with h
    subst h
    rfl
  · exact exec_keeps State.blkidx (fun _ _ hu => hu.blkidx hi) h
  · exact exec_keeps State.table (fun _ _ hu => hu.table hi) h
  · exact exec_keeps State.fav (fun _ _ hu => hu.fav hi) h
  · exact exec_keeps State.bwt (fun _ _ hu => hu.bwt hi) h
  · exact exec_keeps State.base (fun _ _ hu => hu.base hi) h
  · exact exec_keeps State.lf (fun _ _ hu => hu.lf hi) h
  · exact exec_keeps State.out (fun _ _ hu => hu.out hi) h
  · simp [step, State.serveNext, hbus, State.serve]

end Sys2Proof.Machine
end

section
/-! SUPPORT. The host's side: STATUS, the writes of the BWT buffer, the ignored writes, the registers at reset (O45,
O47, O49, O53). -/

namespace Sys2Proof.Machine

/-! ## STATUS (R15) -/

/-- Six flags side by side: the last one is bit 0. -/
theorem getLsbD_sixFlags (a b c d e f : Bool) :
    let x := BitVec.ofBool f ++ BitVec.ofBool e ++ BitVec.ofBool d ++ BitVec.ofBool c ++ BitVec.ofBool b ++
      BitVec.ofBool a
    x.getLsbD 0 = a ∧ x.getLsbD 1 = b ∧ x.getLsbD 2 = c ∧ x.getLsbD 3 = d ∧ x.getLsbD 4 = e ∧ x.getLsbD 5 = f := by
  revert a b c d e f
  decide

theorem State.tblvBits_getLsbD (s : State) (g : Fin 6) : s.tblvBits.getLsbD g.val = s.tblv[g] := by
  obtain ⟨h0, h1, h2, h3, h4, h5⟩ :=
    getLsbD_sixFlags s.tblv[0] s.tblv[1] s.tblv[2] s.tblv[3] s.tblv[4] s.tblv[5]
  match g with
  | 0 => exact h0
  | 1 => exact h1
  | 2 => exact h2
  | 3 => exact h3
  | 4 => exact h4
  | 5 => exact h5

/-- The fields of a word laid out as R15 lays out STATUS. -/
theorem getLsbD_statusFields (e : BitVec 8) (t f : BitVec 6) (i : Nat) :
    (0#8 ++ e ++ 0#2 ++ t ++ 0#2 ++ f).getLsbD i =
      if i < 6 then f.getLsbD i
      else if i < 8 then false
      else if i < 14 then t.getLsbD (i - 8)
      else if i < 16 then false
      else if i < 24 then e.getLsbD (i - 16)
      else false := by
  have hsub (k n : Nat) (hn : 0 < n) : i - k < n ↔ i < k + n := by omega
  simp only [BitVec.getLsbD_append, BitVec.getLsbD_zero, Nat.sub_sub]
  simp only [hsub 6 2 (by decide), hsub (6 + 2) 6 (by decide), hsub (6 + 2 + 6) 2 (by decide),
    hsub (6 + 2 + 6 + 2) 8 (by decide)]

/-- `n` bits of a word are 0 where each of them is. -/
theorem extractLsb'_eq_zero {w k n : Nat} {x : BitVec w} (h : ∀ i < n, x.getLsbD (k + i) = false) :
    x.extractLsb' k n = 0 := by
  apply BitVec.eq_of_getLsbD_eq
  intro i hi
  simp [BitVec.getLsbD_extractLsb', h i hi]

theorem State.status_getLsbD (s : State) (i : Nat) : s.status.getLsbD i =
    if i < 6 then (BitVec.ofBool s.outv ++ BitVec.ofBool s.lfv ++ BitVec.ofBool s.cntv ++
      BitVec.ofBool s.favv ++ BitVec.ofBool s.eobf ++ BitVec.ofBool s.fault).getLsbD i
    else if i < 8 then false
    else if i < 14 then s.tblvBits.getLsbD (i - 8)
    else if i < 16 then false
    else if i < 24 then s.err.getLsbD (i - 16)
    else false :=
  getLsbD_statusFields s.err s.tblvBits _ i

theorem State.status_err (s : State) : s.status.extractLsb' 16 8 = s.err := by
  apply BitVec.eq_of_getLsbD_eq
  intro i hi
  rw [BitVec.getLsbD_extractLsb', s.status_getLsbD, if_neg (by omega), if_neg (by omega), if_neg (by omega),
    if_neg (by omega), if_pos (by omega), Nat.add_sub_cancel_left]
  simp [hi]

/-- Settles O45: the layout, field by field. -/
theorem statusLayout : Obligations.StatusLayout := by
  intro s
  obtain ⟨h0, h1, h2, h3, h4, h5⟩ := getLsbD_sixFlags s.fault s.eobf s.favv s.cntv s.lfv s.outv
  refine ⟨?_, ?_, ?_, ?_, ?_, ?_, ?_, fun g => ?_, ?_, s.status_err, ?_, fun hrecord hfault => ?_⟩
  · exact (s.status_getLsbD 0).trans h0
  · exact (s.status_getLsbD 1).trans h1
  · exact (s.status_getLsbD 2).trans h2
  · exact (s.status_getLsbD 3).trans h3
  · exact (s.status_getLsbD 4).trans h4
  · exact (s.status_getLsbD 5).trans h5
  · refine extractLsb'_eq_zero fun i hi => ?_
    exact (s.status_getLsbD _).trans (by rw [if_neg (by omega), if_pos (by omega)])
  · refine (s.status_getLsbD _).trans ?_
    rw [if_neg (by omega), if_neg (by omega), if_pos (by omega), Nat.add_sub_cancel_left, s.tblvBits_getLsbD]
  · refine extractLsb'_eq_zero fun i hi => ?_
    refine (s.status_getLsbD _).trans ?_
    rw [if_neg (by omega), if_neg (by omega), if_neg (by omega), if_pos (by omega)]
  · refine extractLsb'_eq_zero fun i hi => ?_
    refine (s.status_getLsbD _).trans ?_
    rw [if_neg (by omega), if_neg (by omega), if_neg (by omega), if_neg (by omega), if_neg (by omega)]
  · exact s.status_err.trans (hrecord.1 hfault).1

/-! ## Host writes through the map -/

/-- A write to the host space, served (R46). -/
theorem step_write {s : State} {rest : List HostAccess} {addr : BitVec 28} {v : Word}
    (hbus : s.bus = .write 4 addr v :: rest) (haddr : addr.toNat % 4 = 0) (hcmd : s.slotOf addr ≠ .reg .cmd) :
    step s = .next (State.writeSlot { s with bus := rest } v (s.slotOf addr)) := by
  simp only [step, State.serveNext, hbus, State.serve, alignedWord, haddr, decide_true, Bool.and_self, if_true]
  exact if_neg hcmd

/-- BWT[i] lies at word 0x1000000 + i (R45). -/
theorem slotAt_bwt {cap i : Nat} (hi : i < cap) (hcap : cap ≤ 2 ^ 24) : slotAt cap (0x1000000 + i) = .bwt i := by
  have hlow {n : Nat} (hn : n ≤ 0x1000000) : ¬ 0x1000000 + i < n := by omega
  unfold slotAt
  rw [if_neg (hlow (by decide)), if_neg (hlow (by decide)), if_neg (hlow (by decide)), if_neg (hlow (by decide)),
    if_neg (hlow (by decide)), if_neg (hlow (by decide)), dif_neg (hlow (by decide)), if_neg (hlow (by decide)),
    dif_neg (hlow (by decide)), if_neg (hlow (by decide)), if_neg (hlow (by decide)), if_neg (hlow (by decide)),
    if_pos (by omega), Nat.add_sub_cancel_left, if_pos hi]

/-- Settles O47: the two words, served through the map. -/
theorem hostWritesOfBufferInvalidate : Obligations.HostWritesOfBufferInvalidate := by
  intro s rest v
  refine ⟨fun hbus => ?_, fun i hi hcap hbus => ?_⟩
  · have hslot : s.slotOf 0x038 = .reg .bwtlen := by simp [State.slotOf, slotAt, Reg.inOrder]
    have hstep : step s = .next (State.writeBwtlen { s with bus := rest } v) := by
      rw [step_write hbus (by decide) (by rw [hslot]; decide), hslot]
      rfl
    have hv : (v.setWidth 25).toNat = v.toNat % 2 ^ 25 := BitVec.toNat_setWidth ..
    rw [hstep, State.writeBwtlen, hv]
    exact ⟨fun h => by rw [if_pos h], fun h => by rw [if_neg (Nat.not_lt.mpr h)]; rfl⟩
  · have haddr : (BitVec.ofNat 28 (0x4000000 + 4 * i)).toNat = 0x4000000 + 4 * i :=
      toNat_ofNat_of_le (m := 2 ^ 27) (by omega) (by decide)
    have hslot : s.slotOf (BitVec.ofNat 28 (0x4000000 + 4 * i)) = .bwt i := by
      rw [State.slotOf, haddr, show (0x4000000 + 4 * i) / 4 = 0x1000000 + i by omega, slotAt_bwt hi hcap]
    have hstep : step s = .next (State.writeBwt { s with bus := rest } i v) := by
      rw [step_write hbus (by omega) (by rw [hslot]; nofun), hslot]
      rfl
    refine ⟨_, hstep, ?_, fun j hj => ?_, rfl⟩
    · exact (s.elem_write .bwt s.bwt i _ i).trans (if_pos rfl)
    · exact (s.elem_write .bwt s.bwt i _ j).trans (if_neg hj)

/-- A word the host may not write is left alone, and so is every other (R18, R46). -/
theorem State.writeSlot_readOnly (s : State) (v : Word) {slot : Slot} (h : slot.writableWidth = 0) :
    s.writeSlot v slot = s := by
  cases slot with
  | reg r =>
    cases r with
    | opa | inlen | ngroups | nsel | origin | bwtlen => simp [Slot.writableWidth] at h
    | _ => rfl
  | usedWord | len | sel | bwt => simp [Slot.writableWidth] at h
  | _ => rfl

/-- Settles O49: CMD is the only word outside `writableWidth` with an effect, and it lies at address 0. -/
theorem hostWriteToReadOnlyIgnored : Obligations.HostWriteToReadOnlyIgnored := by
  intro s rest addr v hbus haddr hne hread
  have hcmd : s.slotOf addr ≠ .reg .cmd := by
    intro h
    have := slotAt_eq_cmd h
    exact hne (BitVec.eq_of_toNat_eq (by simp; omega))
  have hkept := State.writeSlot_readOnly { s with bus := rest } v (slot := s.slotOf addr) hread
  rw [step_write hbus haddr hcmd, hkept]

/-- Settles O53: reset sets each of them to 0. -/
theorem resetRegistersZero : Obligations.ResetRegistersZero := by
  refine ⟨fun r => ?_, rfl, fun g => ?_⟩
  · cases r <;> rfl
  · simp [State.reset]

end Sys2Proof.Machine
end

section
/-! SUPPORT. The host space: which word of the map is which (R45), what a host access does (R44, R46), and the bits of
the input bytes (O15, O46, O48, O50, O51). -/

namespace Sys2Proof.Machine

/-! ## Numbers and their bits -/

/-- The bits of a number, each at its place, add up to its low part. -/
theorem sum_testBit (x n : Nat) :
    ((List.range n).map fun j => (x.testBit j).toNat <<< j).sum = x % 2 ^ n := by
  induction n with
  | zero => simp [Nat.mod_one]
  | succ n ih =>
    rw [List.range_succ, List.map_append, List.sum_append, ih, Nat.mod_pow_succ, ← Nat.toNat_testBit]
    simp [Nat.shiftLeft_eq, Nat.mul_comm]

/-- The bits of a word, each at its place, add up to the word. -/
theorem sum_getLsbD {w : Nat} (x : BitVec w) :
    ((List.range w).map fun j => (x.getLsbD j).toNat <<< j).sum = x.toNat :=
  (sum_testBit x.toNat w).trans (Nat.mod_eq_of_lt x.isLt)

/-- The same sum from the most significant bit down, the order of the input space (R41, R42). -/
theorem sum_getLsbD_descending {w : Nat} (x : BitVec w) :
    ((List.range w).map fun k => (x.getLsbD (w - 1 - k)).toNat <<< (w - 1 - k)).sum = x.toNat := by
  have hreverse : (List.range w).map (w - 1 - ·) = (List.range w).reverse := by
    rw [List.range_eq_range', List.reverse_range', List.range_eq_range', Nat.zero_add]
  calc ((List.range w).map fun k => (x.getLsbD (w - 1 - k)).toNat <<< (w - 1 - k)).sum
      = (((List.range w).map (w - 1 - ·)).map fun j => (x.getLsbD j).toNat <<< j).sum := by rw [List.map_map]; rfl
    _ = x.toNat := by rw [hreverse, List.map_reverse, List.sum_reverse, sum_getLsbD]

/-! ## A whole byte at the cursor -/

/-- Bit `8 i + k` of the input space is bit `7 - k` of IN[i] (R41). -/
theorem State.inbit_of_byte {s : State} {i k : Nat} (hk : k < 8) (hlimit : 8 * i + 8 ≤ s.limit.toNat) :
    s.inbit (8 * i + k) = ((s.inByte i).getLsbD (7 - k)).toNat := by
  rw [State.inbit, if_pos (by omega), show (8 * i + k) / 8 = i by omega, show (8 * i + k) % 8 = k by omega]

/-- At a byte boundary the lookahead of 8 bits is the byte (R41, R91). -/
theorem State.peek_byte {s : State} {i : Nat} (hpos : s.pos.toNat = 8 * i) (hlimit : 8 * i + 8 ≤ s.limit.toNat) :
    s.peek 8 = (s.inByte i).toNat := by
  rw [State.peek, hpos, ← sum_getLsbD_descending (s.inByte i)]
  congr 1
  refine List.map_congr_left fun k hk => ?_
  rw [State.inbit_of_byte (List.mem_range.mp hk) hlimit]

/-- BCONS with enough bits left (R94): the lookahead, and the cursor behind it. -/
theorem exec_bcons_enough {s : State} {n : BitVec 5} (hfault : s.fault = false) (h1 : 1 ≤ n.toNat) (h2 : n.toNat ≤ 24)
    (henough : s.pos.toNat + n.toNat ≤ s.limit.toNat) :
    exec (.bcons n) s = .next ((s.setResult (s.peek n.toNat) n.toNat).setPos (s.pos.toNat + n.toNat)) := by
  change execBcons n s = _
  rw [execBcons, whenRunning_running hfault, withBitCount_legal _ _ _ h1 h2, if_neg (Nat.not_lt.mpr henough)]

/-- Settles O15: BCONS 8 leaves the lookahead, which is the byte at the cursor. -/
theorem alignedBconsReadsByte : Obligations.AlignedBconsReadsByte := by
  intro s i hfault hpos hlimit
  have h8 : (8 : BitVec 5).toNat = 8 := rfl
  rw [exec_bcons_enough hfault (by decide) (by decide) (by omega), h8, State.peek_byte hpos hlimit, hpos,
    State.setResult, State.setPos, BitVec.ofNat_toNat]
  rfl

/-! ## Aligned and other accesses -/

/-- A register read depends neither on the pending accesses nor on a memory. -/
theorem State.readReg_memories (s : State) (rest : List HostAccess) (used : Memory 1) (len : Vector (Memory 8) 6)
    (sel : Memory 3) (r : Reg) : State.readReg { s with bus := rest, used, len, sel } r = s.readReg r := by
  cases r <;> rfl

/-- A host read does not depend on the pending accesses. -/
theorem State.readSlot_bus (s : State) (rest : List HostAccess) (x : Slot) :
    State.readSlot { s with bus := rest } x = s.readSlot x := by
  cases x with
  | reg r => exact s.readReg_memories rest s.used s.len s.sel r
  | _ => rfl

/-- A step serves the next access, which leaves the bus (R50). -/
theorem step_serve {s : State} {a : HostAccess} {rest : List HostAccess} (hbus : s.bus = a :: rest) :
    step s = State.serve { s with bus := rest } a := by
  rw [step, State.serveNext, hbus]

theorem alignedWord_iff {size : Nat} {addr : BitVec 28} :
    alignedWord size addr = true ↔ size = 4 ∧ addr.toNat % 4 = 0 := by
  simp [alignedWord]

/-- Settles O46: an aligned read is served, and serving it writes the read-data field. -/
theorem hostReadHasNoSideEffect : Obligations.HostReadHasNoSideEffect := by
  intro s rest addr hbus haddr
  rw [step_serve hbus, State.serve, if_pos (alignedWord_iff.mpr ⟨rfl, haddr⟩), State.hostRead, s.readSlot_bus]
  rfl

/-- Settles O51: both kinds of access are served only where `alignedWord` holds. -/
theorem nonWordAccessRefused : Obligations.NonWordAccessRefused := by
  intro s rest size addr v hbus hbad
  have halign : ¬ alignedWord size addr = true := by
    rw [alignedWord_iff]
    omega
  rcases hbus with hbus | hbus
  · exact (step_serve hbus).trans (if_neg halign)
  · exact (step_serve hbus).trans (if_neg halign)

/-! ## The words of the map (R45) -/

section map

variable {cap : Nat}

theorem slotAt_reg (r : Reg) : slotAt cap (Reg.inOrder.idxOf r) = .reg r := by
  cases r <;> rfl

theorem slotAt_usedWord {k : Nat} (hk : k < 8) : slotAt cap (0x40 + k) = .usedWord k := by
  simp (disch := omega) only [slotAt, if_neg, if_pos, Nat.add_sub_cancel_left]

theorem slotAt_fav {i : Nat} (hi : i < 256) : slotAt cap (0x100 + i) = .fav i := by
  simp (disch := omega) only [slotAt, if_neg, if_pos, Nat.add_sub_cancel_left]

theorem slotAt_base {b : Nat} (hb : b < 256) : slotAt cap (0x200 + b) = .base b := by
  simp (disch := omega) only [slotAt, if_neg, if_pos, Nat.add_sub_cancel_left]

theorem slotAt_len (g : Fin 6) {i : Nat} (hi : i < 258) : slotAt cap (0x1000 + 0x200 * g.val + i) = .len g i := by
  have hg : (0x1000 + 0x200 * g.val + i - 0x1000) / 0x200 = g.val := by omega
  have ho : (0x1000 + 0x200 * g.val + i - 0x1000) % 0x200 = i := by omega
  simp (disch := omega) only [slotAt, if_neg, dif_pos, hg, ho, Config.symusedMax, if_pos hi]

/-- The region of group `g`'s table. -/
theorem slotAt_table (g : Fin 6) {o : Nat} (ho : o < 0x400) :
    slotAt cap (0x2000 + 0x400 * g.val + o) = tableSlot g o := by
  have hg : (0x2000 + 0x400 * g.val + o - 0x2000) / 0x400 = g.val := by omega
  have ho : (0x2000 + 0x400 * g.val + o - 0x2000) % 0x400 = o := by omega
  simp (disch := omega) only [slotAt, if_neg, dif_neg, dif_pos, hg, ho]

theorem slotAt_first (g : Fin 6) {l : Nat} (h1 : 1 ≤ l) (h2 : l ≤ 21) :
    slotAt cap (0x2000 + 0x400 * g.val + 0x40 + l) = .first g l := by
  rw [Nat.add_assoc, slotAt_table g (by omega)]
  simp (disch := omega) only [tableSlot, if_neg, if_pos, Nat.add_sub_cancel_left]

theorem slotAt_start (g : Fin 6) {l : Nat} (h1 : 1 ≤ l) (h2 : l ≤ 21) :
    slotAt cap (0x2000 + 0x400 * g.val + 0x80 + l) = .start g l := by
  rw [Nat.add_assoc, slotAt_table g (by omega)]
  simp (disch := omega) only [tableSlot, if_neg, if_pos, Nat.add_sub_cancel_left]

theorem slotAt_sym (g : Fin 6) {i : Nat} (hi : i < 258) :
    slotAt cap (0x2000 + 0x400 * g.val + 0x200 + i) = .sym g i := by
  rw [Nat.add_assoc, slotAt_table g (by omega)]
  simp (disch := omega) only [tableSlot, if_neg, if_pos, Nat.add_sub_cancel_left, Config.symusedMax]

theorem slotAt_sel {i : Nat} (hi : i < 32768) : slotAt cap (0x8000 + i) = .sel i := by
  simp (disch := omega) only [slotAt, if_neg, dif_neg, if_pos, Nat.add_sub_cancel_left]

theorem slotAt_lf {i : Nat} (hi : i < cap) (hcap : cap ≤ 2 ^ 24) : slotAt cap (0x2000000 + i) = .lf i := by
  simp (disch := omega) only [slotAt, if_neg, dif_neg, if_pos, Nat.add_sub_cancel_left]

theorem slotAt_out {i : Nat} (hi : i < cap) : slotAt cap (0x3000000 + i) = .out i := by
  simp (disch := omega) only [slotAt, if_neg, dif_neg, if_pos, Nat.add_sub_cancel_left]

end map

/-- Settles O50: each region of the map in turn. -/
theorem mapNamesEachElementOnce : Obligations.MapNamesEachElementOnce := by
  intro cap x hcap hx
  cases x with
  | reg r => exact ⟨_, rfl, by cases r <;> decide, slotAt_reg r⟩
  | unmapped => cases hx
  | tmin g => exact ⟨_, rfl, by omega, slotAt_table g (o := 0) (by decide)⟩
  | tmax g => exact ⟨_, rfl, by omega, slotAt_table g (o := 1) (by decide)⟩
  | usedWord k =>
    have hk : k < 8 := of_decide_eq_true hx
    exact ⟨_, rfl, by omega, slotAt_usedWord hk⟩
  | fav i =>
    have hi : i < 256 := of_decide_eq_true hx
    exact ⟨_, rfl, by omega, slotAt_fav hi⟩
  | base b =>
    have hb : b < 256 := of_decide_eq_true hx
    exact ⟨_, rfl, by omega, slotAt_base hb⟩
  | len g i =>
    have hi : i < 258 := of_decide_eq_true hx
    exact ⟨_, rfl, by omega, slotAt_len g hi⟩
  | first g l =>
    obtain ⟨h1, h2⟩ : 1 ≤ l ∧ l ≤ 21 := by simpa [Slot.inRange] using hx
    exact ⟨_, rfl, by omega, slotAt_first g h1 h2⟩
  | start g l =>
    obtain ⟨h1, h2⟩ : 1 ≤ l ∧ l ≤ 21 := by simpa [Slot.inRange] using hx
    exact ⟨_, rfl, by omega, slotAt_start g h1 h2⟩
  | sym g i =>
    have hi : i < 258 := of_decide_eq_true hx
    exact ⟨_, rfl, by omega, slotAt_sym g hi⟩
  | sel i =>
    have hi : i < 32768 := of_decide_eq_true hx
    exact ⟨_, rfl, by omega, slotAt_sel hi⟩
  | bwt i =>
    have hi : i < cap := of_decide_eq_true hx
    exact ⟨_, rfl, by omega, slotAt_bwt hi hcap⟩
  | lf i =>
    have hi : i < cap := of_decide_eq_true hx
    exact ⟨_, rfl, by omega, slotAt_lf hi hcap⟩
  | out i =>
    have hi : i < cap := of_decide_eq_true hx
    exact ⟨_, rfl, by omega, slotAt_out hi⟩

/-! ## A word after a host write -/

section writes

variable (s : State) (v : Word)

/-- A write of USED replaces the 32 elements of its word (R45). -/
theorem State.usedAt_writeUsedWord (k b : Nat) : (s.writeUsedWord k v).usedAt b =
    if 32 * k ≤ b ∧ b < 32 * k + 32 then BitVec.ofBool (v.getLsbD (b - 32 * k)) else s.usedAt b := by
  refine (s.elem_splice .used s.used (32 * k) _ b).trans ?_
  simp [State.usedAt]

theorem State.usedWord_writeUsedWord_same (k : Nat) : (s.writeUsedWord k v).usedWord k = v := by
  have hbit : ∀ j ∈ List.range 32,
      ((s.writeUsedWord k v).usedAt (32 * k + j)).toNat <<< j = (v.getLsbD j).toNat <<< j := by
    intro j hj
    have hj := List.mem_range.mp hj
    rw [s.usedAt_writeUsedWord, if_pos (by omega), Nat.add_sub_cancel_left, BitVec.toNat_ofBool]
  rw [State.usedWord, List.map_congr_left hbit, sum_getLsbD, BitVec.ofNat_toNat, BitVec.setWidth_eq]

theorem State.usedWord_writeUsedWord_other {k j : Nat} (h : j ≠ k) :
    (s.writeUsedWord k v).usedWord j = s.usedWord j := by
  have hbit : ∀ b ∈ List.range 32,
      ((s.writeUsedWord k v).usedAt (32 * j + b)).toNat <<< b = (s.usedAt (32 * j + b)).toNat <<< b := by
    intro b hb
    have hb := List.mem_range.mp hb
    rw [s.usedAt_writeUsedWord, if_neg (by omega)]
  rw [State.usedWord, List.map_congr_left hbit, State.usedWord]

theorem State.len_writeLen (g k : Fin 6) (i : Nat) :
    (s.writeLen g i v).len[k] = if k = g then s.len[g].write i (v.setWidth 8) else s.len[k] := by
  simp only [State.writeLen, Fin.getElem_fin, Vector.getElem_set, Fin.val_inj, eq_comm]

theorem State.lenAt_writeLen (g k : Fin 6) (i j : Nat) :
    (s.writeLen g i v).lenAt k j = if k = g ∧ j = i then v.setWidth 8 else s.lenAt k j := by
  rw [State.lenAt, s.len_writeLen, State.elem_congr (s := s) (t := s.writeLen g i v) rfl]
  by_cases hk : k = g
  · subst hk
    rw [if_pos rfl, s.elem_write]
    simp only [true_and, State.lenAt]
  · rw [if_neg hk, if_neg fun h => hk h.1, State.lenAt]

theorem State.selAt_writeSel (i j : Nat) : (s.writeSel i v).selAt j = if j = i then v.setWidth 3 else s.selAt j :=
  s.elem_write .sel s.sel i _ j

theorem State.bwtAt_writeBwt (i j : Nat) : (s.writeBwt i v).bwtAt j = if j = i then v.setWidth 8 else s.bwtAt j :=
  s.elem_write .bwt s.bwt i _ j

/-- The low bits of a word, stored and read back zero-extended. -/
theorem toNat_setWidth_setWidth {n : Nat} (hn : n ≤ 32) : ((v.setWidth n).setWidth 32).toNat = v.toNat % 2 ^ n := by
  rw [BitVec.toNat_setWidth, BitVec.toNat_setWidth]
  exact Nat.mod_eq_of_lt ((Nat.mod_lt _ (Nat.two_pow_pos n)).trans_le (Nat.pow_le_pow_right (by decide) hn))

/-- A word the host may write reads back what it stores (R46). -/
theorem State.readSlot_writeSlot_same {x : Slot} (hx : 0 < x.writableWidth)
    (hbwtlen : x = .reg .bwtlen → v.toNat % 2 ^ 25 ≤ s.bwtCap) :
    ((s.writeSlot v x).readSlot x).toNat = v.toNat % 2 ^ x.writableWidth := by
  cases x with
  | reg r =>
    cases r with
    | opa => exact (Nat.mod_eq_of_lt v.isLt).symm
    | inlen | ngroups | nsel | origin => exact toNat_setWidth_setWidth v (by decide)
    | bwtlen =>
      have hcap : ¬ s.bwtCap < (v.setWidth 25).toNat := by
        rw [BitVec.toNat_setWidth]
        exact Nat.not_lt.mpr (hbwtlen rfl)
      simp only [State.writeSlot, State.writeReg, State.writeBwtlen, if_neg hcap]
      exact toNat_setWidth_setWidth v (by decide)
    | _ => cases hx
  | usedWord k =>
    change ((s.writeUsedWord k v).usedWord k).toNat = v.toNat % 2 ^ 32
    rw [s.usedWord_writeUsedWord_same, Nat.mod_eq_of_lt v.isLt]
  | len g i =>
    change (((s.writeLen g i v).lenAt g i).setWidth 32).toNat = v.toNat % 2 ^ 8
    rw [s.lenAt_writeLen, if_pos ⟨rfl, rfl⟩, toNat_setWidth_setWidth v (by decide)]
  | sel i =>
    change (((s.writeSel i v).selAt i).setWidth 32).toNat = v.toNat % 2 ^ 3
    rw [s.selAt_writeSel, if_pos rfl, toNat_setWidth_setWidth v (by decide)]
  | bwt i =>
    change (((s.writeBwt i v).bwtAt i).setWidth 32).toNat = v.toNat % 2 ^ 8
    rw [s.bwtAt_writeBwt, if_pos rfl, toNat_setWidth_setWidth v (by decide)]
  | _ => cases hx

/-- A write of a register other than BWTLEN leaves every other register (R17, R18). -/
theorem State.readReg_writeReg_other {r q : Reg} (hr : r ≠ .bwtlen) (hq : q ≠ r) :
    (s.writeReg v r).readReg q = s.readReg q := by
  cases r with
  | opa => cases q with | opa => exact absurd rfl hq | _ => rfl
  | inlen => cases q with | inlen => exact absurd rfl hq | _ => rfl
  | ngroups => cases q with | ngroups => exact absurd rfl hq | _ => rfl
  | nsel => cases q with | nsel => exact absurd rfl hq | _ => rfl
  | origin => cases q with | origin => exact absurd rfl hq | _ => rfl
  | bwtlen => exact absurd rfl hr
  | _ => rfl

/-- A host write outside R17 stores into the host's own registers and memories only. -/
theorem State.writeSlot_frame {x : Slot} (hbwtlen : x ≠ .reg .bwtlen) (hbwt : ∀ i, x ≠ .bwt i) :
    s.writeSlot v x = { s with
      opa := (s.writeSlot v x).opa, inlen := (s.writeSlot v x).inlen, ngroups := (s.writeSlot v x).ngroups
      nsel := (s.writeSlot v x).nsel, origin := (s.writeSlot v x).origin, used := (s.writeSlot v x).used
      len := (s.writeSlot v x).len, sel := (s.writeSlot v x).sel } := by
  cases x with
  | reg r =>
    cases r with
    | bwtlen => exact absurd rfl hbwtlen
    | _ => rfl
  | bwt i => exact absurd rfl (hbwt i)
  | _ => rfl

/-- A host write outside R17 leaves every other word of the map. -/
theorem State.readSlot_writeSlot_other {x y : Slot} (hbwtlen : x ≠ .reg .bwtlen) (hbwt : ∀ i, x ≠ .bwt i)
    (hy : y ≠ x) : (s.writeSlot v x).readSlot y = s.readSlot y := by
  cases x with
  | reg r =>
    have hr : r ≠ .bwtlen := fun h => hbwtlen (congrArg _ h)
    cases y with
    | reg q => exact s.readReg_writeReg_other v hr fun h => hy (congrArg _ h)
    | _ =>
      cases r with
      | bwtlen => exact absurd rfl hr
      | _ => rfl
  | usedWord k =>
    cases y with
    | reg r => exact s.readReg_memories s.bus _ _ _ r
    | usedWord j => exact s.usedWord_writeUsedWord_other v fun h => hy (congrArg _ h)
    | _ => rfl
  | len g i =>
    cases y with
    | reg r => exact s.readReg_memories s.bus _ _ _ r
    | len k j =>
      change ((s.writeLen g i v).lenAt k j).setWidth 32 = (s.lenAt k j).setWidth 32
      rw [s.lenAt_writeLen, if_neg (by rintro ⟨rfl, rfl⟩; exact hy rfl)]
    | _ => rfl
  | sel i =>
    cases y with
    | reg r => exact s.readReg_memories s.bus _ _ _ r
    | sel j =>
      change ((s.writeSel i v).selAt j).setWidth 32 = (s.selAt j).setWidth 32
      rw [s.selAt_writeSel, if_neg (by rintro rfl; exact hy rfl)]
    | _ => rfl
  | bwt i => exact absurd rfl (hbwt i)
  | _ => rfl

end writes

/-- Settles O48: the written word reads back, and outside R17 no other word is touched. -/
theorem hostWriteReadsBack : Obligations.HostWriteReadsBack := by
  refine ⟨fun s x v _ => s.readSlot_writeSlot_same v, ?_⟩
  rintro s rest addr v x hbus haddr rfl hx hcap
  have hcmd : s.slotOf addr ≠ .reg .cmd := fun h => by
    change 0 < (s.slotOf addr).writableWidth at hx
    rw [h] at hx
    cases hx
  refine ⟨_, step_write hbus haddr hcmd, State.readSlot_writeSlot_same _ v hx hcap,
    fun hbwtlen hbwt => ⟨fun y hy => ?_, ?_⟩⟩
  · exact (State.readSlot_writeSlot_other _ v hbwtlen hbwt hy).trans (s.readSlot_bus rest y)
  · exact State.writeSlot_frame _ v hbwtlen hbwt

end Sys2Proof.Machine
end

section
/-! SUPPORT. Words and commands (O1 to O6): a word is its op field above its arg field (R60), and a format reads its
operand from the low bits of arg (R61). `decode_eq_ok_iff` states both directions of the encoding at once. -/

namespace Sys2Proof.Machine

/-! ## The fields of a word (R60) -/

@[simp] theorem opField_append (op : BitVec 8) (arg : BitVec 24) : opField (op ++ arg) = op :=
  BitVec.extractLsb'_append_eq_left

@[simp] theorem argField_append (op : BitVec 8) (arg : BitVec 24) : argField (op ++ arg) = arg :=
  BitVec.extractLsb'_append_eq_right

@[simp] theorem opField_append_argField (w : Word) : opField w ++ argField w = w :=
  BitVec.extractLsb'_append_extractLsb'

/-- A word is given by its two fields. -/
theorem eq_append_iff {op : BitVec 8} {arg : BitVec 24} {w : Word} :
    w = op ++ arg ↔ opField w = op ∧ argField w = arg := by
  constructor
  · rintro rfl
    exact ⟨opField_append op arg, argField_append op arg⟩
  · rintro ⟨rfl, rfl⟩
    exact (opField_append_argField w).symm

theorem encode_eq_iff {i : Instr} {w : Word} : encode i = w ↔ opField w = i.op ∧ argField w = i.arg :=
  eq_comm.trans eq_append_iff

/-! ## An operand in the low bits of a field (R61) -/

section operand

variable {h k : Nat} {a : BitVec (h + k)}

/-- A field holds the operand `n` alone iff its high bits are 0 and its low bits are `n`. -/
theorem eq_setWidth_iff {n : BitVec k} :
    a = n.setWidth (h + k) ↔ a.extractLsb' k h = 0#h ∧ n = a.extractLsb' 0 k := by
  have hn : n.setWidth (h + k) = 0#h ++ n := by
    rw [BitVec.setWidth_eq_append (Nat.le_add_left k h)]
    simp
  rw [hn]
  constructor
  · rintro rfl
    exact ⟨BitVec.extractLsb'_append_eq_left, BitVec.extractLsb'_append_eq_right.symm⟩
  · rintro ⟨hhigh, rfl⟩
    rw [← hhigh, BitVec.extractLsb'_append_extractLsb']

/-- The same with the high bits checked by a mask (R63). -/
theorem eq_setWidth_iff_and_highMask {n : BitVec k} :
    a = n.setWidth (h + k) ↔ a &&& (BitVec.allOnes h ++ 0#k) = 0#(h + k) ∧ n = a.extractLsb' 0 k := by
  have hsplit : a &&& (BitVec.allOnes h ++ 0#k) = a.extractLsb' k h ++ 0#k := by
    conv_lhs => rw [← BitVec.extractLsb'_append_extractLsb' (x := a)]
    rw [BitVec.and_append, BitVec.and_allOnes, BitVec.and_zero]
  rw [eq_setWidth_iff, hsplit, ← BitVec.zero_append_zero, BitVec.append_left_inj]

/-- A decoder that checks the high bits and the range of the low bits answers the operand it found there. -/
theorem checkedOperand_eq_ok_iff {legal : BitVec k → Bool} {mk : BitVec k → Instr} (hmk : mk.Injective)
    {reserved range : IllegalWord} {n : BitVec k} :
    (if a.extractLsb' k h = 0#h then
        if legal (a.extractLsb' 0 k) then Except.ok (mk (a.extractLsb' 0 k)) else .error range
      else .error reserved) = .ok (mk n) ↔ legal n = true ∧ a = n.setWidth (h + k) := by
  rw [eq_setWidth_iff]
  constructor
  · intro hok
    split_ifs at hok with hhigh hlegal
    injection hok with hok
    exact hmk hok ▸ ⟨hlegal, hhigh, rfl⟩
  · rintro ⟨hlegal, hhigh, rfl⟩
    rw [if_pos hhigh, if_pos hlegal]

end operand

/-! ## The decoder, format by format (R61) -/

theorem decodeZ_eq_ok_iff {arg : BitVec 24} {i : Instr} : decodeZ arg i = .ok i ↔ arg = 0 := by
  simp [decodeZ]

theorem decodeN_eq_ok_iff {arg : BitVec 24} {mk : BitVec 5 → Instr} (hmk : mk.Injective) {n : BitVec 5} :
    decodeN arg mk = .ok (mk n) ↔ bitCountLegal n = true ∧ arg = n.setWidth 24 :=
  checkedOperand_eq_ok_iff (h := 19) hmk

theorem decodeG_eq_ok_iff {arg : BitVec 24} {mk : BitVec 3 → Instr} (hmk : mk.Injective) {g : BitVec 3} :
    decodeG arg mk = .ok (mk g) ↔ groupLegal g = true ∧ arg = g.setWidth 24 :=
  checkedOperand_eq_ok_iff (h := 21) hmk

/-! ## The decoder as a whole (R60, R63) -/

/-- What the row of a command's opcode does with the arg field. -/
def decodeOperand (arg : BitVec 24) : Instr → Except IllegalWord Instr
  | .bpeek _ => decodeN arg .bpeek
  | .bcons _ => decodeN arg .bcons
  | .hbuild _ => decodeG arg .hbuild
  | .hlook _ => decodeG arg .hlook
  | .hdec _ => decodeG arg .hdec
  | i => decodeZ arg i

theorem decode_of_opField {w : Word} {i : Instr} (hop : opField w = i.op) :
    decode w = decodeOperand (argField w) i := by
  unfold decode
  rw [hop]
  cases i <;> rfl

theorem decodeOperand_eq_ok_iff {arg : BitVec 24} {i : Instr} :
    decodeOperand arg i = .ok i ↔ i.wf = true ∧ arg = i.arg := by
  cases i with
  | bpeek n | bcons n => exact decodeN_eq_ok_iff fun _ _ h => by injection h
  | hbuild g | hlook g | hdec g => exact decodeG_eq_ok_iff fun _ _ h => by injection h
  | _ => exact decodeZ_eq_ok_iff.trans (and_iff_right rfl).symm

/-- A word decodes to a command iff the command is well-formed and the word is its encoding. -/
theorem decode_eq_ok_iff {w : Word} {i : Instr} : decode w = .ok i ↔ i.wf = true ∧ encode i = w := by
  rw [encode_eq_iff]
  constructor
  · intro h
    have hop : opField w = i.op := BitVec.eq_of_toNat_eq (opField_toNat_of_decode h)
    obtain ⟨hwf, harg⟩ := decodeOperand_eq_ok_iff.mp ((decode_of_opField hop).symm.trans h)
    exact ⟨hwf, hop, harg⟩
  · rintro ⟨hwf, hop, harg⟩
    exact (decode_of_opField hop).trans (decodeOperand_eq_ok_iff.mpr ⟨hwf, harg⟩)

/-- Settles O1: the encoding of a well-formed command decodes to it. -/
theorem decodeOfEncode : Obligations.DecodeOfEncode :=
  fun _ hwf => decode_eq_ok_iff.mpr ⟨hwf, rfl⟩

/-- Settles O2: the same equivalence, from the decoded word. -/
theorem encodeOfDecode : Obligations.EncodeOfDecode :=
  fun _ _ => decode_eq_ok_iff.mp

/-! ## Match and mask (R63) -/

/-- A mask that keeps the whole op field compares it, and the rest of the mask checks arg. -/
theorem and_mask_eq_iff {w : Word} {op : BitVec 8} {argMask : BitVec 24} :
    w &&& (BitVec.allOnes 8 ++ argMask) = op ++ 0#24 ↔ opField w = op ∧ argField w &&& argMask = 0#24 := by
  have hsplit : w &&& (BitVec.allOnes 8 ++ argMask) = opField w ++ (argField w &&& argMask) := by
    conv_lhs => rw [← opField_append_argField w]
    rw [BitVec.and_append, BitVec.and_allOnes]
  rw [hsplit, eq_append_iff, opField_append, argField_append]

/-- Format Z: the mask is the whole word. -/
theorem row_z_iff {w : Word} {op : BitVec 8} :
    w &&& 0xFFFFFFFF#32 = op ++ 0#24 ↔ opField w = op ∧ argField w = 0#24 := by
  have hmask : 0xFFFFFFFF#32 = BitVec.allOnes 8 ++ BitVec.allOnes 24 := rfl
  rw [hmask, and_mask_eq_iff, BitVec.and_allOnes]

/-- Formats N and G: the mask leaves out the operand, which is the low `k` bits of the word. -/
theorem row_operand_iff {k : Nat} {w mask : Word} {op : BitVec 8} {argMask : BitVec 24} {n : BitVec k}
    (hk : 0 + k ≤ 24) (hmask : mask = BitVec.allOnes 8 ++ argMask)
    (hfield : argField w = n.setWidth 24 ↔ argField w &&& argMask = 0#24 ∧ n = (argField w).extractLsb' 0 k) :
    w &&& mask = op ++ 0#24 ∧ (n == w.extractLsb' 0 k) = true ↔ opField w = op ∧ argField w = n.setWidth 24 := by
  have hlow : (argField w).extractLsb' 0 k = w.extractLsb' 0 k := BitVec.extractLsb'_extractLsb'_of_le hk
  rw [hmask, and_mask_eq_iff, and_assoc, beq_iff_eq, hfield, hlow]

/-- The row's match, mask and operand field give the word its command's two fields. -/
theorem row_iff {w : Word} {i : Instr} :
    w &&& i.mask = i.matchBits ∧ i.operandIs w = true ↔ encode i = w := by
  rw [encode_eq_iff]
  cases i with
  | bpeek n | bcons n =>
    exact row_operand_iff (by decide) rfl (eq_setWidth_iff_and_highMask (h := 19) (k := 5))
  | hbuild g | hlook g | hdec g =>
    exact row_operand_iff (by decide) rfl (eq_setWidth_iff_and_highMask (h := 21) (k := 3))
  | _ => exact (and_iff_left rfl).trans row_z_iff

/-- Settles O3: the row's three conditions say that the command is well-formed and the word its encoding. -/
theorem rowSelectsWord : Obligations.RowSelectsWord := by
  intro w i
  rw [decode_eq_ok_iff, ← and_assoc, row_iff, and_comm]

/-- Settles O4: each word decoded. -/
theorem sampleWordsDecode : Obligations.SampleWordsDecode := by
  unfold Obligations.SampleWordsDecode
  decide

/-! ## Words written to CMD (R60, R64) -/

/-- A write to address 0 is a write to CMD (R14, R45). -/
theorem step_write_cmd {s : State} {rest : List HostAccess} {w : Word} (hbus : s.bus = .write 4 0 w :: rest) :
    step s = State.command { s with bus := rest } w := by
  have hcmd : State.slotOf { s with bus := rest } 0 = .reg .cmd := slotAt_reg .cmd
  rw [step_serve hbus, State.serve, if_pos (alignedWord_iff.mpr ⟨rfl, rfl⟩), State.hostWrite, if_pos hcmd]

theorem State.command_of_decode {s : State} {w : Word} {i : Instr} (h : decode w = .ok i) :
    s.command w = exec i s := by
  rw [State.command, h]

/-- A word that encodes no well-formed command is illegal (R64): unless FAULT = 1, the word itself becomes ERRINFO. -/
theorem State.command_of_illegal {s : State} {w : Word} (h : ∀ i : Instr, i.wf = true → encode i ≠ w) :
    s.command w = whenRunning s (.next { s with fault := true, err := 20, errinfo := w }) := by
  rcases s.command_cases w with ⟨i, hi, -⟩ | ⟨e, -, hcommand⟩
  · obtain ⟨hwf, hencode⟩ := decode_eq_ok_iff.mp hi
    exact absurd hencode (h i hwf)
  · rw [hcommand, State.raise, opField_append_argField]
    rfl

/-- Settles O5: the write reaches CMD, and CMD runs the decoded command. -/
theorem stepRunsDecodedCommand : Obligations.StepRunsDecodedCommand :=
  fun _ _ _ _ hbus hdecode => (step_write_cmd hbus).trans (State.command_of_decode hdecode)

/-- Settles O6: an illegal word written to CMD, on both sides of the gate of the Failed state. -/
theorem illegalWordRaises : Obligations.IllegalWordRaises := by
  intro s rest w hbus hillegal
  rw [step_write_cmd hbus, State.command_of_illegal hillegal]
  exact ⟨fun hrunning => whenRunning_running (s := { s with bus := rest }) hrunning _,
    fun hfailed => whenRunning_failed (s := { s with bus := rest }) hfailed _⟩

end Sys2Proof.Machine
end

section
/-! SUPPORT. The control commands NOP, START and BLKEND (O8 to O10). -/

namespace Sys2Proof.Machine

/-- On both sides of the gate of the Failed state NOP answers the state it was given (R80, R166). -/
theorem execNop_eq (s : State) : execNop s = .next s := by
  cases hfault : s.fault with
  | true => exact whenRunning_failed hfault _
  | false => exact whenRunning_running hfault _

/-- 8 × INLEN fits LIMIT's 32 bits, as INLEN has 29 (R81). -/
theorem State.beginCall_limit_toNat (s : State) : s.beginCall.limit.toNat = 8 * s.inlen.toNat := by
  have hinlen : s.inlen.toNat < 2 ^ 29 := s.inlen.isLt
  rw [State.beginCall_limit, BitVec.toNat_ofNat]
  exact Nat.mod_eq_of_lt (by omega)

theorem execBlkend_running {s : State} (h : s.fault = false) :
    execBlkend s = .next { s.discardBlock with blkidx := s.blkidx + 1 } :=
  whenRunning_running h _

/-- Settles O8: executing NOP and ignoring it are the same. -/
theorem nopChangesNothing : Obligations.NopChangesNothing :=
  execNop_eq

/-- Settles O9: the three updates of START, of which only `beginCall` writes LIMIT. -/
theorem startBeginsCall : Obligations.StartBeginsCall := fun s =>
  ⟨s.clearFault.beginCall.discardBlock, rfl, s.clearFault.beginCall_limit_toNat, rfl⟩

/-- Settles O10: a running BLKEND discards the block (R83) and counts it. -/
theorem blkendDiscardsBlock : Obligations.BlkendDiscardsBlock :=
  fun _ hrunning => execBlkend_running hrunning

end Sys2Proof.Machine
end

section
/-! SUPPORT. The lookahead bit by bit, and the bit-cursor commands BSEEK, BPEEK and BCONS (O11 to O14). -/

namespace Sys2Proof.Machine

/-! ## The lookahead (R91) -/

theorem State.peek_zero (s : State) : s.peek 0 = 0 := rfl

/-- One bit more of lookahead shifts the bits before it up by one place (R91). -/
theorem State.peek_succ (s : State) (n : Nat) : s.peek (n + 1) = 2 * s.peek n + s.inbit (s.pos.toNat + n) := by
  have hplace : ∀ k ∈ List.range n, s.inbit (s.pos.toNat + k) <<< (n + 1 - 1 - k) =
      2 * (s.inbit (s.pos.toNat + k) <<< (n - 1 - k)) := by
    intro k hmem
    have hk : k < n := List.mem_range.mp hmem
    rw [show n + 1 - 1 - k = n - 1 - k + 1 by omega, Nat.shiftLeft_succ]
  rw [State.peek, State.peek, List.range_succ, List.map_append, List.sum_append, List.map_congr_left hplace,
    List.sum_map_mul_left]
  simp

/-- The lookahead as the sum of R93, with powers of two for shifts. -/
theorem State.peek_eq_sum (s : State) (n : Nat) :
    s.peek n = ((List.range n).map fun k => s.inbit (s.pos.toNat + k) * 2 ^ (n - 1 - k)).sum := by
  simp only [State.peek, Nat.shiftLeft_eq]

theorem State.peek_lt (s : State) (n : Nat) : s.peek n < 2 ^ n := by
  induction n with
  | zero => simp [State.peek_zero]
  | succ n ih =>
    have hbit := s.inbit_le_one (s.pos.toNat + n)
    rw [State.peek_succ, Nat.pow_succ]
    omega

/-- The shorter lookahead is the high bits of the longer one. -/
theorem State.peek_add_shiftRight (s : State) (n m : Nat) : s.peek (n + m) >>> m = s.peek n := by
  induction m with
  | zero => rfl
  | succ m ih =>
    have hbit := s.inbit_le_one (s.pos.toNat + (n + m))
    have hhalf : s.peek (n + (m + 1)) >>> 1 = s.peek (n + m) := by
      rw [← Nat.add_assoc, State.peek_succ, Nat.shiftRight_one]
      omega
    rw [Nat.add_comm m 1, Nat.shiftRight_add, Nat.add_comm 1 m, hhalf, ih]

theorem State.inbit_of_limit_le {s : State} {p : Nat} (h : s.limit.toNat ≤ p) : s.inbit p = 0 :=
  if_neg (Nat.not_lt.mpr h)

/-- Past LIMIT the lookahead goes on with zeros (R42). -/
theorem State.peek_add_of_limit_le {s : State} {r : Nat} (h : s.limit.toNat ≤ s.pos.toNat + r) (m : Nat) :
    s.peek (r + m) = s.peek r * 2 ^ m := by
  induction m with
  | zero => simp
  | succ m ih =>
    rw [← Nat.add_assoc, State.peek_succ, State.inbit_of_limit_le (by omega), ih, Nat.pow_succ]
    ring

/-- A cursor at or past LIMIT sees zeros only. -/
theorem State.peek_of_limit_le_pos {s : State} (h : s.limit.toNat ≤ s.pos.toNat) (n : Nat) : s.peek n = 0 := by
  have hpad := State.peek_add_of_limit_le (r := 0) h n
  rwa [Nat.zero_add, State.peek_zero, Nat.zero_mul] at hpad

/-- Settles O13: the bounds of the lookahead, its prefixes, and the zeros from LIMIT on. -/
theorem peekIsZeroPaddedPrefix : Obligations.PeekIsZeroPaddedPrefix := by
  intro s n _ hn
  refine ⟨s.peek_lt n, ?_, fun hlimit => State.peek_of_limit_le_pos hlimit n, fun r hlimit hr => ?_⟩
  · have hprefix := s.peek_add_shiftRight n (24 - n)
    rw [Nat.add_sub_cancel' hn] at hprefix
    exact hprefix.symm
  · have hpad := State.peek_add_of_limit_le hlimit.le (n - r)
    rw [Nat.add_sub_cancel' hr.le] at hpad
    rw [hpad, Nat.mul_mod_left]

/-! ## The commands (R92 to R94) -/

/-- BCONS with fewer than n bits left (R94): Truncation(n), before anything is read. -/
theorem exec_bcons_short {s : State} {n : BitVec 5} (hfault : s.fault = false) (h1 : 1 ≤ n.toNat) (h2 : n.toNat ≤ 24)
    (hshort : s.limit.toNat < s.pos.toNat + n.toNat) :
    exec (.bcons n) s = .next (s.raise 0x12 .truncation (n.setWidth 24)) := by
  change execBcons n s = _
  rw [execBcons, whenRunning_running hfault, withBitCount_legal _ _ _ h1 h2, if_pos hshort, BitVec.ofNat_toNat]
  rfl

/-- Settles O14: the lookahead fits RES0, and POS + n ≤ LIMIT fits POS. -/
theorem bconsConsumes : Obligations.BconsConsumes := by
  intro s n hfault h1 h2
  refine ⟨fun henough => ⟨_, exec_bcons_enough hfault h1 h2 henough, ?_, ?_, ?_, rfl⟩,
    fun hshort => exec_bcons_short hfault h1 h2 hshort⟩
  · have hpeek : s.peek n.toNat < 2 ^ 32 :=
      (s.peek_lt _).trans (Nat.pow_lt_pow_right (by decide) (by omega))
    rw [← State.peek_eq_sum]
    exact toNat_ofNat_of_le le_rfl hpeek
  · exact toNat_ofNat_of_le h2 (by decide)
  · exact toNat_ofNat_of_le henough s.limit.isLt

theorem exec_bseek_running {s : State} (hfault : s.fault = false) :
    exec .bseek s = if s.limit.toNat < s.opa.toNat then .next (s.raise 0x10 .truncation 0)
      else .next { s with pos := s.opa } := by
  change execBseek s = _
  rw [execBseek, whenRunning_running hfault, State.setPos, State.opaPosition, BitVec.ofNat_toNat, BitVec.setWidth_eq]
  rfl

/-- Settles O11: the two sides of BSEEK's comparison with LIMIT. -/
theorem bseekSetsCursor : Obligations.BseekSetsCursor := by
  intro s hfault
  refine ⟨fun hwithin => ?_, fun hpast => ?_⟩
  · exact (exec_bseek_running hfault).trans (if_neg (Nat.not_lt.mpr hwithin))
  · exact (exec_bseek_running hfault).trans (if_pos hpast)

/-- Settles O12: BPEEK leaves the lookahead and its length, and has no other outcome on a legal n. -/
theorem bpeekReadsAhead : Obligations.BpeekReadsAhead := by
  intro s n hfault h1 h2
  change execBpeek n s = _
  rw [execBpeek, whenRunning_running hfault, withBitCount_legal _ _ _ h1 h2, State.setResult, State.peek_eq_sum,
    BitVec.ofNat_toNat]

end Sys2Proof.Machine
end

section
/-! SUPPORT. Where the invariant holds, every command completes (O60): no index leaves its memory (R106(a), R128(b),
R128(c), R144(b)), and MBLOCK ends (R127). -/

namespace Sys2Proof.Machine

/-- The outcome is a next state: no stop of the machine and no refusal. -/
def Completes (r : Result) : Prop := ∃ t, r = .next t

theorem completes_next (t : State) : Completes (.next t) := ⟨t, rfl⟩

theorem completes_ite {c : Prop} [Decidable c] {a b : Result} (ha : c → Completes a) (hb : ¬c → Completes b) :
    Completes (if c then a else b) :=
  iteInduction (motive := Completes) ha hb

theorem whenRunning_completes {s : State} {k : Result} (h : Completes k) : Completes (whenRunning s k) :=
  completes_ite (fun _ => completes_next s) fun _ => h

theorem withBitCount_completes {i : Instr} {n : BitVec 5} {s : State} {k : Nat → Result}
    (h : ∀ m, Completes (k m)) : Completes (withBitCount i n s k) :=
  completes_ite (fun _ => h _) fun _ => completes_next _

theorem withGroup_completes {i : Instr} {g : BitVec 3} {s : State} {k : Fin 6 → Result} (h : ∀ j, Completes (k j)) :
    Completes (withGroup i g s k) := by
  rcases withGroup_cases i g s k with ⟨_, e⟩ | e
  · exact e ▸ h _
  · exact ⟨_, e⟩

theorem andThen_completes {r : Result} {k : State → Result} (hr : Completes r)
    (hk : ∀ t, r = .next t → Completes (k t)) : Completes (Result.andThen r k) := by
  obtain ⟨t, rfl⟩ := hr
  exact hk t rfl

/-! ## Lookups and symbols (R106(a), R128) -/

/-- A lookup that misses or hits names no element that does not exist. -/
theorem Lookup.Within.ne_outside {n : Nat} {r : Lookup} (h : r.Within n) (m : MemName) (i : Nat) :
    r ≠ .outside m i := by
  rintro rfl
  exact h

/-- Where R24 holds, MSYM's operation finds every element it needs (R128(b), R128(c)). -/
theorem State.SpecInv.symOutside_eq_none {s : State} (hs : s.SpecInv) (c : Nat) : s.symOutside c = none := by
  obtain ⟨-, -, hfit⟩ := hs.capacity
  have hsym := hs.symused_le
  unfold State.symOutside
  cases hc : symClass s.symused.toNat c with
  | run | notSymbol => rfl
  | endOfBlock => exact if_neg fun h => Nat.not_lt.mpr hfit h.2
  | literal =>
    obtain ⟨-, hlast⟩ := symClass_literal.mp hc
    exact if_neg (by simp only [Config.nfavMax]; omega)

theorem State.Inv.lookup_ne_outside {s : State} (hs : s.Inv) {g : Fin 6} (hg : s.tblv[g] = true) {w : Nat}
    (hw : w < 2 ^ 24) (m : MemName) (i : Nat) : s.lookup g w ≠ .outside m i :=
  (s.tablesOk_iff.mp hs.tables g hg w hw).ne_outside m i

theorem execHbuild_completes {s : State} (hs : s.Inv) (g : BitVec 3) : Completes (execHbuild g s) := by
  refine whenRunning_completes <| withGroup_completes fun k => ?_
  refine completes_ite (fun _ => completes_next _) fun hfavv => ?_
  have hfavv : s.favv = true := by simpa using hfavv
  have hsym := hs.spec.alphabet.2.1 hfavv
  have hmax := hs.spec.symused_le
  refine completes_ite (fun hbad => ?_) fun _ => ?_
  · simp only [Config.symusedMax] at hbad
    omega
  · split <;> exact completes_next _

theorem execHlook_completes {s : State} (hs : s.Inv) (g : BitVec 3) : Completes (execHlook g s) := by
  refine whenRunning_completes <| withGroup_completes fun k => ?_
  refine completes_ite (fun _ => completes_next _) fun htblv => ?_
  split
  · exact completes_next _
  · rename_i hout
    exact absurd hout (hs.lookup_ne_outside (by simpa using htblv) (BitVec.isLt _) _ _)
  · exact completes_next _

theorem execHdec_completes {s : State} (hs : s.Inv) (g : BitVec 3) : Completes (execHdec g s) := by
  refine whenRunning_completes <| withGroup_completes fun k => ?_
  refine completes_ite (fun _ => completes_next _) fun htblv => ?_
  split
  · exact completes_next _
  · rename_i hout
    exact absurd hout (hs.lookup_ne_outside (by simpa using htblv) (s.peek_lt 24) _ _)
  · exact completes_ite (fun _ => completes_next _) fun _ => completes_next _

theorem execMsym_completes {s : State} (hs : s.Inv) : Completes (execMsym s) := by
  refine whenRunning_completes <| completes_ite (fun _ => completes_next _) fun _ => ?_
  rw [hs.spec.symOutside_eq_none]
  split <;> exact completes_next _

/-! ## MSTEP and MBLOCK (R126, R127) -/

theorem State.Inv.decodeAndProcess_completes {s : State} (hs : s.Inv) (op : BitVec 8) {g : Fin 6}
    (hg : s.tblv[g] = true) (i : Nat) : Completes (s.decodeAndProcess op g i) := by
  unfold State.decodeAndProcess
  split
  · exact completes_next _
  · rename_i hout
    exact absurd hout (hs.lookup_ne_outside hg (s.peek_lt 24) _ _)
  · rw [hs.spec.symOutside_eq_none]
    refine completes_ite (fun _ => completes_next _) fun _ => ?_
    split <;> exact completes_next _

theorem State.Inv.mstepWith_completes {s : State} (hs : s.Inv) (op : BitVec 8) : Completes (s.mstepWith op) := by
  unfold State.mstepWith
  refine completes_ite (fun _ => completes_next _) fun _ => ?_
  split
  · exact completes_next _
  refine completes_ite (fun _ => completes_next _) fun _ => ?_
  split
  · exact completes_next _
  refine completes_ite (fun _ => completes_next _) fun htblv => ?_
  exact hs.decodeAndProcess_completes op (by simpa using htblv) _

/-- A chain of a command's updates keeps the invariant. -/
theorem State.Inv.of_chain {i : Instr} {s t : State} (hs : s.Inv) (h : Relation.ReflTransGen (CommandUpdate i) s t) :
    t.Inv :=
  keeps_of_chain (r := CommandUpdate i) (fun _ _ => CommandUpdate.inv) h hs

theorem State.Inv.mstepWith {s t : State} (hs : s.Inv) {op : BitVec 8} (h : s.mstepWith op = .next t) : t.Inv :=
  hs.of_chain (State.mstepWith_chain (i := .mstep) rfl rfl h)

/-- The number of symbols decoded so far, as SELIDX and CHUNKCNT count them: R127's measure. -/
def State.symbolsCounted (s : State) : Nat := 50 * s.selidx.toNat + s.chunkcnt.toNat

theorem State.symApply_counters (s : State) (c : Nat) :
    (s.symApply c).selidx = s.selidx ∧ (s.symApply c).chunkcnt = s.chunkcnt ∧ (s.symApply c).nsel = s.nsel := by
  unfold State.symApply
  split <;> exact ⟨rfl, rfl, rfl⟩

theorem State.commitStep_counters (s : State) (i l sym : Nat) :
    (s.commitStep i l sym).selidx = (s.countSymbol i).selidx ∧
      (s.commitStep i l sym).chunkcnt = (s.countSymbol i).chunkcnt ∧ (s.commitStep i l sym).nsel = s.nsel :=
  State.symApply_counters (((s.setPos (s.pos.toNat + l)).countSymbol i).setResult sym l) sym

/-- A committed MSTEP counts one symbol, and the chunks of NSEL selectors hold all that are counted (R126, R127). -/
theorem State.SpecInv.commitStep_symbolsCounted {s : State} (hs : s.SpecInv) (hsel : s.nextSelector < s.nsel.toNat)
    (l sym : Nat) : (s.commitStep s.nextSelector l sym).symbolsCounted = s.symbolsCounted + 1 ∧
      s.symbolsCounted + 1 ≤ 50 * s.nsel.toNat := by
  obtain ⟨hselidx, hchunkcnt, -⟩ := s.commitStep_counters s.nextSelector l sym
  have hchunk : s.chunkcnt.toNat ≤ 50 := hs.chunk.1
  have hindex : (s.countSymbol s.nextSelector).selidx.toNat = s.nextSelector :=
    toNat_ofNat_of_le hsel.le s.nsel.isLt
  rw [State.symbolsCounted, State.symbolsCounted, hselidx, hchunkcnt, hindex, State.countSymbol_chunkcnt, Config.chunk]
  rw [State.nextSelector, Config.chunk] at hsel ⊢
  by_cases hfull : s.chunkcnt.toNat = 50
  · rw [if_pos hfull] at hsel
    rw [if_pos hfull, if_pos hfull, toNat_ofNat_of_le (m := 1) le_rfl (by decide)]
    omega
  · rw [if_neg hfull] at hsel
    rw [if_neg hfull, if_neg hfull, toNat_ofNat_of_le (m := 50) (by omega) (by decide)]
    omega

/-- An MSTEP raises a fault or counts a symbol of one of the chunks. -/
theorem State.SpecInv.mstepWith_counts {s t : State} (hs : s.SpecInv) {op : BitVec 8} (h : s.mstepWith op = .next t) :
    t.fault = true ∨ (t.nsel = s.nsel ∧ t.symbolsCounted = s.symbolsCounted + 1 ∧
      s.symbolsCounted + 1 ≤ 50 * s.nsel.toNat) := by
  rcases State.mstepWith_next h with ⟨k, d, rfl, -⟩ | ⟨-, -, -, -, hsel, -, g, l, sym, -, -, -, -, -, -, rfl⟩
  · exact .inl rfl
  · exact .inr ⟨(s.commitStep_counters _ l sym).2.2, hs.commitStep_symbolsCounted hsel l sym⟩

/-- MBLOCK's rounds last as long as the chunks of NSEL selectors do: an MSTEP past them raises MissingEndSymbol. -/
theorem State.Inv.mblockLoop_completes (op : BitVec 8) : ∀ {k : Nat} {s : State}, s.Inv → 0 < k →
    50 * s.nsel.toNat < k + s.symbolsCounted → Completes (mblockLoop op k s)
  | 0, _, _, hk, _ => absurd hk (Nat.lt_irrefl 0)
  | k + 1, s, hs, _, hrounds => by
    rw [mblockLoop_succ]
    refine andThen_completes (hs.mstepWith_completes op) fun t ht => ?_
    refine completes_ite (fun _ => completes_next _) fun hgoes => ?_
    rcases hs.spec.mstepWith_counts ht with hfault | ⟨hnsel, hcount, hle⟩
    · simp [hfault] at hgoes
    · exact State.Inv.mblockLoop_completes op (hs.mstepWith ht) (by omega) (by rw [hnsel, hcount]; omega)

theorem execMblock_completes {s : State} (hs : s.Inv) : Completes (execMblock s) :=
  whenRunning_completes (hs.mblockLoop_completes _ (Nat.succ_pos _) (by simp only [Config.chunk]; omega))

/-! ## The LF unit (R144(b)) -/

theorem State.Inv.lcountBody_completes {s : State} (hs : s.Inv) : Completes s.lcountBody := by
  obtain ⟨-, -, hfit⟩ := hs.spec.capacity
  exact completes_ite (fun h => by omega) fun _ => completes_next _

/-- LMAP's loop completes where every bucket has room for its bytes among the indices still to place. -/
theorem lmapLoop_isSome : ∀ {is : List Nat} {s : State}, s.bwtCap ≤ 2 ^ 24 →
    (∀ b, b < 256 → (s.baseAt b).toNat + is.countP (fun i => decide ((s.bwtAt i).toNat = b)) ≤ s.bwtCap) →
    ∃ t, lmapLoop is s = some t
  | [], s, _, _ => ⟨s, rfl⟩
  | i :: is, s, hcap, hroom => by
    have hplace : (s.baseAt (s.bwtAt i).toNat).toNat < s.bwtCap := by
      have := hroom _ (s.bwtAt i).isLt
      rw [List.countP_cons_of_pos (by simp)] at this
      omega
    unfold lmapLoop
    rw [if_pos hplace]
    refine lmapLoop_isSome hcap fun b hb => ?_
    have := hroom b hb
    rw [State.placeIndex_cursor hcap hplace]
    rw [List.countP_cons] at this
    simp only [decide_eq_true_eq] at this
    change _ + is.countP (fun i => decide ((s.bwtAt i).toNat = b)) ≤ s.bwtCap
    omega

/-- From counted bases every bucket has exactly the room its bytes need (R140, R141). -/
theorem State.Inv.lmapBody_completes {s : State} (hs : s.Inv) (hcntv : s.cntv = true) : Completes s.lmapBody := by
  obtain ⟨-, hcap, hfit⟩ := hs.spec.capacity
  have hroom : ∀ b, b < 256 → (s.baseAt b).toNat +
      (List.range s.bwtlen.toNat).countP (fun i => decide ((s.bwtAt i).toNat = b)) ≤ s.bwtCap := by
    intro b hb
    have hle := countBelow_le_length s.bwtBytes (b + 1)
    rw [s.bwtBytes_length] at hle
    rw [hs.bases hcntv b hb, ← s.countBelow_bwtBytes_succ]
    omega
  obtain ⟨t, ht⟩ := lmapLoop_isSome hcap hroom
  unfold State.lmapBody
  rw [if_neg (by omega), ht]
  exact completes_next _

/-- From a valid LF map the walk stays inside the buffer (R142). -/
theorem State.Inv.lwalkBody_completes {s : State} (hs : s.Inv) (hlfv : s.lfv = true)
    (horigin : s.origin.toNat < s.bwtlen.toNat) : Completes s.lwalkBody := by
  obtain ⟨-, -, hfit⟩ := hs.spec.capacity
  obtain ⟨r, hr⟩ := State.walk_isSome (by omega) (hs.map hlfv) s.bwtlen.toNat s.origin.toNat horigin
  unfold State.lwalkBody
  rw [if_neg (by omega), hr]
  exact completes_next _

theorem execLmap_completes {s : State} (hs : s.Inv) : Completes (execLmap s) :=
  whenRunning_completes <| completes_ite (fun _ => completes_next _) fun h => hs.lmapBody_completes (by simpa using h)

theorem execLwalk_completes {s : State} (hs : s.Inv) : Completes (execLwalk s) :=
  whenRunning_completes <| completes_ite (fun _ => completes_next _) fun h =>
    completes_ite (fun _ => completes_next _) fun horigin => hs.lwalkBody_completes (by simpa using h) (by omega)

/-- LINV's phases: LCOUNT leaves counted bases for LMAP, LMAP a valid map for the walk, and neither moves the origin or
the buffer's end (R143). -/
theorem execLinv_completes {s : State} (hs : s.Inv) : Completes (execLinv s) := by
  refine whenRunning_completes <| completes_ite (fun _ => completes_next _) fun horigin => ?_
  refine andThen_completes hs.lcountBody_completes fun t ht => ?_
  have hti : t.Inv := hs.of_chain (State.lcountBody_chain (i := .linv) (.inr rfl) ht)
  obtain ⟨-, rfl⟩ := State.lcountBody_next ht
  refine andThen_completes (hti.lmapBody_completes rfl) fun v hv => ?_
  have hvi : v.Inv := hti.of_chain (State.lmapBody_chain (i := .linv) (.inr rfl) rfl hv)
  obtain ⟨-, u, hu, rfl⟩ := State.lmapBody_next hv
  refine hvi.lwalkBody_completes rfl ?_
  rw [lmapLoop_frame hu]
  exact Nat.not_le.mp horigin

/-! ## Commands and host accesses -/

theorem exec_completes {s : State} (hs : s.Inv) (i : Instr) : Completes (exec i s) := by
  cases i with
  | nop | blkend | minit => exact whenRunning_completes (completes_next _)
  | start => exact completes_next _
  | bseek => exact whenRunning_completes (completes_ite (fun _ => completes_next _) fun _ => completes_next _)
  | bpeek n => exact whenRunning_completes (withBitCount_completes fun _ => completes_next _)
  | bcons n =>
    exact whenRunning_completes (withBitCount_completes fun _ =>
      completes_ite (fun _ => completes_next _) fun _ => completes_next _)
  | hbuild g => exact execHbuild_completes hs g
  | hlook g => exact execHlook_completes hs g
  | hdec g => exact execHdec_completes hs g
  | msym => exact execMsym_completes hs
  | mstep => exact whenRunning_completes (hs.mstepWith_completes _)
  | mblock => exact execMblock_completes hs
  | lcount => exact whenRunning_completes hs.lcountBody_completes
  | lmap => exact execLmap_completes hs
  | lwalk => exact execLwalk_completes hs
  | linv => exact execLinv_completes hs

/-- A word written to CMD completes: a legal word's command does, and an illegal word raises or is ignored. -/
theorem State.Inv.command_completes {s : State} (hs : s.Inv) (v : Word) : Completes (s.command v) := by
  rcases s.command_cases v with ⟨i, -, e⟩ | ⟨_, -, e⟩
  · exact e ▸ exec_completes hs i
  · exact e ▸ whenRunning_completes (completes_next _)

/-- Settles O60: an access the interface has is served, and a command it starts completes. -/
theorem goodStatesNeverStop : Obligations.GoodStatesNeverStop := by
  intro s hs haligned
  change Completes (step s)
  cases hbus : s.bus with
  | nil => exact ⟨s, by rw [step, State.serveNext, hbus]⟩
  | cons a rest =>
    have hrest : State.Inv { s with bus := rest } := (HostUpdate.takeAccess rest).inv hs
    rw [State.nextAccessAligned, hbus] at haligned
    rw [step_serve hbus]
    cases a with
    | read size addr => exact completes_ite (fun _ => completes_next _) fun h => absurd haligned h
    | write size addr v =>
      refine completes_ite (fun _ => ?_) fun h => absurd haligned h
      exact completes_ite (fun _ => hrest.command_completes v) fun _ => completes_next _
    | lend | powerOn => exact completes_next _

end Sys2Proof.Machine
end

section
/-! SUPPORT. HLOOK, HDEC and the faults of HBUILD (O17, O18, O21, O22): the outcomes of the three commands, and the
lookup on any table with legal TMIN and TMAX (R103). -/

namespace Sys2Proof.Machine

/-- A running command of format G runs its body on the group it names. -/
theorem whenRunning_withGroup {i : Instr} {g : BitVec 3} {k : Fin 6} (hk : k.val = g.toNat) {s : State}
    (hfault : s.fault = false) (f : Fin 6 → Result) : whenRunning s (withGroup i g s f) = f k := by
  obtain ⟨n, hn⟩ := k
  subst hk
  exact (whenRunning_running hfault _).trans (withGroup_legal i s f hn)

/-! ## The lookup (R103) -/

section lookup

variable {s : State} {k : Fin 6} {w : Nat}

/-- The scan stops at the least length from TMIN to TMAX whose next first code exceeds the window. -/
theorem State.scanLength_eq_some_iff {l : Nat} : s.scanLength k w = some l ↔
    w < (s.firstAt k (l + 1)).toNat * 2 ^ (23 - l) ∧ ((s.tminOf k).toNat ≤ l ∧ l ≤ (s.tmaxOf k).toNat) ∧
      ∀ m, (s.tminOf k).toNat ≤ m → m < l → (s.firstAt k (m + 1)).toNat * 2 ^ (23 - m) ≤ w := by
  unfold State.scanLength
  rw [List.find?_range'_eq_some, List.mem_range'_1]
  simp only [decide_eq_true_eq, Bool.not_eq_true', decide_eq_false_iff_not, Nat.not_lt, Nat.shiftLeft_eq]
  refine and_congr_right fun _ => and_congr_left fun _ => ?_
  omega

/-- The scan runs through where no length from TMIN to TMAX qualifies. -/
theorem State.scanLength_eq_none_iff : s.scanLength k w = none ↔
    ∀ l, (s.tminOf k).toNat ≤ l → l ≤ (s.tmaxOf k).toNat → (s.firstAt k (l + 1)).toNat * 2 ^ (23 - l) ≤ w := by
  unfold State.scanLength
  rw [List.find?_range'_eq_none]
  simp only [Bool.not_eq_true', decide_eq_false_iff_not, Nat.not_lt, Nat.shiftLeft_eq]
  exact forall_congr' fun l => ⟨fun h hmin hmax => h hmin (by omega), fun h hmin hmax => h hmin (by omega)⟩

variable (hmin : 1 ≤ (s.tminOf k).toNat) (hmax : (s.tmaxOf k).toNat ≤ 20)
include hmin hmax

theorem State.lookup_of_scanLength_none (hscan : s.scanLength k w = none) : s.lookup k w = .miss := by
  rw [State.lookup, Config.lenMin, if_neg (Nat.not_lt.mpr hmin), Config.lenMax, if_neg (Nat.not_lt.mpr hmax), hscan]

theorem State.lookup_of_scanLength_some {l : Nat} (hscan : s.scanLength k w = some l)
    (hfirst : (s.firstAt k l).toNat ≤ w / 2 ^ (24 - l))
    (hidx : (s.startAt k l).toNat + (w / 2 ^ (24 - l) - (s.firstAt k l).toNat) ≤ 257) :
    s.lookup k w = .hit l
      (s.symAt k ((s.startAt k l).toNat + (w / 2 ^ (24 - l) - (s.firstAt k l).toNat))).toNat := by
  rw [State.lookup, Config.lenMin, if_neg (Nat.not_lt.mpr hmin), Config.lenMax, if_neg (Nat.not_lt.mpr hmax), hscan]
  dsimp only
  rw [Nat.shiftRight_eq_div_pow, if_neg (Nat.not_lt.mpr hfirst), Config.symusedMax, if_pos (Nat.lt_succ_of_le hidx)]

end lookup

/-- Settles O18: the scan stops at the length described, or at none. -/
theorem lookupTakesLeastLength : Obligations.LookupTakesLeastLength :=
  fun _ _ _ hmin hmax =>
    ⟨fun _ hl hl' hw hleast => State.lookup_of_scanLength_some hmin hmax
        (State.scanLength_eq_some_iff.mpr ⟨hw, ⟨hl, hl'⟩, hleast⟩),
      fun hnone => State.lookup_of_scanLength_none hmin hmax (State.scanLength_eq_none_iff.mpr hnone)⟩

/-- What a lookup finds fits RES0 and RES1: a symbol is an element of SYM, a length at most TMAX. -/
theorem State.lookup_hit_lt {s : State} {k : Fin 6} {w l sym : Nat} (h : s.lookup k w = .hit l sym) :
    l < 2 ^ 32 ∧ sym < 2 ^ 32 := by
  obtain ⟨hscan, -, hmax, -, -, rfl⟩ := State.lookup_hit h
  obtain ⟨-, hl, -⟩ := State.scanLength_some hscan
  exact ⟨by omega, (BitVec.isLt _).trans (by decide)⟩

/-! ## HLOOK, HDEC and HBUILD's faults -/

section commands

variable {s : State} {g : BitVec 3} {k : Fin 6} (hk : k.val = g.toNat) (hfault : s.fault = false)
include hk hfault

theorem exec_hlook_sequence (htblv : s.tblv[k] = false) :
    exec (.hlook g) s = .next (s.raise 0x21 .sequence 0) := by
  change execHlook g s = _
  rw [execHlook, whenRunning_withGroup hk hfault, htblv]
  rfl

theorem exec_hlook_miss (htblv : s.tblv[k] = true) (hlookup : s.lookup k s.opaWindow = .miss) :
    exec (.hlook g) s = .next (s.raise 0x21 .invalidCode (BitVec.ofNat 24 s.opaWindow)) := by
  change execHlook g s = _
  rw [execHlook, whenRunning_withGroup hk hfault, htblv, hlookup]
  rfl

theorem exec_hlook_hit (htblv : s.tblv[k] = true) {l sym : Nat} (hlookup : s.lookup k s.opaWindow = .hit l sym) :
    exec (.hlook g) s = .next (s.setResult sym l) := by
  change execHlook g s = _
  rw [execHlook, whenRunning_withGroup hk hfault, htblv, hlookup]
  rfl

theorem exec_hdec_sequence (htblv : s.tblv[k] = false) :
    exec (.hdec g) s = .next (s.raise 0x22 .sequence 0) := by
  change execHdec g s = _
  rw [execHdec, whenRunning_withGroup hk hfault, htblv]
  rfl

theorem exec_hdec_miss (htblv : s.tblv[k] = true) (hlookup : s.lookup k (s.peek 24) = .miss) :
    exec (.hdec g) s = .next (s.raise 0x22 .invalidCode (BitVec.ofNat 24 (s.peek 24))) := by
  change execHdec g s = _
  rw [execHdec, whenRunning_withGroup hk hfault, htblv, Config.window, hlookup]
  rfl

theorem exec_hdec_hit (htblv : s.tblv[k] = true) {l sym : Nat} (hlookup : s.lookup k (s.peek 24) = .hit l sym) :
    exec (.hdec g) s = if s.limit.toNat < s.pos.toNat + l then .next (s.raise 0x22 .truncation (BitVec.ofNat 24 l))
      else .next ((s.setPos (s.pos.toNat + l)).setResult sym l) := by
  change execHdec g s = _
  rw [execHdec, whenRunning_withGroup hk hfault, htblv, Config.window, hlookup]
  rfl

theorem exec_hbuild_sequence (hfavv : s.favv = false) :
    exec (.hbuild g) s = .next (s.raise 0x20 .sequence 0) := by
  change execHbuild g s = _
  rw [execHbuild, whenRunning_withGroup hk hfault, hfavv]
  rfl

variable (hfavv : s.favv = true) (hpos : 0 < s.symused.toNat) (hmax : s.symused.toNat ≤ 258)
include hfavv hpos hmax

theorem exec_hbuild_badLength {i : Nat} (hbad : (s.lengths k).findIdx? badLength = some i) :
    exec (.hbuild g) s = .next (s.raise 0x20 .invalidCodeLength (BitVec.ofNat 24 i)) := by
  change execHbuild g s = _
  rw [execHbuild, whenRunning_withGroup hk hfault, hfavv, Bool.not_true, if_neg Bool.false_ne_true,
    if_neg (by simp only [Config.symusedMax]; omega), hbad]
  rfl

theorem exec_hbuild_legal (hlegal : (s.lengths k).findIdx? badLength = none) :
    exec (.hbuild g) s = .next ((s.setTable k (s.table[k].build (s.lengths k))).markTable k) := by
  change execHbuild g s = _
  rw [execHbuild, whenRunning_withGroup hk hfault, hfavv, Bool.not_true, if_neg Bool.false_ne_true,
    if_neg (by simp only [Config.symusedMax]; omega), hlegal]

end commands

theorem State.opaWindow_eq_mod (s : State) : s.opaWindow = s.opa.toNat % 2 ^ 24 := by
  simp [State.opaWindow]

/-- Settles O21: the three outcomes of HLOOK, by TBLV and the lookup. -/
theorem hlookLooksUpWindow : Obligations.HlookLooksUpWindow := by
  intro s g k hk hfault
  rw [← s.opaWindow_eq_mod]
  refine ⟨exec_hlook_sequence hk hfault, exec_hlook_miss hk hfault, fun l sym htblv hlookup => ?_⟩
  obtain ⟨hl, hsym⟩ := State.lookup_hit_lt hlookup
  exact ⟨_, exec_hlook_hit hk hfault htblv hlookup, toNat_ofNat_of_le le_rfl hsym, toNat_ofNat_of_le le_rfl hl, rfl⟩

/-- Settles O22: the four outcomes of HDEC, by TBLV, the lookup and LIMIT. -/
theorem hdecDecodesAtCursor : Obligations.HdecDecodesAtCursor := by
  intro s g k hk hfault
  refine ⟨exec_hdec_sequence hk hfault, exec_hdec_miss hk hfault, fun l sym htblv hlookup hshort => ?_,
    fun l sym htblv hlookup henough => ?_⟩
  · exact (exec_hdec_hit hk hfault htblv hlookup).trans (if_pos hshort)
  · obtain ⟨hl, hsym⟩ := State.lookup_hit_lt hlookup
    exact ⟨_, (exec_hdec_hit hk hfault htblv hlookup).trans (if_neg (Nat.not_lt.mpr henough)),
      toNat_ofNat_of_le henough s.limit.isLt, toNat_ofNat_of_le le_rfl hsym, toNat_ofNat_of_le le_rfl hl, rfl⟩

theorem badLength_eq_true_iff {x : Nat} : badLength x = true ↔ x < 1 ∨ 20 < x := by
  rw [badLength, Bool.or_eq_true, decide_eq_true_iff, decide_eq_true_iff]
  rfl

/-- HBUILD's check finds the least symbol whose length is illegal (R102). -/
theorem State.findIdx?_badLength {s : State} {k : Fin 6} {i : Nat} (hi : i < s.symused.toNat)
    (hbad : (s.lenAt k i).toNat < 1 ∨ 20 < (s.lenAt k i).toNat)
    (hleast : ∀ j, j < i → 1 ≤ (s.lenAt k j).toNat ∧ (s.lenAt k j).toNat ≤ 20) :
    (s.lengths k).findIdx? badLength = some i := by
  rw [List.findIdx?_eq_some_iff_getElem]
  refine ⟨by rwa [s.lengths_length], ?_, fun j hj => ?_⟩
  · simpa [State.lengths, badLength_eq_true_iff] using hbad
  · obtain ⟨h1, h20⟩ := hleast j hj
    simp only [State.lengths, List.getElem_map, List.getElem_range, badLength_eq_true_iff]
    omega

/-- Settles O17: FAVV comes first, then the first illegal length. -/
theorem hbuildFaults : Obligations.HbuildFaults := fun _ _ _ hk hfault =>
  ⟨exec_hbuild_sequence hk hfault, fun _ hfavv hmax hi hbad hleast =>
    exec_hbuild_badLength hk hfault hfavv (by omega) hmax (State.findIdx?_badLength hi hbad hleast)⟩

end Sys2Proof.Machine
end

section
/-! SUPPORT. The table HBUILD builds (O16): the places of the sorted symbols, the least and the greatest length, and the
recurrences of R100. -/

namespace Sys2Proof.Machine

/-! ## The places of the sorted symbols (R100) -/

/-- The symbols of length `l` stand from start(l) on, in their own order. -/
theorem sortedSymbols_getElem? (lens : List Nat) {l j : Nat} (h1 : 1 ≤ l) (h20 : l ≤ 20) (hj : j < lens.count l) :
    (sortedSymbols lens)[startIndex lens l + j]? = (symbolsOfLength lens l)[j]? := by
  have hsplit : List.range' 1 20 = List.range' 1 (l - 1) ++ l :: List.range' (l + 1) (20 - l) := by
    rw [← List.range'_succ, show 20 - l + 1 = 21 - l by omega]
    have := List.range'_append (s := 1) (m := l - 1) (n := 21 - l) (step := 1)
    rw [show 1 + 1 * (l - 1) = l by omega, show l - 1 + (21 - l) = 20 by omega] at this
    exact this.symm
  have hbefore := flatMap_symbolsOfLength_length lens (l - 1)
  rw [Nat.sub_add_cancel h1] at hbefore
  rw [sortedSymbols, hsplit, List.flatMap_append, List.flatMap_cons, List.getElem?_append_right (by omega), hbefore,
    Nat.add_sub_cancel_left, List.getElem?_append_left (by rwa [symbolsOfLength_length])]

/-- A symbol stands, among those of its length, behind the ones before it. -/
theorem symbolsOfLength_getElem? (xs : List Nat) (x : Nat) (ys : List Nat) :
    (symbolsOfLength (xs ++ x :: ys) x)[xs.count x]? = some xs.length := by
  have hbefore := symbolsOfLength_length xs x
  unfold symbolsOfLength at hbefore ⊢
  rw [List.zipIdx_append, List.filter_append, List.map_append, List.getElem?_append_right hbefore.le, hbefore,
    Nat.sub_self]
  simp

/-- The symbols of length `l` have length `l`. -/
theorem getElem?_of_mem_symbolsOfLength {lens : List Nat} {l i : Nat} (h : i ∈ symbolsOfLength lens l) :
    lens[i]? = some l := by
  obtain ⟨⟨x, j⟩, hp, rfl⟩ := List.mem_map.mp h
  obtain ⟨hmem, hx⟩ := List.mem_filter.mp hp
  rw [List.mem_zipIdx_iff_getElem?] at hmem
  rw [hmem, eq_of_beq hx]

/-! ## The least and the greatest length (R102) -/

/-- The first hit of a search along a sorted list comes before every other one. -/
theorem eq_or_rel_of_find?_eq_some {α : Type} {r : α → α → Prop} {p : α → Bool} {xs : List α}
    (hsorted : xs.Pairwise r) {b x : α} (hb : xs.find? p = some b) (hx : x ∈ xs) (hp : p x = true) : x = b ∨ r b x := by
  obtain ⟨-, as, bs, rfl, has⟩ := List.find?_eq_some_iff_append.mp hb
  obtain ⟨-, hafter, -⟩ := List.pairwise_append.mp hsorted
  rcases List.mem_append.mp hx with hx | hx
  · simpa [hp] using has x hx
  · rcases List.mem_cons.mp hx with rfl | hx
    · exact .inl rfl
    · exact .inr (List.rel_of_pairwise_cons hafter hx)

section extremes

variable {lens : List Nat} (hne : lens ≠ []) (hlegal : ∀ x ∈ lens, 1 ≤ x ∧ x ≤ 20)
include hne hlegal

/-- A search for a length that occurs, along any sorted list of the legal lengths. -/
theorem find?_length_extreme {r : Nat → Nat → Prop} {ls : List Nat} (hsorted : ls.Pairwise r)
    (hall : ∀ l, 1 ≤ l → l ≤ 20 → l ∈ ls) :
    ∃ m, ls.find? (fun l => decide (0 < lens.count l)) = some m ∧ m ∈ lens ∧ ∀ x ∈ lens, x = m ∨ r m x := by
  have hoccurs : ∀ x ∈ lens, decide (0 < lens.count x) = true := fun x hx => decide_eq_true (List.count_pos_iff.mpr hx)
  have hlisted : ∀ x ∈ lens, x ∈ ls := fun x hx => hall x (hlegal x hx).1 (hlegal x hx).2
  obtain ⟨y, hy⟩ := List.exists_mem_of_ne_nil lens hne
  obtain ⟨m, hm⟩ : ∃ m, ls.find? (fun l => decide (0 < lens.count l)) = some m :=
    Option.isSome_iff_exists.mp (List.find?_isSome.mpr ⟨y, hlisted y hy, hoccurs y hy⟩)
  have hm0 : decide (0 < lens.count m) = true := (List.find?_some hm :)
  exact ⟨m, hm, List.count_pos_iff.mp (of_decide_eq_true hm0), fun x hx =>
    eq_or_rel_of_find?_eq_some hsorted hm (hlisted x hx) (hoccurs x hx)⟩

theorem leastLength_isLeast : leastLength lens ∈ lens ∧ ∀ x ∈ lens, leastLength lens ≤ x := by
  obtain ⟨m, hm, hmem, hleast⟩ := find?_length_extreme hne hlegal (List.pairwise_lt_range' (s := 1) (n := 20))
    (fun l h1 h20 => List.mem_range'_1.mpr ⟨h1, by omega⟩)
  rw [leastLength, hm]
  exact ⟨hmem, fun x hx => (hleast x hx).elim Eq.ge Nat.le_of_lt⟩

theorem greatestLength_isGreatest : greatestLength lens ∈ lens ∧ ∀ x ∈ lens, x ≤ greatestLength lens := by
  obtain ⟨m, hm, hmem, hgreatest⟩ := find?_length_extreme hne hlegal
    (List.pairwise_reverse.mpr (List.pairwise_lt_range' (s := 1) (n := 20)))
    (fun l h1 h20 => List.mem_reverse.mpr (List.mem_range'_1.mpr ⟨h1, by omega⟩))
  rw [greatestLength, hm]
  exact ⟨hmem, fun x hx => (hgreatest x hx).elim Eq.le Nat.le_of_lt⟩

end extremes

/-! ## The lengths HBUILD reads -/

theorem State.getElem?_lengths {s : State} {k : Fin 6} {i : Nat} (hi : i < s.symused.toNat) :
    (s.lengths k)[i]? = some (s.lenAt k i).toNat := by
  simp [State.lengths, hi]

theorem State.lengths_ne_nil (s : State) (k : Fin 6) (hpos : 0 < s.symused.toNat) : s.lengths k ≠ [] :=
  List.ne_nil_of_length_pos (s.lengths_length k ▸ hpos)

theorem State.mem_lengths {s : State} {k : Fin 6} {x : Nat} :
    x ∈ s.lengths k ↔ ∃ i, i < s.symused.toNat ∧ (s.lenAt k i).toNat = x := by
  simp [State.lengths]

theorem State.lenCount_eq_count (s : State) (k : Fin 6) (l : Nat) : s.lenCount k l = (s.lengths k).count l := by
  rw [State.lenCount, State.lengths, List.count, List.countP_map]
  rfl

theorem State.lenRank_eq_count {s : State} {k : Fin 6} {i : Nat} (hi : i < s.symused.toNat) :
    s.lenRank k i = ((s.lengths k).take i).count (s.lenAt k i).toNat := by
  rw [State.lenRank, State.lengths, ← List.map_take, List.take_range, Nat.min_eq_left hi.le, List.count, List.countP_map]
  refine List.countP_congr fun j _ => ?_
  simp [BitVec.toNat_inj]

/-- The symbol `i` stands among those of its length at its rank. -/
theorem State.symbolsOfLength_lenRank {s : State} {k : Fin 6} {i : Nat} (hi : i < s.symused.toNat) :
    (symbolsOfLength (s.lengths k) (s.lenAt k i).toNat)[s.lenRank k i]? = some i := by
  have hi' : i < (s.lengths k).length := by rwa [s.lengths_length]
  have hget : (s.lengths k)[i] = (s.lenAt k i).toNat :=
    Option.some.inj ((List.getElem?_eq_getElem hi').symm.trans (State.getElem?_lengths hi))
  have hsplit : s.lengths k = (s.lengths k).take i ++ (s.lenAt k i).toNat :: (s.lengths k).drop (i + 1) := by
    rw [← hget, ← List.drop_eq_getElem_cons hi', List.take_append_drop]
  have h := symbolsOfLength_getElem? ((s.lengths k).take i) (s.lenAt k i).toNat ((s.lengths k).drop (i + 1))
  rwa [← hsplit, ← State.lenRank_eq_count hi, List.length_take, Nat.min_eq_left hi'.le] at h

theorem State.lenRank_lt_count {s : State} {k : Fin 6} {i : Nat} (hi : i < s.symused.toNat) :
    s.lenRank k i < (s.lengths k).count (s.lenAt k i).toNat := by
  obtain ⟨hrank, -⟩ := List.getElem?_eq_some_iff.mp (State.symbolsOfLength_lenRank (k := k) hi)
  rwa [symbolsOfLength_length] at hrank

theorem State.LengthsLegal.lengths {s : State} {k : Fin 6} (h : s.LengthsLegal k) :
    ∀ x ∈ s.lengths k, 1 ≤ x ∧ x ≤ 20 := by
  intro x hx
  obtain ⟨i, hi, rfl⟩ := State.mem_lengths.mp hx
  exact h i hi

/-! ## The built table -/

/-- What HBUILD leaves where it raises nothing (R102): table `k` built from its lengths, and marked valid. -/
def State.buildTable (s : State) (k : Fin 6) : State := (s.setTable k (s.table[k].build (s.lengths k))).markTable k

theorem State.buildTable_same (s : State) (k : Fin 6) : (s.buildTable k).table[k] = s.table[k].build (s.lengths k) := by
  simp [State.buildTable, State.setTable]

theorem State.buildTable_tblv_same (s : State) (k : Fin 6) : (s.buildTable k).tblv[k] = true := by
  simp [State.buildTable, State.markTable]

theorem State.buildTable_other (s : State) {j k : Fin 6} (hj : j ≠ k) :
    (s.buildTable k).table[j] = s.table[j] ∧ (s.buildTable k).tblv[j] = s.tblv[j] := by
  simp [State.buildTable, State.setTable, State.markTable, Fin.val_ne_of_ne hj.symm]

theorem State.buildTable_symAt_beyond {s : State} {k : Fin 6} (hlegal : s.LengthsLegal k) {i : Nat}
    (hi : s.symused.toNat ≤ i) : (s.buildTable k).symAt k i = s.symAt k i := by
  have hlen := sortedSymbols_length hlegal.lengths
  rw [s.lengths_length] at hlen
  rw [State.symAt, s.buildTable_same, HuffTable.build, State.elem_splice, dif_neg (by rw [List.length_map]; omega)]
  rfl

theorem exec_hbuild_eq_buildTable {s : State} {g : BitVec 3} {k : Fin 6} (hk : k.val = g.toNat)
    (hfault : s.fault = false) (hfavv : s.favv = true) (hpos : 0 < s.symused.toNat) (hmax : s.symused.toNat ≤ 258)
    (hlegal : s.LengthsLegal k) : exec (.hbuild g) s = .next (s.buildTable k) := by
  refine exec_hbuild_legal hk hfault hfavv hpos hmax (List.findIdx?_eq_none_iff.mpr fun x hx => ?_)
  have := hlegal.lengths x hx
  rw [← Bool.not_eq_true, badLength_eq_true_iff]
  omega

section build

variable {s : State} {g : Fin 6} {old : HuffTable} {lens : List Nat} (h : s.table[g] = old.build lens)
  (hlegal : ∀ x ∈ lens, 1 ≤ x ∧ x ≤ 20) (hlen : lens.length ≤ 258)
include h hlegal hlen

/-- A symbol stands in SYM at the start of its length plus its place among the symbols of that length. -/
theorem State.symAt_build_toNat {l j i : Nat} (h1 : 1 ≤ l) (h20 : l ≤ 20)
    (hi : (symbolsOfLength lens l)[j]? = some i) :
    startIndex lens l + j < lens.length ∧ (s.symAt g (startIndex lens l + j)).toNat = i := by
  obtain ⟨hj, -⟩ := List.getElem?_eq_some_iff.mp hi
  rw [symbolsOfLength_length] at hj
  obtain ⟨hidx, hget⟩ := List.getElem?_eq_some_iff.mp ((sortedSymbols_getElem? lens h1 h20 hj).trans hi)
  have hsym := lt_length_of_mem_sortedSymbols (List.getElem_mem hidx)
  rw [State.symAt_build h hidx, hget, toNat_ofNat_of_le (m := 258) (by omega) (by decide)]
  exact ⟨sortedSymbols_length hlegal ▸ hidx, rfl⟩

end build

/-- Settles O16: the table reads back as the recurrences of R100, and HBUILD writes nothing else. -/
theorem hbuildBuildsCanonicalTable : Obligations.HbuildBuildsCanonicalTable := by
  intro s g k hk hfault hfavv hmin hmax hlegal
  have hpos : 0 < s.symused.toNat := by omega
  have hbuilt := s.buildTable_same k
  have hlens := hlegal.lengths
  have hlen : (s.lengths k).length ≤ 258 := s.lengths_length k ▸ hmax
  have hne := s.lengths_ne_nil k hpos
  have hmem : ∀ i, i < s.symused.toNat → (s.lenAt k i).toNat ∈ s.lengths k :=
    fun i hi => State.mem_lengths.mpr ⟨i, hi, rfl⟩
  refine ⟨s.buildTable k, exec_hbuild_eq_buildTable hk hfault hfavv hpos hmax hlegal, ⟨?_, fun l h1 h20 => ?_⟩,
    ⟨?_, fun l h1 h20 => ?_⟩, fun i hi => ?_, ?_, ?_, fun i hi => State.buildTable_symAt_beyond hlegal hi,
    fun j hj => s.buildTable_other hj, s.buildTable_tblv_same k, rfl⟩
  · exact State.firstAt_build hbuilt le_rfl (by decide)
  · rw [State.firstAt_build_toNat hbuilt hlens hlen (by omega) (by omega),
      State.firstAt_build_toNat hbuilt hlens hlen h1 (by omega), firstCode_succ _ h1, s.lenCount_eq_count]
  · exact State.startAt_build hbuilt le_rfl (by decide)
  · rw [State.startAt_build_toNat hbuilt hlens hlen (by omega) (by omega),
      State.startAt_build_toNat hbuilt hlens hlen h1 (by omega), startIndex_succ _ h1, s.lenCount_eq_count]
  · obtain ⟨h1, h20⟩ := hlegal i hi
    rw [State.startAt_build_toNat hbuilt hlens hlen h1 (by omega)]
    exact (State.symAt_build_toNat hbuilt hlens hlen h1 h20 (State.symbolsOfLength_lenRank hi)).2
  · obtain ⟨hleast, hle⟩ := leastLength_isLeast hne hlens
    obtain ⟨i, hi, he⟩ := State.mem_lengths.mp hleast
    rw [State.tminOf_build_toNat hbuilt hlens hne]
    exact ⟨⟨i, hi, he.symm⟩, fun i hi => hle _ (hmem i hi)⟩
  · obtain ⟨hgreatest, hge⟩ := greatestLength_isGreatest hne hlens
    obtain ⟨i, hi, he⟩ := State.mem_lengths.mp hgreatest
    rw [State.tmaxOf_build_toNat hbuilt]
    exact ⟨⟨i, hi, he.symm⟩, fun i hi => hge _ (hmem i hi)⟩

end Sys2Proof.Machine
end

section
/-! SUPPORT. The code of a built table (O19, O20): the first codes, left-justified, are partial Kraft sums, so the scan
of R103 finds a window's length by comparing the window with them (R106(c), R106(d)). -/

namespace Sys2Proof.Machine

/-! ## Kraft sums (R106(c)) -/

/-- 2^24 times the Kraft sum of some lengths. -/
def kraftSum (lens : List Nat) : Nat := (lens.map fun x => 2 ^ (24 - x)).sum

/-- 2^24 times the Kraft sum of the lengths below `l`. -/
def kraftBelow (lens : List Nat) (l : Nat) : Nat := kraftSum (lens.filter fun x => decide (x < l))

theorem kraftBelow_cons (x : Nat) (xs : List Nat) (l : Nat) :
    kraftBelow (x :: xs) l = (if x < l then 2 ^ (24 - x) else 0) + kraftBelow xs l := by
  by_cases hx : x < l <;> simp [kraftBelow, kraftSum, hx]

theorem kraftBelow_succ (lens : List Nat) (l : Nat) :
    kraftBelow lens (l + 1) = kraftBelow lens l + lens.count l * 2 ^ (24 - l) := by
  induction lens with
  | nil => simp [kraftBelow, kraftSum]
  | cons x xs ih =>
    rw [kraftBelow_cons, kraftBelow_cons, ih, List.count_cons]
    rcases Nat.lt_trichotomy x l with hx | rfl | hx
    · simp [hx, hx.le, hx.ne, Nat.add_assoc]
    · simp [Nat.add_mul]
      omega
    · simp [hx.not_gt, hx.not_ge, hx.ne']

theorem kraftBelow_mono (lens : List Nat) : Monotone (kraftBelow lens) :=
  monotone_nat_of_le_succ fun l => kraftBelow_succ lens l ▸ Nat.le_add_right _ _

theorem kraftBelow_eq_kraftSum {lens : List Nat} {l : Nat} (h : ∀ x ∈ lens, x < l) :
    kraftBelow lens l = kraftSum lens := by
  rw [kraftBelow, List.filter_eq_self.mpr fun x hx => decide_eq_true (h x hx)]

theorem kraftBelow_one {lens : List Nat} (h : ∀ x ∈ lens, 1 ≤ x) : kraftBelow lens 1 = 0 := by
  rw [kraftBelow, List.filter_eq_nil_iff.mpr fun x hx => by have := h x hx; simp; omega]
  rfl

/-- The first code of a length, left-justified in the window, is the Kraft sum of the shorter lengths. -/
theorem firstCode_mul_eq_kraftBelow {lens : List Nat} (h : ∀ x ∈ lens, 1 ≤ x) :
    ∀ l, 1 ≤ l → l ≤ 24 → firstCode lens l * 2 ^ (24 - l) = kraftBelow lens l
  | 0, h1, _ => absurd h1 (by decide)
  | 1, _, _ => by rw [kraftBelow_one h, firstCode_one, Nat.zero_mul]
  | l + 2, _, h24 => by
    have hpow : 2 ^ (24 - (l + 1)) = 2 * 2 ^ (24 - (l + 2)) := by
      rw [← Nat.pow_succ', show (24 - (l + 2)).succ = 24 - (l + 1) by omega]
    rw [kraftBelow_succ, ← firstCode_mul_eq_kraftBelow h (l + 1) (by omega) (by omega),
      firstCode_succ lens (Nat.succ_pos l), hpow]
    ring

theorem State.kraft_eq_kraftSum (s : State) (k : Fin 6) : s.kraft k = kraftSum (s.lengths k) := by
  rw [kraftSum, State.lengths, List.map_map]
  rfl

/-! ## The scan of a built table (R103) -/

section build

variable {s : State} {g : Fin 6} {old : HuffTable} {lens : List Nat} (h : s.table[g] = old.build lens)
  (hlegal : ∀ x ∈ lens, 1 ≤ x ∧ x ≤ 20) (hlen : lens.length ≤ 258)
include h hlegal hlen

/-- What the scan compares the window with at length `l`: the Kraft sum of the lengths up to `l`. -/
theorem State.firstAt_build_mul {l : Nat} (h20 : l ≤ 20) :
    (s.firstAt g (l + 1)).toNat * 2 ^ (23 - l) = kraftBelow lens (l + 1) := by
  rw [State.firstAt_build_toNat h hlegal hlen (by omega) (by omega), ← firstCode_mul_eq_kraftBelow
    (fun x hx => (hlegal x hx).1) (l + 1) (by omega) (by omega), show 24 - (l + 1) = 23 - l by omega]

/-- The code's own symbol at the place where the window stands among the codes of its length. -/
theorem State.lookup_build_of_scanLength (hne : lens ≠ []) {w l i : Nat} (hscan : s.scanLength g w = some l)
    (hi : (symbolsOfLength lens l)[w / 2 ^ (24 - l) - firstCode lens l]? = some i) : s.lookup g w = .hit l i := by
  obtain ⟨h1, h20, hlow, -⟩ := State.scanLength_build h hlegal hlen hne hscan
  obtain ⟨hidx, hsym⟩ := State.symAt_build_toNat h hlegal hlen h1 h20 hi
  rw [Nat.shiftRight_eq_div_pow, ← State.firstAt_build_toNat h hlegal hlen h1 (by omega)] at hlow
  rw [← State.startAt_build_toNat h hlegal hlen h1 (by omega),
    ← State.firstAt_build_toNat h hlegal hlen h1 (by omega)] at hidx hsym
  rw [State.lookup_of_scanLength_some _ _ hscan hlow (by omega), hsym]
  · rw [State.tminOf_build_toNat h hlegal hne]
    exact (leastLength_spec hne hlegal).1
  · rw [State.tmaxOf_build_toNat h]
    exact greatestLength_le lens

/-- Where the scan stops, the lookup gives a symbol of that length (R106(a)). -/
theorem State.exists_lookup_build_of_scanLength (hne : lens ≠ []) {w l : Nat} (hscan : s.scanLength g w = some l) :
    ∃ i, lens[i]? = some l ∧ s.lookup g w = .hit l i := by
  obtain ⟨-, -, hlow, hhigh⟩ := State.scanLength_build h hlegal hlen hne hscan
  rw [Nat.shiftRight_eq_div_pow] at hlow hhigh
  have hplace : w / 2 ^ (24 - l) - firstCode lens l < (symbolsOfLength lens l).length := by
    rw [symbolsOfLength_length]
    omega
  exact ⟨_, getElem?_of_mem_symbolsOfLength (List.getElem_mem hplace),
    State.lookup_build_of_scanLength h hlegal hlen hne hscan (List.getElem?_eq_getElem hplace)⟩

/-- The scan runs through exactly on the windows at or above the Kraft sum. -/
theorem State.scanLength_build_eq_none_iff (hne : lens ≠ []) {w : Nat} :
    s.scanLength g w = none ↔ kraftSum lens ≤ w := by
  obtain ⟨hmem, hge⟩ := greatestLength_isGreatest hne hlegal
  have hmax := greatestLength_le lens
  have htotal : kraftBelow lens (greatestLength lens + 1) = kraftSum lens :=
    kraftBelow_eq_kraftSum fun x hx => Nat.lt_succ_of_le (hge x hx)
  rw [State.scanLength_eq_none_iff, State.tminOf_build_toNat h hlegal hne, State.tmaxOf_build_toNat h, ← htotal]
  constructor
  · intro hskipped
    rw [← State.firstAt_build_mul h hlegal hlen hmax]
    exact hskipped _ ((leastLength_isLeast hne hlegal).2 _ hmem) le_rfl
  · intro hw l _ hl
    rw [State.firstAt_build_mul h hlegal hlen (by omega)]
    exact (kraftBelow_mono lens (by omega)).trans hw

/-- The scan stops at the length of a symbol whose code the window starts with. -/
theorem State.scanLength_build_of_code (hne : lens ≠ []) {w l r : Nat} (hl : l ∈ lens) (hr : r < lens.count l)
    (hw : w / 2 ^ (24 - l) = firstCode lens l + r) : s.scanLength g w = some l := by
  obtain ⟨h1, h20⟩ := hlegal l hl
  have hfirst := firstCode_mul_eq_kraftBelow (fun x hx => (hlegal x hx).1) l h1 (by omega)
  have hlow : kraftBelow lens l ≤ w := by
    rw [← hfirst, ← Nat.le_div_iff_mul_le (Nat.two_pow_pos _), hw]
    exact Nat.le_add_right _ _
  have hhigh : w < kraftBelow lens (l + 1) := by
    rw [kraftBelow_succ, ← hfirst, ← Nat.add_mul, ← Nat.div_lt_iff_lt_mul (Nat.two_pow_pos _), hw]
    omega
  rw [State.scanLength_eq_some_iff, State.tminOf_build_toNat h hlegal hne, State.tmaxOf_build_toNat h,
    State.firstAt_build_mul h hlegal hlen h20]
  refine ⟨hhigh, ⟨(leastLength_isLeast hne hlegal).2 l hl, (greatestLength_isGreatest hne hlegal).2 l hl⟩, ?_⟩
  intro m _ hm
  rw [State.firstAt_build_mul h hlegal hlen (by omega)]
  exact (kraftBelow_mono lens hm).trans hlow

end build

/-- HBUILD that succeeds leaves the table of its lengths, which are neither none nor too many. -/
theorem State.table_of_exec_hbuild {s t : State} {g : BitVec 3} {k : Fin 6} (hk : k.val = g.toNat)
    (hfault : s.fault = false) (hfavv : s.favv = true) (hmin : 2 ≤ s.symused.toNat) (hmax : s.symused.toNat ≤ 258)
    (hlegal : s.LengthsLegal k) (h : exec (.hbuild g) s = .next t) :
    t.table[k] = s.table[k].build (s.lengths k) ∧ (s.lengths k).length ≤ 258 ∧ s.lengths k ≠ [] := by
  have hpos : 0 < s.symused.toNat := by omega
  rw [exec_hbuild_eq_buildTable hk hfault hfavv hpos hmax hlegal] at h
  injection h with h
  exact ⟨h ▸ s.buildTable_same k, s.lengths_length k ▸ hmax, s.lengths_ne_nil k hpos⟩

/-- Settles O19: the scan misses exactly at or above the Kraft sum, and stops below it at a length whose codes include
the window. -/
theorem builtTableDecodesBelowKraft : Obligations.BuiltTableDecodesBelowKraft := by
  intro s t g k hk hfault hfavv hmin hmax hlegal hexec w _
  obtain ⟨hbuilt, hlen, hne⟩ := State.table_of_exec_hbuild hk hfault hfavv hmin hmax hlegal hexec
  have hlens := hlegal.lengths
  rw [s.kraft_eq_kraftSum, ← Nat.not_le, ← State.scanLength_build_eq_none_iff hbuilt hlens hlen hne]
  refine ⟨fun hscan => ?_, fun hscan => ?_⟩
  · rcases State.lookup_build hbuilt hlens hlen hne w with hmiss | ⟨l, hl, -⟩
    · exact hmiss
    · simp [hl] at hscan
  · obtain ⟨l, hl⟩ := Option.ne_none_iff_exists'.mp hscan
    obtain ⟨i, hi, hlookup⟩ := State.exists_lookup_build_of_scanLength hbuilt hlens hlen hne hl
    have hsym : i < s.symused.toNat := s.lengths_length k ▸ (List.getElem?_eq_some_iff.mp hi).1
    have hlength : (s.lenAt k i).toNat = l := Option.some.inj ((State.getElem?_lengths hsym).symm.trans hi)
    exact ⟨i, hsym, hlength ▸ hlookup⟩

/-- Settles O20: the scan stops at the symbol's length, and the symbol's rank is its place there. -/
theorem builtTableIsPrefixUnambiguous : Obligations.BuiltTableIsPrefixUnambiguous := by
  intro s t g k hk hfault hfavv hmin hmax hlegal _ hexec i w hi _ hw
  obtain ⟨hbuilt, hlen, hne⟩ := State.table_of_exec_hbuild hk hfault hfavv hmin hmax hlegal hexec
  have hlens := hlegal.lengths
  obtain ⟨h1, h20⟩ := hlegal i hi
  rw [State.firstAt_build_toNat hbuilt hlens hlen h1 (by omega)] at hw
  have hscan := State.scanLength_build_of_code hbuilt hlens hlen hne (State.mem_lengths.mpr ⟨i, hi, rfl⟩)
    (State.lenRank_lt_count hi) hw
  refine State.lookup_build_of_scanLength hbuilt hlens hlen hne hscan ?_
  rw [hw, Nat.add_sub_cancel_left]
  exact State.symbolsOfLength_lenRank hi

end Sys2Proof.Machine
end

section
/-! SUPPORT. MINIT (O23): the favourites list holds every used byte at the place that counts the used bytes below it. -/

namespace Sys2Proof.Machine

theorem State.usedBytes_length (s : State) : s.usedBytes.length = s.usedRank 256 :=
  List.countP_eq_length_filter.symm

/-- The list of the used bytes is that of the bytes below `b`, then `b`, then the rest (R121). -/
theorem State.getElem?_usedBytes {s : State} {b : Nat} (hb : b < 256) (hused : s.usedAt b = 1) :
    s.usedBytes[s.usedRank b]? = some b := by
  have hsplit : List.range 256 = List.range b ++ b :: List.range' (b + 1) (255 - b) := by
    have happend := List.range'_append_1 (s := 0) (m := b) (n := 255 - b + 1)
    rw [Nat.zero_add, show b + (255 - b + 1) = 256 by omega] at happend
    rw [← List.range'_succ, List.range_eq_range', List.range_eq_range', happend]
  rw [State.usedBytes, Config.nfavMax, hsplit, List.filter_append, List.filter_cons_of_pos (by simpa using hused),
    State.usedRank, List.countP_eq_length_filter, List.getElem?_append_right le_rfl, Nat.sub_self]
  rfl

theorem State.favAt_initBlock_beyond (s : State) {j : Nat} (hj : s.usedBytes.length ≤ j) :
    s.initBlock.favAt j = s.favAt j := by
  change s.elem .fav (s.fav.splice 0 (s.usedBytes.map (BitVec.ofNat 8))) j = _
  rw [State.elem_splice, dif_neg (by rw [List.length_map]; omega)]
  rfl

/-- Settles O23: the used bytes below `b` stand before it in the ascending list. -/
theorem minitListsUsedBytes : Obligations.MinitListsUsedBytes := by
  intro s hfault
  rw [← s.usedBytes_length]
  refine ⟨s.initBlock, whenRunning_running hfault _, s.initBlock_nfav_toNat, s.initBlock_symused_toNat,
    fun b hb hused => ?_, fun j hj => s.favAt_initBlock_beyond hj, rfl⟩
  obtain ⟨hrank, hget⟩ := List.getElem?_eq_some_iff.mp (State.getElem?_usedBytes hb hused)
  rw [s.favAt_initBlock hrank, hget]

end Sys2Proof.Machine
end

section
/-! SUPPORT. MSYM (O24 to O27): the checks and the operation of each class of symbols (R120, R122), what flushing and
emitting leave in BWT (R124, R125), and the outcomes of the command. -/

namespace Sys2Proof.Machine

/-! ## The classes -/

theorem symClass_notSymbol {n c : Nat} (h : n ≤ c) : symClass n c = .notSymbol := if_pos h

section classes

variable {s : State} {c : Nat}

theorem State.symFault_of_notSymbol (h : s.symused.toNat ≤ c) :
    s.symFault c = some (.invalidSymbol, BitVec.ofNat 24 c) := by
  rw [State.symFault, symClass_notSymbol h]

theorem State.symFault_of_run (hc : symClass s.symused.toNat c = .run) :
    s.symFault c = if s.bwtCap < s.bwtlen.toNat + s.pend.toNat + 2 ^ (s.power.toNat + c)
      then some (.bufferOverflow, 0) else none := by
  rw [State.symFault, hc]

theorem State.symFault_of_literal (hc : symClass s.symused.toNat c = .literal) :
    s.symFault c = if s.bwtCap < s.bwtlen.toNat + s.pend.toNat + 1 then some (.bufferOverflow, 0) else none := by
  rw [State.symFault, hc]

theorem State.symFault_of_endOfBlock (hc : symClass s.symused.toNat c = .endOfBlock) : s.symFault c = none := by
  rw [State.symFault, hc]

/-- A run code or a literal that does not fit the buffer (R122 checks 3 and 4). -/
theorem State.symFault_of_overflow (hc : c < s.symused.toNat)
    (hfull : (c ≤ 1 ∧ s.bwtCap < s.bwtlen.toNat + s.pend.toNat + 2 ^ (s.power.toNat + c)) ∨
      (2 ≤ c ∧ c + 1 < s.symused.toNat ∧ s.bwtCap < s.bwtlen.toNat + s.pend.toNat + 1)) :
    s.symFault c = some (.bufferOverflow, 0) := by
  rcases hfull with ⟨hrun, hfull⟩ | ⟨h2, hlast, hfull⟩
  · rw [State.symFault_of_run (symClass_run.mpr ⟨hc, hrun⟩), if_pos hfull]
  · rw [State.symFault_of_literal (symClass_literal.mpr ⟨h2, hlast⟩), if_pos hfull]

theorem State.symOutside_of_run (hc : symClass s.symused.toNat c = .run) : s.symOutside c = none := by
  rw [State.symOutside, hc]

theorem State.symOutside_of_literal (hc : symClass s.symused.toNat c = .literal) (h : c ≤ 256) :
    s.symOutside c = none := by
  rw [State.symOutside, hc]
  exact if_neg (by simp only [Config.nfavMax]; omega)

theorem State.symOutside_of_endOfBlock (hc : symClass s.symused.toNat c = .endOfBlock)
    (hfit : s.bwtlen.toNat + s.pend.toNat ≤ s.bwtCap) : s.symOutside c = none := by
  rw [State.symOutside, hc]
  exact if_neg fun h => Nat.not_lt.mpr hfit h.2

theorem State.symApply_of_run (hc : symClass s.symused.toNat c = .run) :
    s.symApply c = (s.runAdd c).clearInverse := by
  rw [State.symApply, hc]

theorem State.symApply_of_literal (hc : symClass s.symused.toNat c = .literal) :
    s.symApply c = (s.flush.emitAndPromote c).clearInverse := by
  rw [State.symApply, hc]

theorem State.symApply_of_endOfBlock (hc : symClass s.symused.toNat c = .endOfBlock) :
    s.symApply c = { s.flush with eobf := true }.clearInverse := by
  rw [State.symApply, hc]

end classes

/-! ## BWT after flushing and emitting -/

theorem State.flush_bwtlen_toNat {s : State} (hcap : s.bwtCap ≤ 2 ^ 24)
    (hfit : s.bwtlen.toNat + s.pend.toNat ≤ s.bwtCap) : s.flush.bwtlen.toNat = s.bwtlen.toNat + s.pend.toNat :=
  toNat_ofNat_of_le (hfit.trans hcap) (by decide)

/-- The flushed run stands behind the old buffer (R124). -/
theorem State.bwtAt_flush (s : State) (i : Nat) : s.flush.bwtAt i =
    if s.bwtlen.toNat ≤ i ∧ i < s.bwtlen.toNat + s.pend.toNat then s.favAt 0 else s.bwtAt i := by
  change s.elem .bwt (s.bwt.splice s.bwtlen.toNat (List.replicate s.pend.toNat (s.favAt 0))) i = _
  simp only [State.elem_splice, List.length_replicate, List.getElem_replicate, dite_eq_ite]
  rfl

theorem State.bwtAt_flush_run {s : State} {i : Nat} (hi : i < s.pend.toNat) :
    s.flush.bwtAt (s.bwtlen.toNat + i) = s.favAt 0 := by
  rw [s.bwtAt_flush, if_pos (by omega)]

theorem State.bwtAt_flush_outside {s : State} {i : Nat}
    (hi : i < s.bwtlen.toNat ∨ s.bwtlen.toNat + s.pend.toNat ≤ i) : s.flush.bwtAt i = s.bwtAt i := by
  rw [s.bwtAt_flush, if_neg (by omega)]

/-- The emitted byte stands at the old length of the buffer (R125). -/
theorem State.bwtAt_emitAndPromote (s : State) (c i : Nat) : (s.emitAndPromote c).bwtAt i =
    if i = s.bwtlen.toNat then s.favAt (c - 1) else s.bwtAt i :=
  s.elem_write .bwt s.bwt s.bwtlen.toNat (s.favAt (c - 1)) i

/-! ## The command -/

/-- MSYM before MINIT or after the end-of-block code (R122 check 1). -/
theorem exec_msym_sequence {s : State} (hfault : s.fault = false) (h : s.favv = false ∨ s.eobf = true) :
    exec .msym s = .next (s.raise 0x31 .sequence 0) :=
  (whenRunning_running hfault _).trans (if_pos (by simpa using h))

section commands

variable {s : State} (hfault : s.fault = false) (hfavv : s.favv = true) (heobf : s.eobf = false)
include hfault hfavv heobf

theorem exec_msym_symFault {k : FaultKind} {d : BitVec 24} (hf : s.symFault s.opa.toNat = some (k, d)) :
    exec .msym s = .next (s.raise 0x31 k d) := by
  change execMsym s = _
  rw [execMsym, whenRunning_running hfault, if_neg (by simp [hfavv, heobf]), State.opaSymbol, hf]
  rfl

theorem exec_msym_symApply (hf : s.symFault s.opa.toNat = none) (ho : s.symOutside s.opa.toNat = none) :
    exec .msym s = .next (s.symApply s.opa.toNat) := by
  change execMsym s = _
  rw [execMsym, whenRunning_running hfault, if_neg (by simp [hfavv, heobf]), State.opaSymbol, hf, ho]

end commands

/-- Settles O24: 2^(POWER + c) <= 2^24 bounds both sums. -/
theorem msymAccumulatesRun : Obligations.MsymAccumulatesRun := by
  intro s hfault hfavv heobf hrun hsym hcap hfit
  have hc := symClass_run.mpr ⟨hsym, hrun⟩
  have hpower : s.power.toNat + s.opa.toNat ≤ 24 := (Nat.pow_le_pow_iff_right Nat.one_lt_two).mp (by omega)
  refine ⟨(s.runAdd s.opa.toNat).clearInverse, ?_, ?_, ?_, rfl⟩
  · rw [← State.symApply_of_run hc]
    exact exec_msym_symApply hfault hfavv heobf ((State.symFault_of_run hc).trans (if_neg (Nat.not_lt.mpr hfit)))
      (State.symOutside_of_run hc)
  · exact toNat_ofNat_of_le (m := 2 ^ 24) (by omega) (by decide)
  · exact toNat_ofNat_of_le (m := 25) (by omega) (by decide)

/-- Settles O25: BWT is the flushed run with the emitted byte behind it, and FAV the list moved to the front. -/
theorem msymEmitsLiteral : Obligations.MsymEmitsLiteral := by
  intro s hfault hfavv heobf h2 hlast hmax hcap hfit
  have hc := symClass_literal.mpr ⟨h2, hlast⟩
  have hlen := State.flush_bwtlen_toNat hcap (by omega)
  have hfav (j : Nat) : (s.flush.emitAndPromote s.opa.toNat).favAt j = s.favAt (promotedFrom s.opa.toNat j) :=
    s.flush.favAt_emitAndPromote (by omega) j
  have hbwt (i : Nat) (hi : i ≠ s.bwtlen.toNat + s.pend.toNat) :
      (s.flush.emitAndPromote s.opa.toNat).bwtAt i = s.flush.bwtAt i := by
    rw [s.flush.bwtAt_emitAndPromote, hlen, if_neg hi]
  refine ⟨(s.flush.emitAndPromote s.opa.toNat).clearInverse, ?_, fun i hi => ?_, ?_, fun i hi => ?_, ?_, ?_,
    fun j h1 hj => ?_, fun j hj => ?_, rfl⟩
  · rw [← State.symApply_of_literal hc]
    exact exec_msym_symApply hfault hfavv heobf
      ((State.symFault_of_literal hc).trans (if_neg (Nat.not_lt.mpr hfit))) (State.symOutside_of_literal hc (by omega))
  · exact (hbwt _ (by omega)).trans (State.bwtAt_flush_run hi)
  · exact (s.flush.bwtAt_emitAndPromote _ _).trans (if_pos hlen.symm)
  · exact (hbwt i (by omega)).trans (State.bwtAt_flush_outside (by omega))
  · rw [State.clearInverse_bwtlen, State.emitAndPromote_bwtlen, hlen]
    exact toNat_ofNat_of_le (m := 2 ^ 24) (by omega) (by decide)
  · exact (hfav 0).trans (congrArg s.favAt (if_pos rfl))
  · refine (hfav j).trans (congrArg s.favAt ?_)
    rw [promotedFrom, if_neg (by omega), if_pos hj]
  · refine (hfav j).trans (congrArg s.favAt ?_)
    rw [promotedFrom, if_neg (by omega), if_neg (by omega)]

/-- Settles O26: the end-of-block code flushes and emits nothing. -/
theorem msymEndsBlock : Obligations.MsymEndsBlock := by
  intro s hfault hfavv heobf h2 hlast hcap hfit
  have hc := symClass_endOfBlock.mpr ⟨h2, hlast⟩
  refine ⟨{ s.flush with eobf := true }.clearInverse, ?_, fun i hi => State.bwtAt_flush_run hi,
    fun i hi => State.bwtAt_flush_outside hi, State.flush_bwtlen_toNat hcap hfit, rfl⟩
  rw [← State.symApply_of_endOfBlock hc]
  exact exec_msym_symApply hfault hfavv heobf (State.symFault_of_endOfBlock hc) (State.symOutside_of_endOfBlock hc hfit)

/-- Settles O27: check (1), then the checks of `State.symFault` in their order. -/
theorem msymFaults : Obligations.MsymFaults := by
  intro s hfault
  refine ⟨exec_msym_sequence hfault, fun hfavv heobf hc => ?_, fun hfavv heobf hc hrun hfull => ?_,
    fun hfavv heobf h2 hlast hfull => ?_⟩
  · rw [exec_msym_symFault hfault hfavv heobf (State.symFault_of_notSymbol hc), BitVec.ofNat_toNat]
    rfl
  · exact exec_msym_symFault hfault hfavv heobf (State.symFault_of_overflow hc (.inl ⟨hrun, hfull⟩))
  · exact exec_msym_symFault hfault hfavv heobf
      (State.symFault_of_overflow (by omega) (.inr ⟨h2, hlast, hfull⟩))

end Sys2Proof.Machine
end

section
/-! SUPPORT. MSTEP (O28 to O30): which table the next symbol is decoded with, the outcome of every check of R126, and
the state a committed symbol leaves. -/

namespace Sys2Proof.Machine

/-! ## The counters -/

theorem State.chunkFull_iff (s : State) : s.chunkcnt.toNat = Config.chunk ↔ s.chunkcnt = 50 :=
  (BitVec.toNat_eq (x := s.chunkcnt) (y := 50)).symm

theorem State.nextSelector_eq (s : State) :
    s.nextSelector = if s.chunkcnt = 50 then s.selidx.toNat + 1 else s.selidx.toNat :=
  if_congr s.chunkFull_iff rfl rfl

theorem State.countSymbol_chunkcnt_eq (s : State) (i : Nat) :
    (s.countSymbol i).chunkcnt = if s.chunkcnt = 50 then 1 else s.chunkcnt + 1 := by
  rw [State.countSymbol_chunkcnt, if_congr s.chunkFull_iff rfl rfl]
  split
  · rfl
  · rw [BitVec.ofNat_add, BitVec.ofNat_toNat, BitVec.setWidth_eq]
    rfl

/-! ## Checks (1) to (5) of R126 -/

theorem State.groupCount_legal {s : State} (hmin : 2 ≤ s.ngroups.toNat) (hmax : s.ngroups.toNat ≤ 6) :
    ¬(s.ngroups.toNat < Config.ngroupsMin ∨ Config.ngroupsMax < s.ngroups.toNat) :=
  not_or.mpr ⟨Nat.not_lt.mpr hmin, Nat.not_lt.mpr hmax⟩

section checks

variable {s : State} (op : BitVec 8)

theorem State.mstepWith_sequence (h : s.favv = false ∨ s.eobf = true) :
    s.mstepWith op = .next (s.raise op .sequence 0) :=
  if_pos (by simpa using h)

variable (hfavv : s.favv = true) (heobf : s.eobf = false)
include hfavv heobf

theorem State.mstepWith_groupCount (h : s.ngroups.toNat < 2 ∨ 6 < s.ngroups.toNat) :
    s.mstepWith op = .next (s.raise op .invalidGroupCount (s.ngroups.setWidth 24)) := by
  rw [State.mstepWith, if_neg (by simp [hfavv, heobf])]
  exact dif_pos h

variable (hmin : 2 ≤ s.ngroups.toNat) (hmax : s.ngroups.toNat ≤ 6)
include hmin hmax

theorem State.mstepWith_missingEnd (h : s.nsel.toNat ≤ s.nextSelector) :
    s.mstepWith op = .next (s.raise op .missingEndSymbol (BitVec.ofNat 24 s.nextSelector)) := by
  rw [State.mstepWith, if_neg (by simp [hfavv, heobf]), dif_neg (State.groupCount_legal hmin hmax),
    if_pos h]

theorem State.mstepWith_invalidSelector (hsel : s.nextSelector < s.nsel.toNat)
    (h : s.ngroups.toNat ≤ (s.selAt s.nextSelector).toNat) :
    s.mstepWith op = .next (s.raise op .invalidSelector (BitVec.ofNat 24 s.nextSelector)) := by
  rw [State.mstepWith, if_neg (by simp [hfavv, heobf]), dif_neg (State.groupCount_legal hmin hmax),
    if_neg (Nat.not_le.mpr hsel), dif_pos h]

end checks

/-- Checks (1) to (4) of R126 pass, and the next symbol belongs to table `g`. -/
structure State.SelectsTable (s : State) (g : Fin 6) : Prop where
  favv : s.favv = true
  eobf : s.eobf = false
  minGroups : 2 ≤ s.ngroups.toNat
  maxGroups : s.ngroups.toNat ≤ 6
  selector : s.nextSelector < s.nsel.toNat
  group : g.val = (s.selAt s.nextSelector).toNat
  legal : g.val < s.ngroups.toNat

section selected

variable {s : State} {g : Fin 6} (hs : s.SelectsTable g) (op : BitVec 8)
include hs

theorem State.SelectsTable.mstepWith : s.mstepWith op =
    if !s.tblv[g] then .next (s.raise op .sequence 0) else s.decodeAndProcess op g s.nextSelector := by
  obtain ⟨n, hn⟩ := g
  obtain ⟨hfavv, heobf, hmin, hmax, hsel, rfl, hlegal⟩ := hs
  rw [State.mstepWith, if_neg (by simp [hfavv, heobf]), dif_neg (State.groupCount_legal hmin hmax),
    if_neg (Nat.not_le.mpr hsel), dif_neg (Nat.not_le.mpr hlegal)]

theorem State.SelectsTable.mstepWith_unbuilt (htblv : s.tblv[g] = false) :
    s.mstepWith op = .next (s.raise op .sequence 0) := by
  rw [hs.mstepWith, htblv]
  rfl

variable (htblv : s.tblv[g] = true)
include htblv

theorem State.SelectsTable.mstepWith_built : s.mstepWith op = s.decodeAndProcess op g s.nextSelector := by
  rw [hs.mstepWith, htblv]
  rfl

/-! ## Checks (6) to (8) and the operation -/

theorem State.SelectsTable.mstepWith_miss (hlookup : s.lookup g (s.peek 24) = .miss) :
    s.mstepWith op = .next (s.raise op .invalidCode (BitVec.ofNat 24 (s.peek 24))) := by
  rw [hs.mstepWith_built op htblv, State.decodeAndProcess, Config.window, hlookup]

variable {l sym : Nat} (hlookup : s.lookup g (s.peek 24) = .hit l sym)
include hlookup

theorem State.SelectsTable.mstepWith_short (hshort : s.limit.toNat < s.pos.toNat + l) :
    s.mstepWith op = .next (s.raise op .truncation (BitVec.ofNat 24 l)) := by
  rw [hs.mstepWith_built op htblv, State.decodeAndProcess, Config.window, hlookup]
  exact if_pos hshort

variable (henough : s.pos.toNat + l ≤ s.limit.toNat)
include henough

theorem State.SelectsTable.mstepWith_symFault {k : FaultKind} {d : BitVec 24} (hf : s.symFault sym = some (k, d)) :
    s.mstepWith op = .next (s.raise op k d) := by
  rw [hs.mstepWith_built op htblv, State.decodeAndProcess, Config.window, hlookup]
  dsimp only
  rw [if_neg (Nat.not_lt.mpr henough), hf]

theorem State.SelectsTable.mstepWith_commit (hf : s.symFault sym = none) (ho : s.symOutside sym = none) :
    s.mstepWith op = .next (s.commitStep s.nextSelector l sym) := by
  rw [hs.mstepWith_built op htblv, State.decodeAndProcess, Config.window, hlookup]
  dsimp only
  rw [if_neg (Nat.not_lt.mpr henough), hf, ho]
  rfl

end selected

/-! ## What the commands leave -/

theorem exec_mstep_running {s : State} (hfault : s.fault = false) : exec .mstep s = s.mstepWith 0x32 :=
  whenRunning_running hfault _

/-- The state MSTEP hands to MSYM's operation (R126): cursor, selector position and result. -/
def State.beforeSymbol (s : State) (i l sym : Nat) : State :=
  ((s.setPos (s.pos.toNat + l)).countSymbol i).setResult sym l

theorem State.commitStep_eq (s : State) (i l sym : Nat) :
    s.commitStep i l sym = (s.beforeSymbol i l sym).symApply sym :=
  rfl

/-- Settles O28: every register MSTEP writes before MSYM's operation has room for its number. -/
theorem mstepCommitsOneSymbol : Obligations.MstepCommitsOneSymbol := by
  intro s i l sym g hfault hfavv heobf hmin hmax hi hsel hg hlegal htblv hlookup henough hf ho
  obtain rfl := hi.trans s.nextSelector_eq.symm
  have hs : s.SelectsTable g := ⟨hfavv, heobf, hmin, hmax, hsel, hg, hlegal⟩
  obtain ⟨hl, hsym⟩ := State.lookup_hit_lt hlookup
  exact ⟨s.beforeSymbol s.nextSelector l sym,
    (exec_mstep_running hfault).trans (hs.mstepWith_commit 0x32 htblv hlookup henough hf ho),
    toNat_ofNat_of_le henough s.limit.isLt, toNat_ofNat_of_le hsel.le s.nsel.isLt,
    State.countSymbol_chunkcnt_eq s s.nextSelector, toNat_ofNat_of_le le_rfl hsym, toNat_ofNat_of_le le_rfl hl, rfl⟩

/-- Settles O29: the checks of R126 in their order. -/
theorem mstepFaults : Obligations.MstepFaults := by
  intro s i hfault hi
  obtain rfl := hi.trans s.nextSelector_eq.symm
  rw [exec_mstep_running hfault]
  refine ⟨State.mstepWith_sequence 0x32, fun hfavv heobf => ⟨State.mstepWith_groupCount 0x32 hfavv heobf,
    fun hmin hmax => ⟨State.mstepWith_missingEnd 0x32 hfavv heobf hmin hmax,
      State.mstepWith_invalidSelector 0x32 hfavv heobf hmin hmax, fun g hsel hg hlegal => ?_⟩⟩⟩
  have hs : s.SelectsTable g := ⟨hfavv, heobf, hmin, hmax, hsel, hg, hlegal⟩
  exact ⟨hs.mstepWith_unbuilt 0x32, hs.mstepWith_miss 0x32, fun l sym htblv hlookup =>
    ⟨hs.mstepWith_short 0x32 htblv hlookup, fun henough hsym hfull =>
      hs.mstepWith_symFault 0x32 htblv hlookup henough (State.symFault_of_overflow hsym hfull)⟩⟩

/-! ## MSTEP as HDEC and MSYM (R128(g)) -/

/-- HDEC that completes without a fault decoded a symbol that lies within LIMIT (R105). -/
theorem exec_hdec_completed {s u : State} {g : BitVec 3} {k : Fin 6} (hk : k.val = g.toNat) (hfault : s.fault = false)
    (htblv : s.tblv[k] = true) (h : exec (.hdec g) s = .next u) (hu : u.fault = false) :
    ∃ l sym, s.lookup k (s.peek 24) = .hit l sym ∧ s.pos.toNat + l ≤ s.limit.toNat ∧
      u = (s.setPos (s.pos.toNat + l)).setResult sym l := by
  cases hlookup : s.lookup k (s.peek 24) with
  | miss =>
    rw [exec_hdec_miss hk hfault htblv hlookup] at h
    injection h with h
    simp [← h] at hu
  | outside m i =>
    change execHdec g s = _ at h
    rw [execHdec, whenRunning_withGroup hk hfault, htblv, Config.window, hlookup] at h
    cases h
  | hit l sym =>
    rw [exec_hdec_hit hk hfault htblv hlookup] at h
    split at h
    · injection h with h
      simp [← h] at hu
    · rename_i henough
      injection h with h
      exact ⟨l, sym, rfl, Nat.not_lt.mp henough, h.symm⟩

/-- MSYM that completes without a fault passed every check (R122). -/
theorem exec_msym_completed {s t : State} (hfault : s.fault = false) (h : exec .msym s = .next t)
    (ht : t.fault = false) :
    s.symFault s.opa.toNat = none ∧ s.symOutside s.opa.toNat = none ∧ t = s.symApply s.opa.toNat := by
  obtain ⟨hf, -⟩ | ⟨-, h⟩ := whenRunning_next h
  · simp [hfault] at hf
  rw [State.opaSymbol] at h
  split at h
  · injection h with h
    simp [← h] at ht
  · split at h
    · injection h with h
      simp [← h] at ht
    · rename_i hf
      split at h
      · cases h
      · rename_i ho
        injection h with h
        exact ⟨hf, ho, h.symm⟩

/-- MSYM's operation neither reads nor writes OPA, SELIDX and CHUNKCNT. -/
theorem State.symApply_with_opa_counters (s : State) (a : BitVec 32) (i : BitVec 15) (n : BitVec 6) (c : Nat) :
    { s with opa := a, selidx := i, chunkcnt := n }.symApply c =
      { s.symApply c with opa := a, selidx := i, chunkcnt := n } := by
  unfold State.symApply
  dsimp only
  cases symClass s.symused.toNat c <;> rfl

/-- Settles O30: MSTEP commits what HDEC and MSYM's operation leave, with the symbol counted. -/
theorem mstepIsHdecThenMsym : Obligations.MstepIsHdecThenMsym := by
  intro s u v i g k hk hfault hfavv heobf hmin hmax hi hsel hg hlegal htblv hhdec hu hmsym hv
  obtain rfl := hi.trans s.nextSelector_eq.symm
  have hs : s.SelectsTable k := ⟨hfavv, heobf, hmin, hmax, hsel, by rw [hk, hg], hk ▸ hlegal⟩
  obtain ⟨l, sym, hlookup, henough, rfl⟩ := exec_hdec_completed hk hfault htblv hhdec hu
  obtain ⟨hf, ho, rfl⟩ := exec_msym_completed (by exact hu) hmsym hv
  have hsym : (BitVec.ofNat 32 sym).toNat = sym := toNat_ofNat_of_le le_rfl (State.lookup_hit_lt hlookup).2
  dsimp only [State.setResult_res0] at hf ho ⊢
  rw [hsym] at hf ho ⊢
  rw [exec_mstep_running hfault, hs.mstepWith_commit 0x32 htblv hlookup henough hf ho, State.commitStep_eq,
    ← State.countSymbol_chunkcnt_eq s s.nextSelector, ← State.symApply_with_opa_counters]
  rfl

end Sys2Proof.Machine
end

section
/-! SUPPORT. MBLOCK (O31 to O33) as the repetition of MSTEP: a count of the MSTEPs still possible shows that any number
of rounds above it gives the same result (R127). -/

namespace Sys2Proof.Machine

/-! ## The rounds that are left -/

/-- How many more MSTEPs can complete. A CHUNKCNT above 50, which R24 rules out, first runs through to 0. -/
def State.roundsLeft (s : State) : Nat :=
  50 * (s.nsel.toNat - s.selidx.toNat) + (if s.chunkcnt.toNat ≤ 50 then 0 else 64) - s.chunkcnt.toNat

theorem State.roundsLeft_lt (s : State) : s.roundsLeft < 50 * s.nsel.toNat + 64 := by
  unfold State.roundsLeft
  split <;> omega

/-- A committed MSTEP uses one round up. -/
theorem State.commitStep_roundsLeft {s : State} (hsel : s.nextSelector < s.nsel.toNat) (l sym : Nat) :
    (s.commitStep s.nextSelector l sym).roundsLeft < s.roundsLeft := by
  obtain ⟨hselidx, hchunkcnt, hnsel⟩ := s.commitStep_counters s.nextSelector l sym
  have hindex : (s.countSymbol s.nextSelector).selidx.toNat = s.nextSelector := toNat_ofNat_of_le hsel.le s.nsel.isLt
  have hchunk : s.chunkcnt.toNat < 64 := s.chunkcnt.isLt
  rw [State.roundsLeft, State.roundsLeft, hselidx, hchunkcnt, hnsel, hindex, State.countSymbol_chunkcnt,
    BitVec.toNat_ofNat, Config.chunk]
  rw [State.nextSelector, Config.chunk] at hsel ⊢
  split_ifs at hsel ⊢ <;> omega

/-- An MSTEP raises a fault or uses one of the rounds up. -/
theorem State.mstepWith_roundsLeft {s t : State} {op : BitVec 8} (h : s.mstepWith op = .next t) :
    t.fault = true ∨ (t.nsel = s.nsel ∧ t.roundsLeft < s.roundsLeft) := by
  rcases State.mstepWith_next h with ⟨k, d, rfl, -⟩ | ⟨-, -, -, -, hsel, -, g, l, sym, -, -, -, -, -, -, rfl⟩
  · exact .inl rfl
  · exact .inr ⟨(s.commitStep_counters _ l sym).2.2, State.commitStep_roundsLeft hsel l sym⟩

/-- MBLOCK as the repetition of MSTEP (R127), given more rounds than are left. -/
theorem mblockLoop_eq_of_roundsLeft_lt (op : BitVec 8) : ∀ {k m : Nat} {s : State}, s.roundsLeft < k →
    s.roundsLeft < m → mblockLoop op k s = mblockLoop op m s
  | 0, _, _, hk, _ => absurd hk (Nat.not_lt_zero _)
  | _ + 1, 0, _, _, hm => absurd hm (Nat.not_lt_zero _)
  | k + 1, m + 1, s, hk, hm => by
    rw [mblockLoop_succ, mblockLoop_succ]
    cases hstep : s.mstepWith op with
    | fault | refused => rfl
    | next t =>
      by_cases hends : (t.eobf || t.fault) = true
      · exact (if_pos hends).trans (if_pos hends).symm
      · rcases State.mstepWith_roundsLeft hstep with hfault | ⟨-, hrounds⟩
        · simp [hfault] at hends
        · exact ((if_neg hends).trans (mblockLoop_eq_of_roundsLeft_lt op (by omega) (by omega))).trans
            (if_neg hends).symm

/-! ## MBLOCK and MSTEP -/

theorem exec_mblock_running {s : State} (hfault : s.fault = false) :
    exec .mblock s = mblockLoop 0x33 (50 * s.nsel.toNat + 64) s :=
  whenRunning_running hfault _

/-- MBLOCK after its first MSTEP: it stops at the end-of-block code and at a fault, and else begins again. -/
theorem exec_mblock_of_mstepWith {s t : State} (hfault : s.fault = false) (h : s.mstepWith 0x33 = .next t) :
    exec .mblock s = if t.eobf || t.fault then .next t else exec .mblock t := by
  rw [exec_mblock_running hfault, mblockLoop_succ, h]
  by_cases hends : (t.eobf || t.fault) = true
  · exact (if_pos hends).trans (if_pos hends).symm
  · have hrunning : t.fault = false := (Bool.or_eq_false_iff.mp (Bool.eq_false_of_not_eq_true hends)).2
    rcases State.mstepWith_roundsLeft h with hfault | ⟨hnsel, hrounds⟩
    · simp [hfault] at hends
    · have hleft := s.roundsLeft_lt
      refine ((if_neg hends).trans ?_).trans (if_neg hends).symm
      rw [exec_mblock_running hrunning, hnsel]
      exact mblockLoop_eq_of_roundsLeft_lt 0x33 (by omega) (by omega)

theorem exec_mblock_of_mstepWith_fault {s : State} {f : Fault} (hfault : s.fault = false)
    (h : s.mstepWith 0x33 = .fault f) : exec .mblock s = .fault f := by
  rw [exec_mblock_running hfault, mblockLoop_succ, h]
  rfl

/-- The same fault record under another opcode byte (R16). -/
theorem State.raise_opcode (s : State) (op op' : BitVec 8) (k : FaultKind) (d : BitVec 24) :
    s.raise op' k d = { s.raise op k d with errinfo := op' ++ (s.raise op k d).errinfo.extractLsb' 0 24 } := by
  have hdetail : (s.raise op k d).errinfo.extractLsb' 0 24 = d := argField_append op d
  rw [hdetail]
  rfl

/-- Settles O32: MSTEP's outcome differs between the two commands in the opcode byte of a fault record only. -/
theorem mblockContinuesAfterMstep : Obligations.MblockContinuesAfterMstep := by
  intro s hfault
  rw [exec_mstep_running hfault]
  rcases s.mstepWith_shape with ⟨k, d, hraise⟩ | ⟨u, hu, hcommit⟩ | ⟨f, hstop⟩
  · rw [hraise]
    refine ⟨?_, by simp⟩
    rintro t ⟨⟩
    refine ⟨by simp, by simp, fun _ => ?_⟩
    rw [← State.raise_opcode]
    exact (exec_mblock_of_mstepWith hfault (hraise 0x33)).trans (if_pos (by simp))
  · rw [hcommit]
    refine ⟨?_, by simp⟩
    rintro t ⟨⟩
    rw [exec_mblock_of_mstepWith hfault (hcommit 0x33), hu, hfault]
    exact ⟨fun _ heobf => if_neg (by simp [heobf]), fun _ heobf => if_pos (by simp [heobf]), by simp⟩
  · rw [hstop]
    refine ⟨by simp, ?_⟩
    rintro f' ⟨⟩
    exact exec_mblock_of_mstepWith_fault hfault (hstop 0x33)

/-! ## MBLOCK ends -/

/-- MSTEP stops the machine only where an index names no element (log entry 9). -/
theorem State.decodeAndProcess_ne_blockRunsOn (s : State) (op : BitVec 8) (g : Fin 6) (i : Nat) :
    s.decodeAndProcess op g i ≠ .fault .blockRunsOn := by
  unfold State.decodeAndProcess
  split
  · simp
  · simp
  · split
    · simp
    · split
      · simp
      · split <;> simp

theorem State.mstepWith_ne_blockRunsOn (s : State) (op : BitVec 8) : s.mstepWith op ≠ .fault .blockRunsOn := by
  unfold State.mstepWith
  split
  · simp
  · split
    · simp
    · split
      · simp
      · split
        · simp
        · dsimp only
          split
          · simp
          · exact s.decodeAndProcess_ne_blockRunsOn op _ _

theorem mblockLoop_ne_blockRunsOn (op : BitVec 8) : ∀ {k : Nat} {s : State}, s.roundsLeft < k →
    mblockLoop op k s ≠ .fault .blockRunsOn
  | 0, _, hk => absurd hk (Nat.not_lt_zero _)
  | k + 1, s, hk => by
    rw [mblockLoop_succ, Ne, andThen_fault]
    rintro (hstop | ⟨t, hstep, hloop⟩)
    · exact s.mstepWith_ne_blockRunsOn op hstop
    · split at hloop
      · cases hloop
      · rename_i hgoes
        rcases State.mstepWith_roundsLeft hstep with hfault | ⟨-, hrounds⟩
        · simp [hfault] at hgoes
        · exact mblockLoop_ne_blockRunsOn op (by omega) hloop

/-- Settles O33: the model's rounds are more than are ever left. -/
theorem mblockAlwaysTerminates : Obligations.MblockAlwaysTerminates := by
  refine fun s => ⟨fun hstop => ?_, fun t hfault hnext => ?_⟩
  · exact mblockLoop_ne_blockRunsOn _ s.roundsLeft_lt (whenRunning_fault hstop).2
  · rw [exec_mblock_running hfault] at hnext
    exact Bool.or_eq_true_iff.mp (mblockLoop_ends hnext)

/-- Settles O31: the first MSTEP ends the block, so MBLOCK leaves what MSYM's flush does. -/
theorem mblockStopsAtEndOfBlock : Obligations.MblockStopsAtEndOfBlock := by
  intro s i l sym g hfault hfavv heobf hmin hmax hi hsel hg hlegal htblv hlookup henough h2 hlast hcap hfit
  obtain rfl := hi.trans s.nextSelector_eq.symm
  have hs : s.SelectsTable g := ⟨hfavv, heobf, hmin, hmax, hsel, hg, hlegal⟩
  obtain ⟨hl, hsym⟩ := State.lookup_hit_lt hlookup
  have hc := symClass_endOfBlock.mpr ⟨h2, hlast⟩
  have hstep := hs.mstepWith_commit 0x33 htblv hlookup henough (State.symFault_of_endOfBlock hc)
    (State.symOutside_of_endOfBlock hc hfit)
  rw [State.commitStep_eq, State.symApply_of_endOfBlock (s := s.beforeSymbol s.nextSelector l sym) hc] at hstep
  exact ⟨_, (exec_mblock_of_mstepWith hfault hstep).trans (if_pos rfl), toNat_ofNat_of_le henough s.limit.isLt,
    toNat_ofNat_of_le le_rfl hsym, toNat_ofNat_of_le le_rfl hl,
    State.flush_bwtlen_toNat (s := s.beforeSymbol s.nextSelector l sym) hcap hfit,
    toNat_ofNat_of_le hsel.le s.nsel.isLt, State.countSymbol_chunkcnt_eq s s.nextSelector,
    fun j hj => State.bwtAt_flush_run (s := s.beforeSymbol s.nextSelector l sym) hj,
    fun j hj => State.bwtAt_flush_outside (s := s.beforeSymbol s.nextSelector l sym) hj, rfl⟩

end Sys2Proof.Machine
end

section
/-! SUPPORT. The LF unit (O34 to O40): the order of (BWT[i], i) that LMAP sorts by (R141), the pointer of the walk
(R142), and LINV as its three phases (R143). -/

namespace Sys2Proof.Machine

/-! ## Bytes below a value, and the place of an index -/

theorem State.bytesBelow_eq (s : State) (b : Nat) : s.bytesBelow b = countBelow s.bwtBytes b := by
  rw [countBelow, State.bwtBytes, List.countP_map]
  rfl

theorem State.bytesBelow_succ (s : State) (b : Nat) : s.bytesBelow (b + 1) =
    s.bytesBelow b + (List.range s.bwtlen.toNat).countP (fun i => decide ((s.bwtAt i).toNat = b)) := by
  rw [s.bytesBelow_eq, s.bytesBelow_eq, s.countBelow_bwtBytes_succ]

theorem State.bytesBelow_mono (s : State) {b c : Nat} (h : b ≤ c) : s.bytesBelow b ≤ s.bytesBelow c :=
  List.countP_mono_left fun _ _ hlt => decide_eq_true ((of_decide_eq_true hlt).trans_le h)

theorem State.bytesBelow_le (s : State) (b : Nat) : s.bytesBelow b ≤ s.bwtlen.toNat :=
  List.countP_le_length.trans_eq List.length_range

theorem State.bytesBelow_congr {s t : State} (hbwt : ∀ i, i < s.bwtlen.toNat → t.bwtAt i = s.bwtAt i)
    (hlen : t.bwtlen = s.bwtlen) (b : Nat) : t.bytesBelow b = s.bytesBelow b := by
  rw [State.bytesBelow, State.bytesBelow, hlen]
  exact List.countP_congr fun i hi => by rw [hbwt i (List.mem_range.mp hi)]

theorem State.sortedPlace_congr {s t : State} (hbwt : ∀ i, i < s.bwtlen.toNat → t.bwtAt i = s.bwtAt i)
    (hlen : t.bwtlen = s.bwtlen) {i : Nat} (hi : i < s.bwtlen.toNat) : t.sortedPlace i = s.sortedPlace i := by
  rw [State.sortedPlace, State.sortedPlace, State.bytesBelow_congr hbwt hlen, hbwt i hi]
  congr 1
  exact List.countP_congr fun j hj => by rw [hbwt j ((List.mem_range.mp hj).trans hi)]

/-- The bucket of an index begins after the smaller bytes, and the index stands after the equal bytes before it. -/
theorem State.sortedPlace_eq (s : State) (i : Nat) : s.sortedPlace i = s.bytesBelow (s.bwtAt i).toNat +
    (List.range i).countP (fun j => decide ((s.bwtAt j).toNat = (s.bwtAt i).toNat)) := by
  rw [State.sortedPlace]
  congr 1
  exact List.countP_congr fun j _ => by simp [BitVec.toNat_inj]

theorem exists_range_eq_append_cons {i n : Nat} (h : i < n) : ∃ l, List.range n = List.range i ++ i :: l := by
  obtain ⟨m, rfl⟩ := Nat.exists_eq_add_of_lt h
  exact ⟨_, by rw [Nat.add_assoc, List.range_add, List.range_succ_eq_map, List.map_cons, Nat.add_zero]⟩

/-- The place of an index lies inside the bucket of its byte. -/
theorem State.sortedPlace_lt_bytesBelow_succ {s : State} {i : Nat} (hi : i < s.bwtlen.toNat) :
    s.sortedPlace i < s.bytesBelow ((s.bwtAt i).toNat + 1) := by
  obtain ⟨l, hl⟩ := exists_range_eq_append_cons hi
  rw [s.sortedPlace_eq, s.bytesBelow_succ, hl, List.countP_append, List.countP_cons_of_pos (by simp)]
  omega

theorem State.sortedPlace_lt {s : State} {i : Nat} (hi : i < s.bwtlen.toNat) : s.sortedPlace i < s.bwtlen.toNat :=
  (State.sortedPlace_lt_bytesBelow_succ hi).trans_le (s.bytesBelow_le _)

/-- A map that holds every index at its place holds at every place the index that belongs there (R144(a)): a left
inverse of a function from a finite set to itself is a right inverse. -/
theorem State.sortedPlace_lfAt {s t : State}
    (hsorted : ∀ i, i < s.bwtlen.toNat → (t.lfAt (s.sortedPlace i)).toNat = i) {j : Nat} (hj : j < s.bwtlen.toNat) :
    (t.lfAt j).toNat < s.bwtlen.toNat ∧ s.sortedPlace (t.lfAt j).toNat = j := by
  have hinj : Set.InjOn s.sortedPlace (Finset.range s.bwtlen.toNat) :=
    Set.LeftInvOn.injOn (f₁' := fun j => (t.lfAt j).toNat) fun i hi => hsorted i (Finset.mem_range.mp hi)
  obtain ⟨i, hi, rfl⟩ := Finset.surjOn_of_injOn_of_card_le s.sortedPlace
    (fun i hi => Finset.mem_coe.mpr (Finset.mem_range.mpr (State.sortedPlace_lt (Finset.mem_range.mp hi)))) hinj le_rfl
    (Finset.mem_coe.mpr (Finset.mem_range.mpr hj))
  rw [hsorted i (Finset.mem_range.mp hi)]
  exact ⟨Finset.mem_range.mp hi, rfl⟩

/-! ## LCOUNT -/

/-- Settles O34: LCOUNT's sums are the numbers of smaller bytes. -/
theorem lcountSetsBases : Obligations.LcountSetsBases := by
  intro s hfault hfit _
  have hexec : exec .lcount s = .next s.countBuffer :=
    (whenRunning_running hfault _).trans (if_neg (Nat.not_lt.mpr hfit))
  exact ⟨s.countBuffer, hexec, fun b hb => (s.countBuffer_baseAt hb).trans (s.bytesBelow_eq b).symm, rfl⟩

/-! ## LMAP's loop -/

theorem lmapLoop_append {js : List Nat} {t : State} : ∀ {is : List Nat} {s : State}, lmapLoop (is ++ js) s = some t →
    ∃ u, lmapLoop is s = some u ∧ lmapLoop js u = some t
  | [], s, h => ⟨s, rfl, h⟩
  | i :: is, s, h => by
    obtain ⟨hlt, h⟩ := lmapLoop_cons h
    obtain ⟨u, hu, hj⟩ := lmapLoop_append h
    exact ⟨u, (if_pos hlt).trans hu, hj⟩

/-- The loop leaves every place alone that no bucket's cursor passes. -/
theorem lmapLoop_lfAt_outside {k : Nat} : ∀ {is : List Nat} {s t : State}, lmapLoop is s = some t →
    s.bwtCap ≤ 2 ^ 24 → (∀ b, b < 256 → k < (s.baseAt b).toNat ∨ (t.baseAt b).toNat ≤ k) → t.lfAt k = s.lfAt k
  | [], s, t, h, _, _ => by
    injection h with h
    rw [h]
  | i :: is, s, t, h, hcap, hout => by
    have hpassed := lmapLoop_baseAt h hcap (s.bwtAt i).toNat
    rw [List.countP_cons_of_pos (by simp)] at hpassed
    obtain ⟨hlt, h⟩ := lmapLoop_cons h
    have hk : k ≠ (s.baseAt (s.bwtAt i).toNat).toNat := by
      have := hout _ (s.bwtAt i).isLt
      omega
    rw [lmapLoop_lfAt_outside h hcap, State.placeIndex_lfAt, if_neg hk]
    intro b hb
    rw [State.placeIndex_cursor hcap hlt]
    exact (hout b hb).imp_left fun h => by omega

/-- From counted bases every bucket has exactly the room its bytes need (R140, R141). -/
theorem lmapLoop_isSome_of_bases (hfit : s.bwtlen.toNat ≤ s.bwtCap) (hcap : s.bwtCap ≤ 2 ^ 24)
    (hbases : ∀ b, b < 256 → (s.baseAt b).toNat = s.bytesBelow b) :
    ∃ t, lmapLoop (List.range s.bwtlen.toNat) s = some t := by
  refine lmapLoop_isSome hcap fun b hb => ?_
  rw [hbases b hb, ← s.bytesBelow_succ]
  exact (s.bytesBelow_le _).trans hfit

section counted

variable {s t : State} (hcap : s.bwtCap ≤ 2 ^ 24) (hbases : ∀ b, b < 256 → (s.baseAt b).toNat = s.bytesBelow b)
  (h : lmapLoop (List.range s.bwtlen.toNat) s = some t)
include hcap hbases h

/-- The cursors end at the inclusive sums. -/
theorem lmapLoop_baseAt_of_bases {b : Nat} (hb : b < 256) : (t.baseAt b).toNat = s.bytesBelow (b + 1) := by
  rw [lmapLoop_baseAt h hcap b, hbases b hb, s.bytesBelow_succ]

theorem lmapLoop_lfAt_beyond {j : Nat} (hj : s.bwtlen.toNat ≤ j) : t.lfAt j = s.lfAt j :=
  lmapLoop_lfAt_outside h hcap fun _ hb =>
    .inr ((lmapLoop_baseAt_of_bases hcap hbases h hb).trans_le ((s.bytesBelow_le _).trans hj))

/-- Index `i` goes to its place, where its bucket's cursor then stands, and no later index goes there: the smaller
buckets end before it, its own cursor has passed it, and the greater buckets begin after it. -/
theorem lmapLoop_lfAt_sortedPlace (hfit : s.bwtlen.toNat ≤ s.bwtCap) {i : Nat} (hi : i < s.bwtlen.toNat) :
    (t.lfAt (s.sortedPlace i)).toNat = i := by
  obtain ⟨l, hl⟩ := exists_range_eq_append_cons hi
  have hsplit := h
  rw [hl] at hsplit
  obtain ⟨u, hu, hsuffix⟩ := lmapLoop_append hsplit
  obtain ⟨hlt, hrest⟩ := lmapLoop_cons hsuffix
  have hframe := lmapLoop_frame hu
  have hucap : u.bwtCap ≤ 2 ^ 24 := by rwa [hframe]
  have hbyte : u.bwtAt i = s.bwtAt i := by rw [hframe]; rfl
  have hplace : (u.baseAt (u.bwtAt i).toNat).toNat = s.sortedPlace i := by
    rw [hbyte, lmapLoop_baseAt hu hcap, hbases _ (s.bwtAt i).isLt, s.sortedPlace_eq]
  have hkept := lmapLoop_lfAt_outside (k := s.sortedPlace i) hrest hucap fun b hb => by
    rw [State.placeIndex_cursor hucap hlt, lmapLoop_baseAt_of_bases hcap hbases h hb, hbyte]
    rcases Nat.lt_trichotomy b (s.bwtAt i).toNat with hb' | rfl | hb'
    · exact .inr ((s.bytesBelow_mono hb').trans (s.sortedPlace_eq i ▸ Nat.le_add_right _ _))
    · left
      rw [← hbyte, hplace, if_pos rfl]
      exact Nat.lt_succ_self _
    · left
      have hstart := lmapLoop_baseAt hu hcap b
      have hinside := (State.sortedPlace_lt_bytesBelow_succ hi).trans_le (s.bytesBelow_mono hb')
      rw [hbases b hb] at hstart
      omega
  rw [hkept, State.placeIndex_lfAt, if_pos hplace.symm]
  exact (BitVec.toNat_ofNat i 24).trans (Nat.mod_eq_of_lt (hi.trans_le (hfit.trans hcap)))

end counted

/-! ## LMAP -/

theorem exec_lmap_counted {s : State} (hfault : s.fault = false) (hcntv : s.cntv = true) :
    exec .lmap s = s.lmapBody :=
  (whenRunning_running hfault _).trans (if_neg (by simp [hcntv]))

theorem State.lmapBody_of_loop {s u : State} (hfit : s.bwtlen.toNat ≤ s.bwtCap)
    (hu : lmapLoop (List.range s.bwtlen.toNat) s = some u) : s.lmapBody = .next u.markMapped := by
  rw [State.lmapBody, if_neg (Nat.not_lt.mpr hfit), hu]

/-- Settles O35: from counted bases each index goes to its place. -/
theorem lmapSortsIndices : Obligations.LmapSortsIndices := by
  intro s hfault hcntv hfit hcap hbases
  obtain ⟨u, hu⟩ := lmapLoop_isSome_of_bases hfit hcap hbases
  refine ⟨u.markMapped, (exec_lmap_counted hfault hcntv).trans (State.lmapBody_of_loop hfit hu),
    fun i hi => lmapLoop_lfAt_sortedPlace hcap hbases hu hfit hi,
    fun j hj => lmapLoop_lfAt_beyond hcap hbases hu hj, fun b hb => lmapLoop_baseAt_of_bases hcap hbases hu hb, ?_⟩
  rw [lmapLoop_frame hu]
  rfl

/-! ## The walk -/

theorem State.pointerAfter_lt {s : State} {n : Nat} (horigin : s.origin.toNat < n)
    (hlf : ∀ j, j < n → (s.lfAt j).toNat < n) : ∀ k, s.pointerAfter k < n
  | 0 => horigin
  | k + 1 => hlf _ (State.pointerAfter_lt horigin hlf k)

theorem State.pointerAfter_lt_two_pow (s : State) : ∀ k, s.pointerAfter k < 2 ^ 24
  | 0 => s.origin.isLt
  | k + 1 => (s.lfAt (s.pointerAfter k)).isLt

/-- Two maps of the buffer into itself that agree on it give the same walk. -/
theorem State.pointerAfter_congr {s t : State} {n : Nat} (horigin : t.origin = s.origin) (hlt : s.origin.toNat < n)
    (hin : ∀ j, j < n → (s.lfAt j).toNat < n) (hlf : ∀ j, j < n → t.lfAt j = s.lfAt j) :
    ∀ k, t.pointerAfter k = s.pointerAfter k
  | 0 => congrArg BitVec.toNat horigin
  | k + 1 => by
    rw [State.pointerAfter, State.pointerAfter, State.pointerAfter_congr horigin hlt hin hlf k,
      hlf _ (State.pointerAfter_lt hlt hin k)]

/-- The walk from the pointer after `m` steps emits the bytes at the next `k` pointers. -/
theorem State.walk_pointerAfter {s : State} (hin : ∀ j, s.pointerAfter j < s.bwtCap) : ∀ k m,
    s.walk k (s.pointerAfter m) =
      some (s.pointerAfter (m + k), (List.range' (m + 1) k).map fun j => s.bwtAt (s.pointerAfter j))
  | 0, m => rfl
  | k + 1, m => by
    have hstep : (s.lfAt (s.pointerAfter m)).toNat = s.pointerAfter (m + 1) := rfl
    rw [State.walk, hstep, if_pos (hin _), State.walk_pointerAfter hin k (m + 1), Nat.add_right_comm, Nat.add_assoc]
    rfl

theorem State.setOutput_outAt (s : State) (e : Nat) (bs : List Byte) (k : Nat) : (s.setOutput e bs).outAt k =
    if h : k < bs.length then bs[k] else s.outAt k := by
  change s.elem .out (s.out.splice 0 bs) k = _
  simp only [State.elem_splice, Nat.zero_le, true_and, Nat.zero_add, Nat.sub_zero]
  rfl

theorem exec_lwalk_mapped {s : State} (hfault : s.fault = false) (hlfv : s.lfv = true)
    (horigin : s.origin.toNat < s.bwtlen.toNat) : exec .lwalk s = s.lwalkBody :=
  (whenRunning_running hfault _).trans ((if_neg (by simp [hlfv])).trans (if_neg (Nat.not_le.mpr horigin)))

theorem State.lwalkBody_of_walk {s : State} {e : Nat} {bs : List Byte} (hfit : s.bwtlen.toNat ≤ s.bwtCap)
    (hwalk : s.walk s.bwtlen.toNat s.origin.toNat = some (e, bs)) : s.lwalkBody = .next (s.setOutput e bs) := by
  rw [State.lwalkBody, if_neg (Nat.not_lt.mpr hfit), hwalk]

/-- Settles O37: no pointer leaves the buffer, so the walk emits the byte at each. -/
theorem lwalkWalksFromOrigin : Obligations.LwalkWalksFromOrigin := by
  intro s hfault hlfv horigin hfit hlf
  have hin (k : Nat) : s.pointerAfter k < s.bwtCap := (State.pointerAfter_lt horigin hlf k).trans_le hfit
  have hwalk := State.walk_pointerAfter hin s.bwtlen.toNat 0
  rw [Nat.zero_add, Nat.zero_add] at hwalk
  refine ⟨_, (exec_lwalk_mapped hfault hlfv horigin).trans (State.lwalkBody_of_walk hfit hwalk), fun k hk => ?_,
    fun k hk => ?_, ?_, rfl⟩
  · rw [State.setOutput_outAt, dif_pos (by simpa using hk), List.getElem_map, List.getElem_range', Nat.one_mul,
      Nat.add_comm]
  · rw [State.setOutput_outAt, dif_neg (by simpa using hk)]
  · exact (BitVec.toNat_ofNat _ _).trans (Nat.mod_eq_of_lt (s.pointerAfter_lt_two_pow _))

/-! ## LINV -/

theorem andThen_congr {r : Result} {k k' : State → Result} (h : ∀ t, r = .next t → k t = k' t) :
    Result.andThen r k = Result.andThen r k' := by
  cases r with
  | next t => exact h t rfl
  | fault | refused => rfl

/-- Settles O39: each phase sets the flag that the next one checks, and none moves ORIGIN or BWTLEN. -/
theorem linvIsThreePhases : Obligations.LinvIsThreePhases := by
  intro s hfault horigin
  have hlinv : exec .linv s = Result.andThen s.lcountBody fun a => Result.andThen a.lmapBody State.lwalkBody :=
    (whenRunning_running hfault _).trans (if_neg (Nat.not_le.mpr horigin))
  rw [hlinv, show exec .lcount s = s.lcountBody from whenRunning_running hfault _]
  refine andThen_congr fun a ha => ?_
  obtain ⟨-, rfl⟩ := State.lcountBody_next ha
  change Result.andThen s.countBuffer.lmapBody _ = Result.andThen (exec .lmap s.countBuffer) _
  rw [exec_lmap_counted (s := s.countBuffer) hfault rfl]
  refine andThen_congr fun b hb => ?_
  obtain ⟨-, u, hu, rfl⟩ := State.lmapBody_next hb
  rw [lmapLoop_frame hu]
  exact Eq.symm (exec_lwalk_mapped hfault rfl horigin)

/-- LINV's first two phases: whatever BASE and LF held, LCOUNT gives LMAP the bases it needs. -/
theorem exec_linv_eq_exec_lwalk {s : State} (hfault : s.fault = false) (horigin : s.origin.toNat < s.bwtlen.toNat)
    (hfit : s.bwtlen.toNat ≤ s.bwtCap) (hcap : s.bwtCap ≤ 2 ^ 24) : ∃ b, exec .linv s = exec .lwalk b ∧
      (∀ i, i < s.bwtlen.toNat → (b.lfAt (s.sortedPlace i)).toNat = i) ∧
      (∀ j, s.bwtlen.toNat ≤ j → b.lfAt j = s.lfAt j) ∧
      b = { s with lf := b.lf, base := b.base, cntv := false, lfv := true, outv := false } := by
  obtain ⟨a, hcount, hbases, ha⟩ := lcountSetsBases s hfault hfit hcap
  obtain ⟨base, rfl⟩ : ∃ base, a = { s with base := base, cntv := true, lfv := false, outv := false } := ⟨_, ha⟩
  obtain ⟨b, hmap, hsorted, hbeyond, -, hb⟩ :=
    lmapSortsIndices { s with base := base, cntv := true, lfv := false, outv := false } hfault rfl hfit hcap hbases
  refine ⟨b, ?_, hsorted, hbeyond, hb⟩
  rw [linvIsThreePhases s hfault horigin, hcount]
  exact congrArg (Result.andThen · (exec .lwalk)) hmap

/-- Settles O38: the sorted map leads back into the buffer, so the walk completes. -/
theorem linvInvertsBuffer : Obligations.LinvInvertsBuffer := by
  intro s hfault horigin hfit hcap
  obtain ⟨b, hlinv, hsorted, hbeyond, hb⟩ := exec_linv_eq_exec_lwalk hfault horigin hfit hcap
  have hlf (j : Nat) (hj : j < s.bwtlen.toNat) := (State.sortedPlace_lfAt hsorted hj).1
  have hlen : b.bwtlen = s.bwtlen := by rw [hb]
  have hstart : b.origin = s.origin := by rw [hb]
  have hbwt : b.bwtAt = s.bwtAt := by rw [hb]; rfl
  have hout : b.outAt = s.outAt := by rw [hb]; rfl
  rw [← hlen, ← hstart] at horigin
  rw [← hlen] at hlf
  obtain ⟨t, hwalk, hemit, houtside, hwalkptr, ht⟩ :=
    lwalkWalksFromOrigin b (by rwa [hb]) (by rw [hb]) horigin (by rwa [hb]) hlf
  have htlf (j : Nat) : t.lfAt j = b.lfAt j := by rw [ht]; rfl
  have hpointer := State.pointerAfter_congr (by rw [ht]) horigin hlf fun j _ => htlf j
  simp only [hlen, hbwt, hout] at hemit houtside hwalkptr hlf
  refine ⟨t, hlinv.trans hwalk, ?_⟩
  simp only [htlf, hpointer]
  refine ⟨hsorted, hlf, hemit, fun k hk => ⟨hbeyond k hk, houtside k hk⟩, hwalkptr, ?_⟩
  rw [ht, hb]

/-- Two maps that sort equal buffers agree on the buffer. -/
theorem State.lfAt_eq_of_sorted {s s' t t' : State}
    (hplace : ∀ i, i < s.bwtlen.toNat → s'.sortedPlace i = s.sortedPlace i)
    (hsorted : ∀ i, i < s.bwtlen.toNat → (t.lfAt (s.sortedPlace i)).toNat = i)
    (hsorted' : ∀ i, i < s.bwtlen.toNat → (t'.lfAt (s'.sortedPlace i)).toNat = i) {j : Nat}
    (hj : j < s.bwtlen.toNat) : t'.lfAt j = t.lfAt j := by
  obtain ⟨hi, hij⟩ := State.sortedPlace_lfAt hsorted hj
  have hi' := hsorted' _ hi
  rw [hplace _ hi, hij] at hi'
  exact BitVec.eq_of_toNat_eq hi'

/-- Settles O40: both maps are the one that sorts the common buffer, so both walks pass the same pointers. -/
theorem linvOutputDependsOnBufferOnly : Obligations.LinvOutputDependsOnBufferOnly := by
  intro s s' t t' hfault hfault' hlen horigin hlt hfit hfit' hcap hcap' hbwt ht ht'
  obtain ⟨u, hu, hsorted, hin, hout, -, hwalkptr, hframe⟩ := linvInvertsBuffer s hfault hlt hfit hcap
  obtain ⟨u', hu', hsorted', -, hout', -, hwalkptr', hframe'⟩ :=
    linvInvertsBuffer s' hfault' (by rwa [← horigin, ← hlen]) hfit' hcap'
  obtain rfl := Host.Outcome.next.inj (hu.symm.trans ht)
  obtain rfl := Host.Outcome.next.inj (hu'.symm.trans ht')
  rw [← hlen] at hsorted' hout' hwalkptr'
  have hplace (i : Nat) (hi : i < s.bwtlen.toNat) : s'.sortedPlace i = s.sortedPlace i :=
    State.sortedPlace_congr (fun i hi => (hbwt i hi).symm) hlen.symm hi
  have hstart : u.origin = s.origin := by rw [hframe]
  have hstart' : u'.origin = u.origin := by rw [hframe', hframe, horigin]
  have hpointer := State.pointerAfter_congr hstart' (hstart ▸ hlt) hin fun j hj =>
    State.lfAt_eq_of_sorted hplace hsorted hsorted' hj
  refine ⟨fun k hk => ?_, BitVec.eq_of_toNat_eq ?_⟩
  · rw [hout k hk, hout' k hk, hpointer, hbwt _ (State.pointerAfter_lt (hstart ▸ hlt) hin _)]
  · rw [hwalkptr, hwalkptr', hpointer]

/-! ## The faults -/

/-- Settles O36: the checks of R141, R142 and R143 in their order. -/
theorem lfuSequenceAndOriginFaults : Obligations.LfuSequenceAndOriginFaults := by
  intro s hfault
  refine ⟨fun hcntv => ?_, fun hlfv => ?_, fun hlfv horigin => ?_, fun horigin => ?_⟩
  · exact (whenRunning_running hfault _).trans (if_pos (by simp [hcntv]))
  · exact (whenRunning_running hfault _).trans (if_pos (by simp [hlfv]))
  · exact (whenRunning_running hfault _).trans ((if_neg (by simp [hlfv])).trans (if_pos horigin))
  · exact (whenRunning_running hfault _).trans (if_pos horigin)

end Sys2Proof.Machine
end

section
/-! SUPPORT. The Failed state (O7, O44): while FAULT = 1 only START's word and the power-on reset reach the fault record
(R166, R167). -/

namespace Sys2Proof.Machine

/-- While FAULT = 1 every command but START is ignored (R166). -/
theorem exec_failed {s : State} (hfailed : s.fault = true) {i : Instr} (hi : i ≠ .start) : exec i s = .next s := by
  cases i with
  | start => exact absurd rfl hi
  | _ => exact whenRunning_failed hfailed _

/-- While FAULT = 1 every word but START's is ignored, legal or not (R166). -/
theorem State.command_failed {s : State} (hfailed : s.fault = true) {w : Word} (hw : w ≠ 0x01000000) :
    s.command w = .next s := by
  rcases s.command_cases w with ⟨i, hi, hcommand⟩ | ⟨_, -, hcommand⟩
  · have hne : i ≠ .start := by
      rintro rfl
      exact hw (decode_eq_start hi)
    exact hcommand.trans (exec_failed hfailed hne)
  · exact hcommand.trans (whenRunning_failed hfailed _)

/-- START's word runs START, in the Failed state too (R81, R166). -/
theorem step_start_word {s : State} {rest : List HostAccess} (hbus : s.bus = .write 4 0 0x01000000 :: rest) :
    step s = exec .start { s with bus := rest } :=
  (step_write_cmd hbus).trans (State.command_of_decode (decode_eq_ok_iff.mpr ⟨rfl, rfl⟩))

theorem step_powerOn {s : State} {rest : List HostAccess} (hbus : s.bus = .powerOn :: rest) :
    step s = .next (State.powerOnReset { s with bus := rest }) :=
  step_serve hbus

/-- Settles O7: the gate of the Failed state, and START's way past it. -/
theorem failedIgnoresAllButStart : Obligations.FailedIgnoresAllButStart := by
  intro s rest w hbus hfailed
  refine ⟨fun hw => ?_, ?_⟩
  · exact (step_write_cmd hbus).trans (State.command_failed (s := { s with bus := rest }) hfailed hw)
  · rintro rfl
    exact step_start_word hbus

/-! ## The fault record -/

/-- FAULT, ERR and ERRINFO (R13, R16). -/
def State.faultRecord (s : State) := (s.fault, s.err, s.errinfo)

theorem State.faultRecord_eq_iff {s t : State} :
    t.faultRecord = s.faultRecord ↔ t.fault = s.fault ∧ t.err = s.err ∧ t.errinfo = s.errinfo := by
  simp [State.faultRecord]

/-- No write to the host space reaches the fault record (R17 to R19). -/
theorem State.writeSlot_faultRecord (s : State) (v : Word) (x : Slot) :
    (s.writeSlot v x).faultRecord = s.faultRecord := by
  cases x with
  | reg r =>
    cases r with
    | bwtlen =>
      change (s.writeBwtlen v).faultRecord = s.faultRecord
      unfold State.writeBwtlen
      split
      · rfl
      · rfl
    | _ => rfl
  | _ => rfl

/-- CMD lies at address 0 alone (R14, R45). -/
theorem State.slotOf_eq_cmd {s : State} {addr : BitVec 28} (haddr : addr.toNat % 4 = 0)
    (h : s.slotOf addr = .reg .cmd) : addr = 0 := by
  have hword : addr.toNat / 4 = 0 := slotAt_eq_cmd h
  apply BitVec.eq_of_toNat_eq
  change addr.toNat = 0
  omega

/-- What a step does to a latched fault: START's word and the power-on reset apart, nothing (R167). -/
theorem step_failed {s t : State} (hfailed : s.fault = true) (h : step s = .next t) :
    (∃ rest, s.bus = .write 4 0 0x01000000 :: rest) ∨ (∃ rest, s.bus = .powerOn :: rest) ∨
      t.faultRecord = s.faultRecord := by
  cases hbus : s.bus with
  | nil =>
    rw [step, State.serveNext, hbus] at h
    injection h with h
    exact .inr (.inr (h ▸ rfl))
  | cons a rest =>
    rw [step_serve hbus] at h
    cases a with
    | read size addr =>
      obtain ⟨-, rfl⟩ := State.serve_read h
      exact .inr (.inr rfl)
    | lend buf =>
      injection h with h
      exact .inr (.inr (h ▸ rfl))
    | powerOn => exact .inr (.inl ⟨rest, rfl⟩)
    | write size addr v =>
      obtain ⟨haligned, ⟨hslot, hcommand⟩ | ⟨-, rfl⟩⟩ := State.serve_write h
      · obtain ⟨rfl, haddr⟩ := alignedWord_iff.mp haligned
        obtain rfl := State.slotOf_eq_cmd haddr hslot
        by_cases hv : v = 0x01000000
        · exact .inl ⟨rest, hv ▸ rfl⟩
        · rw [State.command_failed (by exact hfailed) hv] at hcommand
          injection hcommand with hcommand
          exact .inr (.inr (hcommand ▸ rfl))
      · exact .inr (.inr (State.writeSlot_faultRecord _ v _))

/-- Settles O44: what `step_failed` leaves is START and the power-on reset, and both clear FAULT. -/
theorem onlyStartLeavesFailed : Obligations.OnlyStartLeavesFailed := by
  intro s t hfailed h
  have hstart (rest : List HostAccess) (hbus : s.bus = .write 4 0 0x01000000 :: rest) :
      t.fault = false ∧ t.err = 0 ∧ t.errinfo = 0 ∧ t.pos = 0 ∧ t.discardBlock = t := by
    obtain rfl := Host.Outcome.next.inj ((step_start_word hbus).symm.trans h)
    exact ⟨rfl, rfl, rfl, rfl, rfl⟩
  have hreset (rest : List HostAccess) (hbus : s.bus = .powerOn :: rest) : t.fault = false := by
    obtain rfl := Host.Outcome.next.inj ((step_powerOn hbus).symm.trans h)
    rfl
  refine ⟨fun hcleared => ?_, fun hlatched => ?_, hstart, hreset⟩
  · rcases step_failed hfailed h with ⟨rest, hbus⟩ | ⟨rest, hbus⟩ | hrecord
    · exact ⟨rest, .inl hbus⟩
    · exact ⟨rest, .inr hbus⟩
    · simp [(State.faultRecord_eq_iff.mp hrecord).1, hfailed] at hcleared
  · rcases step_failed hfailed h with ⟨rest, hbus⟩ | ⟨rest, hbus⟩ | hrecord
    · simp [(hstart rest hbus).1] at hlatched
    · simp [hreset rest hbus] at hlatched
    · exact (State.faultRecord_eq_iff.mp hrecord).2

end Sys2Proof.Machine
end

section
/-! SUPPORT. Precise faults (O41): a command that sets FAULT has raised one fault of R161 under its own opcode byte, and
but for MBLOCK it raised it in the state the command began in (R16, R165). -/

namespace Sys2Proof.Machine

/-- A result that sets FAULT is `s` with a fault raised by the opcode byte `op`, and nothing else written. -/
def FaultsPrecisely (op : BitVec 8) (s : State) (r : Result) : Prop :=
  ∀ t, r = .next t → t.fault = true → ∃ k d, k.code ∈ blockErrorCodes ∧ t = s.raise op k d

section combinators

variable {op : BitVec 8} {s : State}

theorem faultsPrecisely_raise {k : FaultKind} (hk : k.code ∈ blockErrorCodes) (d : BitVec 24) :
    FaultsPrecisely op s (.next (s.raise op k d)) :=
  fun _ h _ => ⟨k, d, hk, (Host.Outcome.next.inj h).symm⟩

/-- A result that never sets FAULT. -/
theorem faultsPrecisely_of_running {r : Result} (h : ∀ t, r = .next t → t.fault = false) : FaultsPrecisely op s r :=
  fun t ht hfault => absurd hfault (by simp [h t ht])

theorem faultsPrecisely_next {t : State} (h : t.fault = false) : FaultsPrecisely op s (.next t) :=
  faultsPrecisely_of_running fun _ ht => Host.Outcome.next.inj ht ▸ h

theorem faultsPrecisely_stop (f : Fault) : FaultsPrecisely op s (.fault f) :=
  faultsPrecisely_of_running nofun

theorem faultsPrecisely_ite {c : Prop} [Decidable c] {a b : Result} (ha : FaultsPrecisely op s a)
    (hb : FaultsPrecisely op s b) : FaultsPrecisely op s (if c then a else b) :=
  iteInduction (fun _ => ha) fun _ => hb

theorem whenRunning_faultsPrecisely (hrunning : s.fault = false) {r : Result} (h : FaultsPrecisely op s r) :
    FaultsPrecisely op s (whenRunning s r) :=
  (whenRunning_running hrunning r).symm ▸ h

theorem withBitCount_faultsPrecisely {i : Instr} {n : BitVec 5} {k : Nat → Result}
    (h : FaultsPrecisely i.op s (k n.toNat)) : FaultsPrecisely i.op s (withBitCount i n s k) := by
  rcases withBitCount_cases i n s k with ⟨-, -, e⟩ | e
  · exact e ▸ h
  · exact e ▸ faultsPrecisely_raise (by decide) _

theorem withGroup_faultsPrecisely {i : Instr} {g : BitVec 3} {k : Fin 6 → Result}
    (h : ∀ j, FaultsPrecisely i.op s (k j)) : FaultsPrecisely i.op s (withGroup i g s k) := by
  rcases withGroup_cases i g s k with ⟨hg, e⟩ | e
  · exact e ▸ h _
  · exact e ▸ faultsPrecisely_raise (by decide) _

end combinators

/-! ## The LF unit's operations leave FAULT alone -/

section phases

variable {s t : State}

theorem State.lcountBody_fault (h : s.lcountBody = .next t) : t.fault = s.fault := by
  obtain ⟨-, rfl⟩ := State.lcountBody_next h
  rfl

theorem State.lmapBody_fault (h : s.lmapBody = .next t) : t.fault = s.fault := by
  obtain ⟨-, u, hu, rfl⟩ := State.lmapBody_next h
  rw [lmapLoop_frame hu]
  rfl

theorem State.lwalkBody_fault (h : s.lwalkBody = .next t) : t.fault = s.fault := by
  obtain ⟨-, e, bs, -, rfl⟩ := State.lwalkBody_next h
  rfl

end phases

/-! ## Every command -/

section commands

variable {s : State} (hrunning : s.fault = false)
include hrunning

theorem execHbuild_faultsPrecisely (g : BitVec 3) : FaultsPrecisely (Instr.hbuild g).op s (execHbuild g s) := by
  refine whenRunning_faultsPrecisely hrunning <| withGroup_faultsPrecisely fun k =>
    faultsPrecisely_ite (faultsPrecisely_raise (by decide) _) <| faultsPrecisely_ite (faultsPrecisely_stop _) ?_
  split
  · exact faultsPrecisely_raise (by decide) _
  · exact faultsPrecisely_next hrunning

theorem execHlook_faultsPrecisely (g : BitVec 3) : FaultsPrecisely (Instr.hlook g).op s (execHlook g s) := by
  refine whenRunning_faultsPrecisely hrunning <| withGroup_faultsPrecisely fun k =>
    faultsPrecisely_ite (faultsPrecisely_raise (by decide) _) ?_
  split
  · exact faultsPrecisely_raise (by decide) _
  · exact faultsPrecisely_stop _
  · exact faultsPrecisely_next hrunning

theorem execHdec_faultsPrecisely (g : BitVec 3) : FaultsPrecisely (Instr.hdec g).op s (execHdec g s) := by
  refine whenRunning_faultsPrecisely hrunning <| withGroup_faultsPrecisely fun k =>
    faultsPrecisely_ite (faultsPrecisely_raise (by decide) _) ?_
  split
  · exact faultsPrecisely_raise (by decide) _
  · exact faultsPrecisely_stop _
  · exact faultsPrecisely_ite (faultsPrecisely_raise (by decide) _) (faultsPrecisely_next hrunning)

theorem execMsym_faultsPrecisely : FaultsPrecisely Instr.msym.op s (execMsym s) := by
  refine whenRunning_faultsPrecisely hrunning <| faultsPrecisely_ite (faultsPrecisely_raise (by decide) _) ?_
  split
  · rename_i hfault
    rcases State.symFault_some hfault with ⟨rfl, -⟩ | ⟨rfl, -⟩
    · exact faultsPrecisely_raise (by decide) _
    · exact faultsPrecisely_raise (by decide) _
  · split
    · exact faultsPrecisely_stop _
    · exact faultsPrecisely_next ((s.symApply_fault _).trans hrunning)

/-- One MSTEP, issued by the host or inside MBLOCK. -/
theorem State.mstepWith_faultsPrecisely (op : BitVec 8) : FaultsPrecisely op s (s.mstepWith op) := by
  intro t h hfault
  rcases State.mstepWith_next h with
    ⟨k, d, rfl, hk⟩ | ⟨-, -, -, -, -, -, g, l, sym, -, -, -, -, -, -, rfl⟩
  · refine ⟨k, d, ?_, rfl⟩
    rcases hk with rfl | rfl | rfl | rfl | rfl | rfl | rfl | rfl <;> decide
  · simp [hrunning] at hfault

theorem execLinv_faultsPrecisely : FaultsPrecisely Instr.linv.op s (execLinv s) := by
  refine whenRunning_faultsPrecisely hrunning <| faultsPrecisely_ite (faultsPrecisely_raise (by decide) _) <|
    faultsPrecisely_of_running fun t h => ?_
  obtain ⟨s1, h1, h⟩ := andThen_next.mp h
  obtain ⟨s2, h2, h3⟩ := andThen_next.mp h
  rw [State.lwalkBody_fault h3, State.lmapBody_fault h2, State.lcountBody_fault h1, hrunning]

/-- A faulting command other than MBLOCK records its fault and does nothing else (R165). -/
theorem exec_faultsPrecisely {i : Instr} (hi : i ≠ .mblock) : FaultsPrecisely i.op s (exec i s) := by
  cases i with
  | nop | blkend | minit => exact whenRunning_faultsPrecisely hrunning (faultsPrecisely_next hrunning)
  | start => exact faultsPrecisely_next rfl
  | bseek =>
    exact whenRunning_faultsPrecisely hrunning <|
      faultsPrecisely_ite (faultsPrecisely_raise (by decide) _) (faultsPrecisely_next hrunning)
  | bpeek n =>
    exact whenRunning_faultsPrecisely hrunning <| withBitCount_faultsPrecisely (faultsPrecisely_next hrunning)
  | bcons n =>
    exact whenRunning_faultsPrecisely hrunning <| withBitCount_faultsPrecisely <|
      faultsPrecisely_ite (faultsPrecisely_raise (by decide) _) (faultsPrecisely_next hrunning)
  | hbuild g => exact execHbuild_faultsPrecisely hrunning g
  | hlook g => exact execHlook_faultsPrecisely hrunning g
  | hdec g => exact execHdec_faultsPrecisely hrunning g
  | msym => exact execMsym_faultsPrecisely hrunning
  | mstep => exact whenRunning_faultsPrecisely hrunning (State.mstepWith_faultsPrecisely hrunning _)
  | mblock => exact absurd rfl hi
  | lcount =>
    exact whenRunning_faultsPrecisely hrunning <|
      faultsPrecisely_of_running fun _ h => (State.lcountBody_fault h).trans hrunning
  | lmap =>
    exact whenRunning_faultsPrecisely hrunning <| faultsPrecisely_ite (faultsPrecisely_raise (by decide) _) <|
      faultsPrecisely_of_running fun _ h => (State.lmapBody_fault h).trans hrunning
  | lwalk =>
    exact whenRunning_faultsPrecisely hrunning <| faultsPrecisely_ite (faultsPrecisely_raise (by decide) _) <|
      faultsPrecisely_ite (faultsPrecisely_raise (by decide) _) <|
        faultsPrecisely_of_running fun _ h => (State.lwalkBody_fault h).trans hrunning
  | linv => exact execLinv_faultsPrecisely hrunning

end commands

/-- A faulting MBLOCK has raised the fault of its last MSTEP, in the state `u` the MSTEPs before it left (R127). -/
theorem mblockLoop_raises {op : BitVec 8} {t : State} (hfault : t.fault = true) :
    ∀ {n : Nat} {s : State}, s.fault = false → mblockLoop op n s = .next t →
      ∃ u k d, k.code ∈ blockErrorCodes ∧ t = State.raise u op k d
  | 0, _, _, h => by cases h
  | n + 1, s, hrunning, h => by
    rw [mblockLoop_succ, andThen_next] at h
    obtain ⟨u, hu, h⟩ := h
    split at h
    · injection h with h
      subst h
      exact ⟨s, State.mstepWith_faultsPrecisely hrunning op u hu hfault⟩
    · rename_i hgoes
      obtain ⟨-, hurunning⟩ := Bool.or_eq_false_iff.mp (Bool.eq_false_of_not_eq_true hgoes)
      exact mblockLoop_raises hfault hurunning h

/-- Settles O41: a faulting command has raised under its own opcode byte, and only MBLOCK may have moved on from the
state it began in before that. -/
theorem faultsArePrecise : Obligations.FaultsArePrecise := by
  intro i s t hrunning h hfault
  by_cases hi : i = .mblock
  · subst hi
    rw [exec_mblock_running hrunning] at h
    obtain ⟨u, k, d, hk, rfl⟩ := mblockLoop_raises hfault hrunning h
    exact ⟨hk, opField_append _ d, fun hne => absurd rfl hne⟩
  · obtain ⟨k, d, hk, rfl⟩ := exec_faultsPrecisely hrunning hi t h hfault
    exact ⟨hk, opField_append _ d, fun _ => rfl⟩

end Sys2Proof.Machine
end

section
/-! SUPPORT. Power-on reset (O52): the host's event runs `State.powerOnReset` on the state without that event (R190). -/

namespace Sys2Proof.Machine

/-- Settles O52: `step_powerOn` with the reset state written out; the reset reads the host's remaining accesses, and
the other kept fields are those of `s`. -/
theorem powerOnResetsBlock : Obligations.PowerOnResetsBlock := fun _ _ hbus => step_powerOn hbus

end Sys2Proof.Machine
end
